-- ==== Sys2Proof/Word.lean ====
section
/-! DEFINITION. The widths of PQC's values (spec/00_scope.md R7): plain names for bit vectors and byte arrays. -/

namespace Sys2Proof

/-- A FIFO slot, wire byte, record byte, result byte or CSR (R7). -/
abbrev Byte := BitVec 8

/-- A command argument, a `unique_id` or a flag-store word (R7). -/
abbrev Word32 := BitVec 32

/-- A command word of the host's port, `op[39:32]` and `arg[31:0]` (R80). -/
abbrev CommandWord := BitVec 40

/-- A serialized record `s[0..7]` (R88). -/
abbrev RecordBytes := Vector Byte 8

/-- A frame payload: an encoded body, a wire payload or the extractor's accumulator (R28, R91, R92). -/
abbrev PayloadBytes := Vector Byte 16

/-- A whole frame with its markers, and the result buffer of the same size (R45, R93). -/
abbrev FrameBytes := Vector Byte 18

end Sys2Proof
end

