-- ==== Sys2Proof/Config.lean ====
section
/-! DEFINITION. The four implementation parameters of PQC (spec/00_scope.md R6), as plain data, with the spec's defaults
and the legal values. They are held in the state's `cfg` field, which no step writes (notes/assumptions/5.md). -/

namespace Sys2Proof

/-- The ten named badge roles of R6 and R89, in the spec's order. -/
inductive BadgeType where
  | human | goon | speaker | vendor | press | village | contest | artist | cfp | uber
  deriving DecidableEq, Repr

/-- `BADGE_CODE` (R6): the byte value of each `badge_type`. -/
structure BadgeCodes where
  human : Byte
  goon : Byte
  speaker : Byte
  vendor : Byte
  press : Byte
  village : Byte
  contest : Byte
  artist : Byte
  cfp : Byte
  uber : Byte
  deriving DecidableEq, Repr

/-- The four parameters of R6. `groupOf` lists the bytes that have a group bucket, each with its bucket; a byte it does
not list has none (the first entry of a byte counts, notes/assumptions/13.md). -/
structure Config where
  ringSize : Nat
  perm : Vector (Fin 16) 16
  badgeCode : BadgeCodes
  groupOf : List (Byte × Fin 6)
  deriving DecidableEq, Repr

/-- The default `BADGE_CODE` of R6: Human 0 to Uber 9. -/
def BadgeCodes.standard : BadgeCodes :=
  { human := 0, goon := 1, speaker := 2, vendor := 3, press := 4, village := 5, contest := 6, artist := 7, cfp := 8,
    uber := 9 }

/-- The default parameters of R6: 64 slots; reverse each aligned group of four; codes 0..9; the five categories in
buckets 0..4 and the five other roles in bucket 5. -/
def Config.standard : Config :=
  { ringSize := 64
    perm := #v[3, 2, 1, 0, 7, 6, 5, 4, 11, 10, 9, 8, 15, 14, 13, 12]
    badgeCode := BadgeCodes.standard
    groupOf := [(2, 0), (5, 1), (6, 2), (7, 3), (1, 4), (0, 5), (3, 5), (4, 5), (8, 5), (9, 5)] }

/-- The ten codes in the order of `BadgeType`. -/
def BadgeCodes.toList (b : BadgeCodes) : List Byte :=
  [b.human, b.goon, b.speaker, b.vendor, b.press, b.village, b.contest, b.artist, b.cfp, b.uber]

/-- The legal values of R6: `2 ≤ N ≤ 256`; `PERM` a bijection of 0..15 other than the identity; `BADGE_CODE` injective.
Every `groupOf` list is a map from bytes to buckets, so it has no illegal value. -/
abbrev Config.Legal (c : Config) : Prop :=
  2 ≤ c.ringSize ∧ c.ringSize ≤ 256 ∧ c.perm.toList.Nodup ∧ c.perm ≠ Vector.ofFn id ∧ c.badgeCode.toList.Nodup

end Sys2Proof
end

