-- ==== Sys2Proof/Syntax.lean ====
section
/-! DEFINITION. The instructions of spec/opcode_table.json, one constructor per mnemonic (the table's seven ILLEGAL blocks
are one rule, R206, so one constructor with the op as its operand; notes/assumptions/8.md). A command carries every bit of
its word, the ignored ones too, because the controller latches the whole word in `cmd_op` and `cmd_arg` (R201;
notes/assumptions/9.md). -/

namespace Sys2Proof

/-- The nine commands, the illegal ops and the two port events (R81, R83). -/
inductive Instr where
  /-- NOP, op 0x00, format C0: `arg` ignored (R205). -/
  | nop (arg : Word32)
  /-- BOOT, op 0x01, format CW: `u` the flag-store word (R163). -/
  | boot (u : Word32)
  /-- SET_UID, op 0x02, format CW: `u` the unique id (R140). -/
  | setUid (u : Word32)
  /-- SET_TYPE, op 0x03, format CT: `t = arg[7:0]`, `m = arg[8]`, `ign = arg[31:9]` ignored (R141). -/
  | setType (t : Byte) (m : BitVec 1) (ign : BitVec 23)
  /-- TRY_FRAME, op 0x04, format C0 (R120). -/
  | tryFrame (arg : Word32)
  /-- RECV, op 0x05, format C0 (R144). -/
  | recv (arg : Word32)
  /-- ENCODE, op 0x06, format C0 (R142). -/
  | encode (arg : Word32)
  /-- SEND, op 0x07, format C0 (R146). -/
  | send (arg : Word32)
  /-- EVAL, op 0x08, format C0 (R166). -/
  | eval (arg : Word32)
  /-- An illegal op, 0x09..0xFF, format C0 (R84, R206). -/
  | illegal (op : Byte) (arg : Word32)
  /-- PUSH on the RX port, format RXP: `d` the received byte (R111). -/
  | push (d : Byte)
  /-- NV_DONE on the NV port, format NVP: `k` = 1 success, 0 failure (R177). -/
  | nvDone (k : BitVec 1)
  deriving DecidableEq, Repr

end Sys2Proof
end

