-- ==== Sys2Proof/WellFormed.lean ====
section
/-! DEFINITION. Which terms of `Instr` are instructions of PQC. The operands' widths are in their types (R81, R82), so the
one check left is that an illegal command's op is one of 0x09..0xFF (spec/30_encoding.md R84). -/

namespace Sys2Proof

/-- R84: the op of an `illegal` is 0x09..0xFF; every other constructor's operands may have any value. -/
def Instr.wellFormed : Instr → Bool
  | .illegal op _ => decide (0x09 ≤ op.toNat)
  | .nop _ | .boot _ | .setUid _ | .setType _ _ _ | .tryFrame _ | .recv _ | .encode _ | .send _ | .eval _ | .push _
  | .nvDone _ => true

end Sys2Proof
end

