-- ==== Sys2Proof/Decode.lean ====
section
/-! DEFINITION. What each of PQC's three input ports carries, the decoder of a port value and the encoder beside it
(spec/30_encoding.md R80 to R85). The decoder is total: every op is a command or an illegal op, every byte is a PUSH and
both NV bits are legal (R84). A width that no port has is rejected by name. -/

namespace Sys2Proof

/-- A value on one of the three input ports (R81): the command port's 40-bit word, the RX port's byte, the NV port's bit. -/
inductive PortValue where
  | command (w : CommandWord)
  | rx (d : Byte)
  | nv (k : BitVec 1)
  deriving DecidableEq, Repr

/-- Why a bit string is no port value: no port of R81 has its width. -/
inductive DecodeError where
  | noPortOfWidth (nbits : Nat)
  deriving DecidableEq, Repr

/-- `op = w[39:32]` (R80). -/
def opOf (w : CommandWord) : Byte := w.extractLsb' 32 8

/-- `arg = w[31:0]` (R80). -/
def argOf (w : CommandWord) : Word32 := w.extractLsb' 0 32

/-- A command word from its op and argument (R80). -/
def commandWord (op : Byte) (arg : Word32) : CommandWord := op ++ arg

/-- The argument word of format CT: `m` in bit 8 over `t` in bits 7:0, the ignored bits above (R81). -/
def typeArg (t : Byte) (m : BitVec 1) (ign : BitVec 23) : Word32 := ign ++ (m ++ t)

/-- Decoding one command: R83's opcode map with the operand assembly of R82. -/
def decodeCommand (op : Byte) (arg : Word32) : Instr :=
  if op = 0x00 then .nop arg
  else if op = 0x01 then .boot arg
  else if op = 0x02 then .setUid arg
  else if op = 0x03 then .setType (arg.extractLsb' 0 8) (arg.extractLsb' 8 1) (arg.extractLsb' 9 23)
  else if op = 0x04 then .tryFrame arg
  else if op = 0x05 then .recv arg
  else if op = 0x06 then .encode arg
  else if op = 0x07 then .send arg
  else if op = 0x08 then .eval arg
  else .illegal op arg

/-- The decoder: what the port value asks for (R81, R83). -/
def decode : PortValue → Instr
  | .command w => decodeCommand (opOf w) (argOf w)
  | .rx d => .push d
  | .nv k => .nvDone k

/-- Bits as a port value, by width (R81): 40 bits are a command word, 8 bits an RX byte, fewer the NV bit. A command word
given in fewer than 40 bits has zeros above (notes/assumptions/11.md). -/
def portValue (nbits w : Nat) : Except DecodeError PortValue :=
  if nbits = 0 then .error (.noPortOfWidth nbits)
  else if nbits < 8 then .ok (.nv (BitVec.ofNat 1 w))
  else if nbits = 8 then .ok (.rx (BitVec.ofNat 8 w))
  else if nbits ≤ 40 then .ok (.command (BitVec.ofNat 40 w))
  else .error (.noPortOfWidth nbits)

/-- The instruction the decoder reads from bits numbered as spec/opcode_table.json numbers them. -/
def decodeTableWord (nbits w : Nat) : Option Instr :=
  match portValue nbits w with
  | .ok v => some (decode v)
  | .error _ => none

/-- The op byte of a command (R83); an illegal command carries its own. The two port events have none. -/
def Instr.opByte : Instr → Option Byte
  | .nop _ => some 0x00
  | .boot _ => some 0x01
  | .setUid _ => some 0x02
  | .setType _ _ _ => some 0x03
  | .tryFrame _ => some 0x04
  | .recv _ => some 0x05
  | .encode _ => some 0x06
  | .send _ => some 0x07
  | .eval _ => some 0x08
  | .illegal op _ => some op
  | .push _ => none
  | .nvDone _ => none

/-- The encoder, from the same formats (R81) and opcode map (R83). -/
def encode : Instr → PortValue
  | .nop arg => .command (commandWord 0x00 arg)
  | .boot u => .command (commandWord 0x01 u)
  | .setUid u => .command (commandWord 0x02 u)
  | .setType t m ign => .command (commandWord 0x03 (typeArg t m ign))
  | .tryFrame arg => .command (commandWord 0x04 arg)
  | .recv arg => .command (commandWord 0x05 arg)
  | .encode arg => .command (commandWord 0x06 arg)
  | .send arg => .command (commandWord 0x07 arg)
  | .eval arg => .command (commandWord 0x08 arg)
  | .illegal op arg => .command (commandWord op arg)
  | .push d => .rx d
  | .nvDone k => .nv k

end Sys2Proof
end

