-- ==== Sys2Proof/Machine/State.lean ====
section
/-! DEFINITION. The state of PQC: every register of spec/10_state.md, the four parameters of R6, and the environment's
pending inputs and the order of the agents' turns as plain data, finite or repeated without end. The reset state, the faults and the refusals. -/

namespace Sys2Proof.Machine

/-- The quest states of R32, in code order 0..7. -/
inductive QState where
  | attract | d | e | f | c | o | n | complete
  deriving DecidableEq, Repr

/-- `xs`, the extractor's synchronisation state (R26): HUNT is 0, COLLECT is 1. -/
inductive XSync where
  | hunt | collect
  deriving DecidableEq, Repr

/-- `phase`, the controller's sequencing state (R37), in the order of the PHASE CSR's codes 0..5 (R49). -/
inductive Phase where
  | idle | xscan | hscan | qFill | qDrain | qWaitNv
  deriving DecidableEq, Repr

/-- `q_kind`, the transition an EVAL finishes after its flag-store wait (R39). -/
inductive QKind where
  | none | first | accept | complete
  deriving DecidableEq, Repr

/-- Whose turn comes next in the total order of atomic steps (R12, R69), or the external reset event (R250). The model's
own data: notes/assumptions/1.md. -/
inductive Turn where
  | host | rx | nv | controller | reset
  deriving DecidableEq, Repr

/-- What an agent has still to deliver, or whose turns come next: the entries of `once`, first first, and then those of `cycle`
over and over, so that a supply may have no end. The model's own data: notes/assumptions/1.md and 2.md. -/
structure Supply (α : Type) where
  once : List α
  cycle : List α
  deriving DecidableEq, Repr

/-- A supply with nothing in it. -/
def Supply.nil {α : Type} : Supply α := ⟨[], []⟩

/-- Why the machine stops. Both are raised only in states that no run from reset reaches. -/
inductive Fault where
  /-- Raised by `pop` and `execPush` when a cursor is no index of the ring, `N ≤ rd` or `N ≤ wr` (R60: indices are
  0..N-1). Safe: the model stops (notes/assumptions/10.md). -/
  | ringSlotAbsent
  /-- Raised by `controllerStep` in phase XSCAN when the latched op is neither TRY_FRAME nor RECV (R37). Safe: the model
  stops (notes/assumptions/10.md). -/
  | noRunningHunt
  deriving DecidableEq, Repr

/-- Why an instruction has no step. -/
inductive Refusal where
  /-- An instruction the model gives no meaning yet; raised by no arm of `exec` now. Safe. -/
  | notModelled (mnemonic : String)
  /-- Raised by every command when `exec` is asked for it while `busy` = 1: the host has no such step (R201; 93 U11). Safe:
  `step` lets the host wait instead. -/
  | issueWhileBusy
  /-- Raised by PUSH when `exec` is asked for it while `nv_busy` = 1: the RX producer has no such step (R112; 93 U12).
  Safe: `step` lets the RX producer wait instead. -/
  | pushWhileHeld
  /-- Raised by NV_DONE when `exec` is asked for it outside Q_WAIT_NV: the NV store has no such step (R177; 93 U13). Safe:
  `step` lets the NV store wait instead. -/
  | nvDoneWithoutRequest
  deriving DecidableEq, Repr

/-- The whole machine. Field by field: the parameters (R6); the FIFO (R22 to R24); the extractor (R26 to R28); the
mailboxes (R29 to R31); the quest machine (R32 to R36); the controller (R37 to R40); the flag-store interface (R41, R42);
the results and the output streams (R43 to R47); the environment (the model's own: notes/assumptions/1.md and 2.md). -/
structure State where
  /-- R6, read-only. -/
  cfg : Config
  /-- R22: the written slots, in the canonical form of `Memory.wf`. -/
  ring : List Host.Cell
  /-- R23. -/
  wr : BitVec 8
  /-- R24. -/
  rd : BitVec 8
  /-- R26. -/
  xs : XSync
  /-- R27. -/
  xlen : BitVec 5
  /-- R28. -/
  xbuf : PayloadBytes
  /-- R29: bytes 0..6; byte 7 is hardwired and has no storage (`outBytes`). -/
  outRec : Vector Byte 7
  /-- R30. -/
  inRec : RecordBytes
  /-- R31. -/
  inValid : Bool
  /-- R32. -/
  qstate : QState
  /-- R33. -/
  anim : QState
  /-- R34. -/
  qflags : Byte
  /-- R35. -/
  bootDone : Bool
  /-- R36. -/
  gflags : BitVec 6
  /-- R37. -/
  phase : Phase
  /-- R38. -/
  cmdOp : Byte
  /-- R38. -/
  cmdArg : Word32
  /-- R39: `q_s`. -/
  qS : QState
  /-- R39. -/
  qNext : QState
  /-- R39. -/
  qKind : QKind
  /-- R40. -/
  hs : Bool
  /-- R41. -/
  nvBusy : Bool
  /-- R42. -/
  nvReq : Word32
  /-- R43. -/
  resStatus : Byte
  /-- R44. -/
  resLen : BitVec 5
  /-- R45. -/
  resBuf : FrameBytes
  /-- R46: every byte sent since reset, oldest first. -/
  txOut : List Byte
  /-- R47: every effect emitted since reset, oldest first. -/
  fxOut : List Byte
  /-- The command words the host has still to issue. -/
  hostIn : Supply CommandWord
  /-- The received bytes the RX producer has still to deliver. -/
  rxIn : Supply Byte
  /-- The store's answers to the request in flight and to later ones. -/
  nvIn : Supply (BitVec 1)
  /-- Whose turns come next; after the last, if there is a last, the controller's. -/
  turns : Supply Turn
  deriving DecidableEq, Repr

/-- Reset (R51, R250): every register at its reset value. The parameters are R6's defaults (notes/assumptions/5.md), no
ring slot is listed (notes/assumptions/6.md), and the environment has nothing pending (notes/assumptions/2.md). -/
def State.reset : State :=
  { cfg := Config.standard
    ring := []
    wr := 0
    rd := 0
    xs := .hunt
    xlen := 0
    xbuf := Vector.replicate 16 0
    outRec := Vector.replicate 7 0
    inRec := Vector.replicate 8 0
    inValid := false
    qstate := .attract
    anim := .d
    qflags := 0
    bootDone := false
    gflags := 0
    phase := .idle
    cmdOp := 0
    cmdArg := 0
    qS := .attract
    qNext := .attract
    qKind := .none
    hs := false
    nvBusy := false
    nvReq := 0
    resStatus := 0
    resLen := 0
    resBuf := Vector.replicate 18 0
    txOut := []
    fxOut := []
    hostIn := .nil
    rxIn := .nil
    nvIn := .nil
    turns := .nil }

end Sys2Proof.Machine
end

