-- ==== Sys2Proof/Machine/Operands.lean ====
section
/-! DEFINITION. Operand forms and layouts: the control bytes of the wire (R10), the serialized record and the reading of
its fields (R88, R130, R137), the outgoing record with its hardwired byte (R29), frame results (R110), and the lookups of
the parameters (R6, R89, R99). -/

namespace Sys2Proof.Machine

/-- The start marker `'B'` (R10, R93). -/
def byteB : Byte := 0x42

/-- The end marker `'E'` (R10, R93). -/
def byteE : Byte := 0x45

/-- The first handshake byte `'R'` (R10, R94). -/
def byteR : Byte := 0x52

/-- The second handshake byte `'O'` (R10, R94). -/
def byteO : Byte := 0x4F

/-- A frame result `FRAME(len, p)` (R110): `len` in 0..17, 17 meaning 17 or more. -/
structure Frame where
  len : BitVec 5
  payload : PayloadBytes
  deriving DecidableEq, Repr

/-- The byte a magic flag is sent as (R90, R130, R141). -/
def magicByte (m : BitVec 1) : Byte := if m = 1 then 0x01 else 0x00

/-- Byte `i` of a 32-bit value, byte 0 the least significant (R63, R88). -/
def byteOf (u : Word32) (i : Nat) : Byte := u.extractLsb' (8 * i) 8

/-- `Serialize(u, t, m, q)` (R130). -/
def serialize (u : Word32) (t : Byte) (m : BitVec 1) (q : Byte) : RecordBytes :=
  #v[byteOf u 0, byteOf u 1, byteOf u 2, byteOf u 3, t, magicByte m, q, 0x00]

/-- `out_rec[0..7]`: the seven stored bytes and the hardwired byte 7, which reads 0x00 (R29). -/
def outBytes (s : State) : RecordBytes := s.outRec.push 0x00

/-- `unique_id` of a received record (R137). -/
def recUniqueId (r : RecordBytes) : Word32 := r[3] ++ (r[2] ++ (r[1] ++ r[0]))

/-- `badge_type` of a received record, kept raw (R89, R137). -/
def recType (r : RecordBytes) : Byte := r[4]

/-- `magic` of a received record: any non-zero byte is true (R90, R137). -/
def recMagic (r : RecordBytes) : Bool := r[5] != 0x00

/-- `quest_flags` of a received record (R137). -/
def recQuestFlags (r : RecordBytes) : Byte := r[6]

/-- `BADGE_CODE` of a role (R6, R89). -/
def badgeCodeOf (c : Config) : BadgeType → Byte
  | .human => c.badgeCode.human
  | .goon => c.badgeCode.goon
  | .speaker => c.badgeCode.speaker
  | .vendor => c.badgeCode.vendor
  | .press => c.badgeCode.press
  | .village => c.badgeCode.village
  | .contest => c.badgeCode.contest
  | .artist => c.badgeCode.artist
  | .cfp => c.badgeCode.cfp
  | .uber => c.badgeCode.uber

/-- `GROUP_OF` of a type byte (R6). -/
def groupOf (c : Config) (t : Byte) : Option (Fin 6) := c.groupOf.lookup t

/-- `REQ_TYPE(s)` (R99): the role a linear state D..O waits for. The other states have no row of the table. -/
def reqType (c : Config) : QState → Option Byte
  | .d => some (badgeCodeOf c .speaker)
  | .e => some (badgeCodeOf c .village)
  | .f => some (badgeCodeOf c .contest)
  | .c => some (badgeCodeOf c .artist)
  | .o => some (badgeCodeOf c .goon)
  | .attract | .n | .complete => none

/-- The bytes of a flag-store word in the store's address order: big-endian (R63, R96). -/
def storeBytes (u : Word32) : Vector Byte 4 := #v[byteOf u 3, byteOf u 2, byteOf u 1, byteOf u 0]

end Sys2Proof.Machine
end

