-- ==== Sys2Proof/Machine/Flags.lean ====
section
/-! DEFINITION. Codes and flag computations: the codes of the quest states (R32), of the phases (R49), of the statuses (R97)
and of the effects (R98); the quest flags' derivation of the state (R160, R161) and the setting of their bits (R99, R172,
R174, R175). PQC has no arithmetic flags. -/

namespace Sys2Proof.Machine

/-- The 3-bit code of a quest state (R32). -/
def QState.code : QState → BitVec 3
  | .attract => 0
  | .d => 1
  | .e => 2
  | .f => 3
  | .c => 4
  | .o => 5
  | .n => 6
  | .complete => 7

/-- The quest state of a 3-bit code (R32). -/
def QState.ofCode (v : BitVec 3) : QState :=
  if v = 0 then .attract else if v = 1 then .d else if v = 2 then .e else if v = 3 then .f
  else if v = 4 then .c else if v = 5 then .o else if v = 6 then .n else .complete

/-- The next code, `s + 1` on three bits (R99, R172). -/
def QState.succ (q : QState) : QState := QState.ofCode (q.code + 1)

/-- The animation pointer's advance, `(anim == 6) ? 1 : anim + 1` (R171). -/
def nextAnim (a : QState) : QState := if a = .n then .d else a.succ

/-- A quest state as a byte. -/
def stateByte (q : QState) : Byte := q.code.zeroExtend 8

/-- The PHASE CSR's code of a phase (R49). -/
def phaseCode : Phase → BitVec 3
  | .idle => 0
  | .xscan => 1
  | .hscan => 2
  | .qFill => 3
  | .qDrain => 4
  | .qWaitNv => 5

/-- The status codes of R97. -/
inductive Status where
  | ok | noFrame | lenErr | noHandshake | mboxFull | notBooted | alreadyBooted | illegal
  deriving DecidableEq, Repr

/-- The byte of a status (R97). -/
def statusCode : Status → Byte
  | .ok => 0x00
  | .noFrame => 0x01
  | .lenErr => 0x02
  | .noHandshake => 0x03
  | .mboxFull => 0x04
  | .notBooted => 0x05
  | .alreadyBooted => 0x06
  | .illegal => 0x07

/-- The effects of R98, each a call of a collaborator. LEDS_OFF is never emitted by PQC. -/
inductive Effect where
  | display (q : QState)
  | toneConfirm
  | toneComplete
  | error (tone leds : Bool)
  | ledsOff
  deriving DecidableEq, Repr

/-- One bit as a byte. -/
def bitByte (b : Bool) : Byte := if b then 1 else 0

/-- The byte of an effect on `fx_out` (R98). -/
def effectCode : Effect → Byte
  | .display q => 0x10 + stateByte q
  | .toneConfirm => 0x20
  | .toneComplete => 0x21
  | .error tone leds => 0x30 ||| (bitByte tone <<< 1) ||| bitByte leds
  | .ledsOff => 0x40

/-- The number of 1 bits (R8). -/
def popcount {w : Nat} (v : BitVec w) : Nat := (List.range w).countP v.getLsbD

/-- `Linear(k)`: the linear state with `k` categories found, code `k + 1` (R160). -/
def linear (k : Nat) : QState := QState.ofCode (BitVec.ofNat 3 (k + 1))

/-- `Derive(f)` (R161): bit 6 forces Complete; otherwise bit 0 clear is Attract; otherwise the count of bits 1..5. -/
def derive (f : Byte) : QState :=
  if f.getLsbD 6 then .complete
  else if f.getLsbD 0 then linear (popcount (f.extractLsb' 1 5))
  else .attract

/-- A flags byte with bit `i` set. -/
def setFlag (f : Byte) (i : Nat) : Byte := f ||| ((1 : Byte) <<< i)

/-- The group flags with the bit of bucket `g` set (R174). -/
def setGroup (gf : BitVec 6) (g : Fin 6) : BitVec 6 := gf ||| ((1 : BitVec 6) <<< g.val)

/-- `CAT_BIT(s)`: the quest-flag bit of a linear state, its own code (R99). -/
def catBit (q : QState) : Nat := q.code.toNat

/-- The flags BOOT restores from the store's word: the all-ones sentinel is no flags, otherwise the low byte without its
unused bit 7 (R96, R163). -/
def bootFlags (u : Word32) : Byte := if u = 0xFFFFFFFF then 0x00 else u.extractLsb' 0 8 &&& 0x7F

end Sys2Proof.Machine
end

