-- ==== Sys2Proof/Machine/Ops.lean ====
section
/-! DEFINITION. The named operations of PQC over its supplies, ring, registers and streams: ring memory in its canonical form, the FIFO
conditions (R25), the byte primitive `Pop` (R113), `emit` (R47), `finish` (R203), the acceptance of a command (R201), the CSR
window (R48, R49) and the reset event (R250). PQC has no exception and so no exception entry (R220): `finish` with a status is
how an error ends a command. -/

namespace Sys2Proof.Machine

/-- What `exec` and `step` answer. -/
abbrev Answer := Host.Outcome State Fault Refusal

/-! ### Supplies -/

/-- The entry that comes next, if any. -/
def Supply.head? {α : Type} (q : Supply α) : Option α :=
  match q.once with
  | x :: _ => some x
  | [] => q.cycle.head?

/-- What is left once the next entry is used up: `once` is used up first, and then `cycle` begins again. -/
def Supply.rest {α : Type} (q : Supply α) : Supply α :=
  match q.once with
  | _ :: l => { q with once := l }
  | [] => { q with once := q.cycle.tail }

/-- An entry put in front. -/
def Supply.push {α : Type} (x : α) (q : Supply α) : Supply α := { q with once := x :: q.once }

/-! ### Ring memory -/

/-- What a ring slot that is not listed reads as (R22 leaves it unspecified and unobservable: notes/assumptions/6.md). -/
def unwrittenSlot : Byte := 0x00

/-- The byte at a ring index. -/
def ringRead : List Host.Cell → Nat → Byte
  | [], _ => unwrittenSlot
  | (b, v) :: m, a => if a = b then v else ringRead m a

/-- A slot put in front, but for one that reads as an unlisted slot does. -/
def consCell (a : Nat) (v : Byte) (m : List Host.Cell) : List Host.Cell :=
  if v = unwrittenSlot then m else (a, v) :: m

/-- The ring with the byte at an index replaced, in canonical form. -/
def ringWrite : List Host.Cell → Nat → Byte → List Host.Cell
  | [], a, v => consCell a v []
  | (b, u) :: m, a, v =>
    if a < b then consCell a v ((b, u) :: m)
    else if a = b then consCell a v m
    else (b, u) :: ringWrite m a v

/-- Every address listed lies above `a`. -/
def Memory.above (a : Nat) : List Host.Cell → Bool
  | [] => true
  | (b, _) :: _ => decide (a < b)

/-- The canonical form: addresses strictly rising, and no entry that reads as an unlisted slot does. -/
def Memory.wf : List Host.Cell → Bool
  | [] => true
  | (a, v) :: m => v != unwrittenSlot && Memory.above a m && Memory.wf m

/-! ### FIFO -/

/-- The cursor after `c`, modulo the ring's size (R67, R111, R113). -/
def nextCursor (s : State) (c : BitVec 8) : BitVec 8 := BitVec.ofNat 8 ((c.toNat + 1) % s.cfg.ringSize)

/-- `empty` (R25). -/
def fifoEmpty (s : State) : Bool := s.rd == s.wr

/-- `full` (R25): the write cursor's successor is the read cursor. -/
def fifoFull (s : State) : Bool := (s.wr.toNat + 1) % s.cfg.ringSize == s.rd.toNat

/-- `level` (R25): bytes buffered and unread. -/
def level (s : State) : Nat := (s.wr.toNat + s.cfg.ringSize - s.rd.toNat) % s.cfg.ringSize

/-- `Pop()` (R113): the oldest unread byte, if any, and the state after taking it. A read cursor outside the ring has no
slot (notes/assumptions/10.md). -/
def pop (s : State) : Host.Outcome (Option Byte × State) Fault Refusal :=
  if s.rd = s.wr then .next (none, s)
  else if s.cfg.ringSize ≤ s.rd.toNat then .fault .ringSlotAbsent
  else .next (some (ringRead s.ring s.rd.toNat), { s with rd := nextCursor s s.rd })

/-! ### Streams, results, acceptance -/

/-- `emit X` (R9, R47). -/
def emit (x : Effect) (s : State) : State := { s with fxOut := s.fxOut ++ [effectCode x] }

/-- The result buffer of a command that defines no byte of it: 18 x 0x00 (R45). -/
def noBytes : FrameBytes := Vector.replicate 18 0x00

/-- The result buffer `[q] ++ 17 x 0x00` of BOOT and EVAL (R163, R167 to R177). -/
def stateResult (q : QState) : FrameBytes := noBytes.set 0 (stateByte q)

/-- The result buffer `p[0..15] ++ [0x00, 0x00]` (R120, R144). -/
def payloadResult (p : PayloadBytes) : FrameBytes :=
  Vector.ofFn fun i : Fin 18 => if h : i.val < 16 then p[i.val] else 0x00

/-- The result buffer `s[0..7] ++ 10 x 0x00` (R144). -/
def recordResult (r : RecordBytes) : FrameBytes :=
  Vector.ofFn fun i : Fin 18 => if h : i.val < 8 then r[i.val] else 0x00

/-- `finish(st, len, buf)` (R203). -/
def finish (st : Status) (len : BitVec 5) (buf : FrameBytes) (s : State) : State :=
  { s with resStatus := statusCode st, resLen := len, resBuf := buf, phase := .idle }

/-- `ISSUE` (R201): the host has a step only while `busy` = 0; the word is latched and the command's code runs up to its
first boundary. -/
def accept (op : Byte) (arg : Word32) (run : State → State) (s : State) : Answer :=
  if s.phase = .idle then .next (run { s with cmdOp := op, cmdArg := arg })
  else .refused .issueWhileBusy

/-! ### CSR window -/

/-- `busy` (R38). -/
def busy (s : State) : Bool := s.phase != .idle

/-- The STATUS CSR (R49): bits 0..5 are busy, boot_done, in_valid, xs, hs and nv_busy. -/
def csrStatus (s : State) : Byte :=
  bitByte (busy s) ||| (bitByte s.bootDone <<< 1) ||| (bitByte s.inValid <<< 2) ||| (bitByte (s.xs == .collect) <<< 3)
    ||| (bitByte s.hs <<< 4) ||| (bitByte s.nvBusy <<< 5)

/-- The QSTATE CSR (R49): `qstate` in bits 2:0, `anim` in bits 5:3. -/
def csrQState (s : State) : Byte := stateByte s.qstate ||| (stateByte s.anim <<< 3)

/-- The listed CSRs, indices 0x00 to 0x2E in order (R49). -/
def csrWindow (s : State) : List Byte :=
  [csrStatus s, BitVec.ofNat 8 (level s), csrQState s, s.qflags, s.gflags.zeroExtend 8, s.resStatus,
    s.resLen.zeroExtend 8, s.xlen.zeroExtend 8]
  ++ (outBytes s).toList ++ s.inRec.toList ++ s.resBuf.toList
  ++ [s.rd, s.wr, s.nvReq.extractLsb' 0 8, (phaseCode s.phase).zeroExtend 8, s.cmdOp]

/-- `CSR_READ(i)` (R48, R207): the listed CSR, or 0x00. An observation; it is no step (notes/assumptions/12.md). -/
def csrRead (s : State) (i : Byte) : Byte := (csrWindow s).getD i.toNat 0x00

/-! ### Reset -/

/-- The external reset event (R250 to R252): every register at its reset value, the ring's bytes as they were, the
parameters untouched. The environment's inputs stay, but for the store's answer to a request in flight, which is discarded
(notes/assumptions/7.md). -/
def resetEvent (s : State) : State :=
  { State.reset with
    cfg := s.cfg
    ring := s.ring
    hostIn := s.hostIn
    rxIn := s.rxIn
    nvIn := if s.nvBusy then s.nvIn.rest else s.nvIn
    turns := s.turns }

end Sys2Proof.Machine
end

