-- ==== Sys2Proof/Machine/Fifo.lean ====
section
/-! DEFINITION. The FIFO and frame extractor family (spec/40_fifo_extractor.md): PUSH, the extractor's byte step `XFeed`, one
controller step of a frame hunt, and TRY_FRAME. -/

namespace Sys2Proof.Machine

/-- PUSH's effect on the FIFO (R111): the byte is dropped when full, otherwise written at `wr`. A write cursor outside the
ring has no slot (notes/assumptions/10.md). -/
def pushByte (d : Byte) (s : State) : Answer :=
  if fifoFull s then .next s
  else if s.cfg.ringSize ≤ s.wr.toNat then .fault .ringSlotAbsent
  else .next { s with ring := ringWrite s.ring s.wr.toNat d, wr := nextCursor s s.wr }

/-- PUSH (R111), held while `nv_busy` = 1 (R112). -/
def execPush (d : Byte) (s : State) : Answer :=
  if s.nvBusy then .refused .pushWhileHeld else pushByte d s

/-- `XFeed(b)` (R115): the extractor after one popped byte, and the frame that byte ended, if any. -/
def xfeed (b : Byte) (s : State) : State × Option Frame :=
  match s.xs with
  | .hunt =>
    if b = byteB then ({ s with xs := .collect, xlen := 0, xbuf := Vector.replicate 16 0x00 }, none)
    else (s, none)
  | .collect =>
    if b = byteE then ({ s with xs := .hunt }, some { len := s.xlen, payload := s.xbuf })
    else
      ({ s with
          xbuf := if s.xlen.toNat < 16 then s.xbuf.setIfInBounds s.xlen.toNat b else s.xbuf
          xlen := BitVec.ofNat 5 (min (s.xlen.toNat + 1) 17) }, none)

/-- One controller step of a frame hunt (R114, R118): one `Pop()`, the byte's `XFeed`, and what the hunt's caller does when
the FIFO is empty or a frame ends; otherwise the hunt goes on. -/
def huntStep (onEmpty : State → State) (onFrame : Frame → State → State) (s : State) : Answer :=
  match pop s with
  | .next (none, t) => .next (onEmpty t)
  | .next (some b, t) =>
    match xfeed b t with
    | (u, none) => .next u
    | (u, some f) => .next (onFrame f u)
  | .fault r => .fault r
  | .refused r => .refused r

/-- TRY_FRAME (R120), the ISSUE step: the hunt's first `Pop()` is the next step (R202). -/
def execTryFrame (arg : Word32) (s : State) : Answer :=
  accept 0x04 arg (fun s => { s with phase := .xscan }) s

/-- TRY_FRAME (R120), each later step: NO_FRAME on an empty FIFO, otherwise the raw payload with its length. -/
def tryFrameStep (s : State) : Answer :=
  huntStep (finish .noFrame 0 noBytes) (fun f => finish .ok f.len (payloadResult f.payload)) s

end Sys2Proof.Machine
end

