-- ==== Sys2Proof/Machine/Codec.lean ====
section
/-! DEFINITION. The packet codec, the record mailboxes and transmit (spec/41_codec.md): the pure functions, SET_UID, SET_TYPE,
ENCODE, RECV and SEND. -/

namespace Sys2Proof.Machine

/-- A nibble's encoded byte `0xD0 | n` (R91). -/
def encodedNibble (n : BitVec 4) : Byte := 0xD0 ||| n.zeroExtend 8

/-- `x[7:4]` (R62). -/
def highNibble (x : Byte) : BitVec 4 := x.extractLsb' 4 4

/-- `x[3:0]` (R62). -/
def lowNibble (x : Byte) : BitVec 4 := x.extractLsb' 0 4

/-- `NibbleExpand` (R131): each byte becomes two, the high nibble's first. -/
def nibbleExpand (r : RecordBytes) : PayloadBytes :=
  Vector.ofFn fun i : Fin 16 =>
    encodedNibble (if i.val % 2 = 0 then highNibble r[i.val / 2] else lowNibble r[i.val / 2])

/-- `Permute` (R92, R132): `w[i] = e[PERM[i]]`. -/
def permute (c : Config) (e : PayloadBytes) : PayloadBytes := Vector.ofFn fun i : Fin 16 => e[c.perm[i]]

/-- A body between its markers (R93): index 0 is `'B'`, indices 1..16 are the body, index 17 is `'E'`. -/
def framed (w : PayloadBytes) : FrameBytes :=
  Vector.ofFn fun i : Fin 18 =>
    if i.val = 0 then byteB else if h : i.val - 1 < 16 then w[i.val - 1] else byteE

/-- `Encode` (R133). -/
def encodeFrame (c : Config) (r : RecordBytes) : FrameBytes := framed (permute c (nibbleExpand r))

/-- The packing of `Decode` (R136): byte `i` from the low nibbles of payload bytes `2i` and `2i+1`. -/
def packNibbles (p : PayloadBytes) : RecordBytes :=
  Vector.ofFn fun i : Fin 8 => lowNibble p[2 * i.val] ++ lowNibble p[2 * i.val + 1]

/-- `Decode(len, p)` (R136): `none` is LEN_ERR. No permutation is undone. -/
def decodeRecord (f : Frame) : Option RecordBytes :=
  if f.len = 16 then some (packNibbles f.payload) else none

/-- SET_UID (R140). -/
def execSetUid (u : Word32) (s : State) : Answer :=
  accept 0x02 u (fun s =>
    finish .ok 0 noBytes
      { s with
        outRec := (((s.outRec.set 0 (byteOf u 0)).set 1 (byteOf u 1)).set 2 (byteOf u 2)).set 3 (byteOf u 3) }) s

/-- SET_TYPE (R141): the ignored bits reach `cmd_arg` only (R201). -/
def execSetType (t : Byte) (m : BitVec 1) (ign : BitVec 23) (s : State) : Answer :=
  accept 0x03 (typeArg t m ign) (fun s =>
    finish .ok 0 noBytes { s with outRec := (s.outRec.set 4 t).set 5 (magicByte m) }) s

/-- ENCODE (R142). -/
def execEncode (arg : Word32) (s : State) : Answer :=
  accept 0x06 arg (fun s => finish .ok 18 (encodeFrame s.cfg (outBytes s)) s) s

/-- RECV (R144), the ISSUE step: MBOX_FULL at once, otherwise the hunt starts with the next step. -/
def execRecv (arg : Word32) (s : State) : Answer :=
  accept 0x05 arg (fun s =>
    if s.inValid then finish .mboxFull 0 noBytes s else { s with phase := .xscan }) s

/-- RECV's end once its hunt has a frame (R144, R145): decode it into the mailbox or report its length. -/
def recvFrame (f : Frame) (s : State) : State :=
  match decodeRecord f with
  | none => finish .lenErr f.len (payloadResult f.payload) s
  | some r => finish .ok 8 (recordResult r) { s with inRec := r, inValid := true }

/-- RECV (R144), each later step. -/
def recvStep (s : State) : Answer := huntStep (finish .noFrame 0 noBytes) recvFrame s

/-- SEND (R146), the ISSUE step: the handshake hunt starts, with `hs` = 0, with the next step. -/
def execSend (arg : Word32) (s : State) : Answer :=
  accept 0x07 arg (fun s => { s with phase := .hscan, hs := false }) s

/-- SEND's end after the handshake (R146, R147): the 18 bytes of the frame on `tx_out` in one step. -/
def sendFrame (s : State) : State :=
  let fr := encodeFrame s.cfg (outBytes s)
  finish .ok 18 fr { s with txOut := s.txOut ++ fr.toList, hs := false }

/-- SEND (R146, R148), each later step: one `Pop()`, the handshake matched as a subsequence; the extractor is not fed. -/
def sendStep (s : State) : Answer :=
  match pop s with
  | .next (none, t) => .next (finish .noHandshake 0 noBytes { t with hs := false })
  | .next (some b, t) =>
    if t.hs = false ∧ b = byteR then .next { t with hs := true }
    else if t.hs = true ∧ b = byteO then .next (sendFrame t)
    else .next t
  | .fault r => .fault r
  | .refused r => .refused r

end Sys2Proof.Machine
end

