-- ==== Sys2Proof/Machine/Quest.lean ====
section
/-! DEFINITION. The quest state machine and the flag-store interface (spec/42_quest.md): BOOT, EVAL's fill, drain and
evaluation, `Persist` and NV_DONE. -/

namespace Sys2Proof.Machine

/-- The end of a BOOT or EVAL with a quest state as its result: `finish(OK, 1, [q] ++ 17 x 0x00)`. -/
def finishState (q : QState) (s : State) : State := finish .ok 1 (stateResult q) s

/-- BOOT's restore (R163, R164): flags from the word, group flags empty, the animation at D, the derived state; DISPLAY of it
unless it is Attract. -/
def bootRestore (u : Word32) (s : State) : State :=
  let f := bootFlags u
  let q := derive f
  let s := { s with
    qflags := f, gflags := 0, anim := .d, qstate := q, outRec := s.outRec.set 6 f, bootDone := true }
  finishState q (if q = .attract then s else emit (.display q) s)

/-- BOOT (R163). -/
def execBoot (u : Word32) (s : State) : Answer :=
  accept 0x01 u (fun s => if s.bootDone then finish .alreadyBooted 0 noBytes s else bootRestore u s) s

/-- `Persist()` (R176): the flags mirrored in the outgoing record and requested of the store; the controller waits. -/
def persist (s : State) : State :=
  { s with
    outRec := s.outRec.set 6 s.qflags
    nvReq := s.qflags.zeroExtend 32
    nvBusy := true
    phase := .qWaitNv }

/-- A transition: the new flags, what NV_DONE will finish, and `Persist()` (R171, R172, R175). -/
def transition (f : Byte) (q : QState) (k : QKind) (s : State) : State :=
  persist { s with qflags := f, qNext := q, qKind := k }

/-- `EvalAttract(have, r)` (R171): first contact, or one tick of the idle animation. -/
def evalAttract (have_ : Bool) (s : State) : State :=
  if have_ then transition (setFlag s.qflags 0) (derive (setFlag s.qflags 0)) .first s
  else finishState .attract { emit (.display s.anim) s with anim := nextAnim s.anim }

/-- Whether a linear state accepts the packet (R172): magic, of the state's required type, the category bit still clear. -/
def accepts (c : Config) (f : Byte) (q : QState) (have_ : Bool) (r : RecordBytes) : Bool :=
  have_ && recMagic r && decide (reqType c q = some (recType r)) && !f.getLsbD (catBit q)

/-- `EvalLinear(have, r)` for `q` in D..O (R172, R173). -/
def evalLinear (q : QState) (have_ : Bool) (r : RecordBytes) (s : State) : State :=
  if accepts s.cfg s.qflags q have_ r then transition (setFlag s.qflags (catBit q)) q.succ .accept s
  else finishState q s

/-- `EvalN(have, r)` with `CompleteQuest()` (R174, R175): the packet's bucket is collected; the sixth completes the quest. -/
def evalN (have_ : Bool) (r : RecordBytes) (s : State) : State :=
  match have_, groupOf s.cfg (recType r) with
  | true, some g =>
    let s := { s with gflags := setGroup s.gflags g }
    if s.gflags = 0b111111 then transition (setFlag s.qflags 6) .complete .complete s else finishState .n s
  | _, _ => finishState .n s

/-- The end of `EvalComplete()` (R167): one tick of the decorative animation. -/
def completeTick (s : State) : State := finishState .complete (emit (.display .complete) s)

/-- `Evaluate()` (R170): the packet is taken out of the mailbox and the state latched at the start decides. In Complete no
packet is evaluated: the cycle ends as R167 says. -/
def evaluate (s : State) : State :=
  let taken := s.inValid
  let r := s.inRec
  let t := { s with inValid := false }
  match s.qS with
  | .attract => evalAttract taken t
  | .d | .e | .f | .c | .o => evalLinear s.qS taken r t
  | .n => evalN taken r t
  | .complete => completeTick s

/-- What follows `Fill()` (R166): in Attract the evaluation at once, otherwise the drain, whose first `Pop()` is the next step
(R202; notes/assumptions/16.md). -/
def afterFill (s : State) : State := if s.qS = .attract then evaluate s else { s with phase := .qDrain }

/-- EVAL from its start to its first boundary (R166, R167, R202). -/
def evalStart (s : State) : State :=
  if s.bootDone = false then finish .notBooted 0 noBytes s
  else if s.qstate = .complete then { s with qS := .complete, inValid := false, phase := .qDrain }
  else if s.inValid then afterFill { s with qS := s.qstate, phase := .qFill }
  else { s with qS := s.qstate, phase := .qFill }

/-- EVAL (R166), the ISSUE step. -/
def execEval (arg : Word32) (s : State) : Answer := accept 0x08 arg evalStart s

/-- `Fill()` when its hunt has a frame (R168): a decoded record fills the mailbox and ends the fill; a frame of wrong length is
discarded and the hunt goes on. -/
def fillFrame (f : Frame) (s : State) : State :=
  match decodeRecord f with
  | none => s
  | some r => afterFill { s with inRec := r, inValid := true }

/-- One controller step of `Fill()` (R168). -/
def evalFillStep (s : State) : Answer := huntStep afterFill fillFrame s

/-- One controller step of `Drain()` (R169) or of Complete's drain (R167): every frame found is discarded undecoded, and an empty
FIFO ends the drain. -/
def evalDrainStep (s : State) : Answer := huntStep evaluate (fun _ s => s) s

/-- The effects of a transition after the store's answer (R177, R178). -/
def transitionEffects (s : State) : State :=
  match s.qKind with
  | .none => s
  | .first => emit (.display s.qNext) s
  | .accept => emit .toneConfirm (emit (.display s.qNext) s)
  | .complete => emit .toneComplete (emit (.display .complete) s)

/-- NV_DONE's step (R177): the hold is lifted, a failure is reported by ERROR(1,1), then the transition's effects; the state
moves and the EVAL finishes OK. -/
def nvFinish (k : BitVec 1) (s : State) : State :=
  let s := { s with nvBusy := false }
  let s := transitionEffects (if k = 0 then emit (.error true true) s else s)
  finishState s.qNext { s with qstate := s.qNext, qKind := .none }

/-- NV_DONE (R177): enabled only while `phase` = Q_WAIT_NV. -/
def execNvDone (k : BitVec 1) (s : State) : Answer :=
  if s.phase = .qWaitNv then .next (nvFinish k s) else .refused .nvDoneWithoutRequest

end Sys2Proof.Machine
end

