-- ==== Sys2Proof/Machine/Control.lean ====
section
/-! DEFINITION. Command control (spec/43_control.md): NOP, the illegal ops, and the controller's step, which runs the command
that is under way up to its next boundary (R202). -/

namespace Sys2Proof.Machine

/-- NOP (R205). -/
def execNop (arg : Word32) (s : State) : Answer := accept 0x00 arg (finish .ok 0 noBytes) s

/-- An illegal op (R206): status ILLEGAL and nothing else; PQC does not halt, trap or reset. -/
def execIllegal (op : Byte) (arg : Word32) (s : State) : Answer := accept op arg (finish .illegal 0 noBytes) s

/-- The controller's next step (R202). With no command running, or while the flag store is awaited, it has none, and the state
stays (R209, R262; notes/assumptions/3.md). XSCAN is TRY_FRAME's hunt or RECV's, by the latched op (R37). -/
def controllerStep (s : State) : Answer :=
  match s.phase with
  | .idle => .next s
  | .xscan =>
    if s.cmdOp = 0x04 then tryFrameStep s
    else if s.cmdOp = 0x05 then recvStep s
    else .fault .noRunningHunt
  | .hscan => sendStep s
  | .qFill => evalFillStep s
  | .qDrain => evalDrainStep s
  | .qWaitNv => .next s

end Sys2Proof.Machine
end

