-- ==== Sys2Proof/Machine/Dispatch.lean ====
section
/-! DEFINITION. Which meaning each instruction has. One arm per constructor. -/

namespace Sys2Proof.Machine

def exec (i : Instr) (s : State) : Host.Outcome State Fault Refusal :=
  match i with
  | .nop arg => Sys2Proof.Machine.execNop arg s
  | .boot u => Sys2Proof.Machine.execBoot u s
  | .setUid u => Sys2Proof.Machine.execSetUid u s
  | .setType t m ign => Sys2Proof.Machine.execSetType t m ign s
  | .tryFrame arg => Sys2Proof.Machine.execTryFrame arg s
  | .recv arg => Sys2Proof.Machine.execRecv arg s
  | .encode arg => Sys2Proof.Machine.execEncode arg s
  | .send arg => Sys2Proof.Machine.execSend arg s
  | .eval arg => Sys2Proof.Machine.execEval arg s
  | .illegal op arg => Sys2Proof.Machine.execIllegal op arg s
  | .push d => Sys2Proof.Machine.execPush d s
  | .nvDone k => Sys2Proof.Machine.execNvDone k s

end Sys2Proof.Machine
end

