-- ==== Sys2Proof/Machine/Turns.lean ====
section
/-! DEFINITION. The turns of the agents (R12, R69): what happens when the order of steps names an agent. An agent with an enabled
step takes it on its next pending input; one that is held waits, with its input kept (R260). -/

namespace Sys2Proof.Machine

/-- The host's turn (R201): its next word is issued while `busy` = 0; while `busy` = 1, or with no word pending, it waits. -/
def hostTurn (s : State) : Answer :=
  match s.hostIn.head? with
  | none => .next s
  | some w => if s.phase = .idle then exec (decode (.command w)) { s with hostIn := s.hostIn.rest } else .next s

/-- The RX producer's turn (R111, R112): its next byte is pushed; while `nv_busy` = 1 the byte waits outside PQC. -/
def rxTurn (s : State) : Answer :=
  match s.rxIn.head? with
  | none => .next s
  | some d => if s.nvBusy then .next s else exec (decode (.rx d)) { s with rxIn := s.rxIn.rest }

/-- The NV store's turn (R177): it answers only while a request is awaited. -/
def nvTurn (s : State) : Answer :=
  match s.nvIn.head? with
  | none => .next s
  | some k => if s.phase = .qWaitNv then exec (decode (.nv k)) { s with nvIn := s.nvIn.rest } else .next s

/-- The step of the agent the turn names, or the external reset (R250). -/
def takeTurn (t : Turn) (s : State) : Answer :=
  match t with
  | .host => hostTurn s
  | .rx => rxTurn s
  | .nv => nvTurn s
  | .controller => controllerStep s
  | .reset => .next (resetEvent s)

/-- The turn that comes next: the next of `turns`, or, there being none, the controller's (notes/assumptions/1.md). -/
def nextTurn (s : State) : Turn := s.turns.head?.getD .controller

/-- One step of the machine: the next turn is used up and its agent steps. -/
def agentStep (s : State) : Answer := takeTurn (nextTurn s) { s with turns := s.turns.rest }

/-- A port value put where the next step takes it: first in its port's queue, with its agent's turn next
(notes/assumptions/14.md). -/
def placeInput (v : PortValue) (s : State) : State :=
  match v with
  | .command w => { s with hostIn := s.hostIn.push w, turns := s.turns.push .host }
  | .rx d => { s with rxIn := s.rxIn.push d, turns := s.turns.push .rx }
  | .nv k => { s with nvIn := s.nvIn.push k, turns := s.turns.push .nv }

end Sys2Proof.Machine
end

