-- ==== Sys2Proof/Machine/Step.lean ====
section
/-! DEFINITION. One step of PQC, and the placing of an instruction where the next step takes it. -/

namespace Sys2Proof.Machine

/-- One atomic step of one agent (R65, R69). -/
def step (s : State) : Host.Outcome State Fault Refusal := agentStep s

/-- The instruction placed so that the very next step runs it: there is no fetch (R21, R74), so it goes to the front of its
port's supply with its agent's turn next. Bits of a width that no port has are not placed. -/
def State.withFetchWord (s : State) (nbits w : Nat) : State :=
  match portValue nbits w with
  | .ok v => placeInput v s
  | .error _ => s

end Sys2Proof.Machine
end

