-- ==== Sys2Proof/Machine/Assembler.lean ====
section
/-! DEFINITION. The assembler's pseudo-instructions and their expansions (spec/30_encoding.md R87), as lists of instructions. They
are notation, not hardware: no meaning uses them. -/

namespace Sys2Proof.Machine

/-- `SET_OUT u, t, m`. -/
def asmSetOut (u : Word32) (t : Byte) (m : BitVec 1) : List Instr := [.setUid u, .setType t m 0]

/-- `RXBYTES b0, b1, ...`; `RXSTR "text"` is this over the text's ASCII codes. -/
def asmRxBytes (bs : List Byte) : List Instr := bs.map .push

/-- The bytes of `RXFRAME u, t, m, q`: a frame with no permutation applied, as it reaches the receiver after the physical layer
undid the sender's (R138). -/
def rxFrameBytes (u : Word32) (t : Byte) (m : BitVec 1) (q : Byte) : FrameBytes :=
  framed (nibbleExpand (serialize u t m q))

/-- `RXFRAME u, t, m, q`. -/
def asmRxFrame (u : Word32) (t : Byte) (m : BitVec 1) (q : Byte) : List Instr :=
  asmRxBytes (rxFrameBytes u t m q).toList

/-- The bytes of `RXLOOP u, t, m, q`: what SEND would put on `tx_out`, looped back. -/
def rxLoopBytes (c : Config) (u : Word32) (t : Byte) (m : BitVec 1) (q : Byte) : FrameBytes :=
  encodeFrame c (serialize u t m q)

/-- `RXLOOP u, t, m, q`. -/
def asmRxLoop (c : Config) (u : Word32) (t : Byte) (m : BitVec 1) (q : Byte) : List Instr :=
  asmRxBytes (rxLoopBytes c u t m q).toList

end Sys2Proof.Machine
end

