-- ==== Sys2Proof/Safety.lean ====
section
/-! DEFINITION. The terms in which claims about PQC speak: runs of steps, the FIFO's contents as a list, a partial frame as a
list, the frames in a stretch of bytes, and the invariant of the machine, part by part, each part with the rules it comes from. -/

namespace Sys2Proof.Machine

/-- `n` steps of the machine, stopping at the first fault or refusal. -/
def runSteps (n : Nat) (s : State) : Answer := Host.Core.run Sys2Proof.core n s

/-- The unread bytes of the FIFO, oldest first: the `level` slots from `rd` on, modulo N (R25, R61). -/
def fifoBytes (s : State) : List Byte :=
  (List.range (level s)).map fun i => ringRead s.ring ((s.rd.toNat + i) % s.cfg.ringSize)

/-- Where the extractor stands in the stream of bytes: its synchronisation state, and the whole payload of the frame it is
inside or, in HUNT, of the last finished one (R26 to R28, R116). -/
structure Progress where
  sync : XSync
  payload : List Byte
  deriving DecidableEq, Repr

/-- One byte more (R115, R122, R123), over payloads of any length: the start marker opens a frame in HUNT alone, the end marker
ends one, and every other byte of a frame is payload. -/
def Progress.feed (e : Progress) (b : Byte) : Progress :=
  match e.sync with
  | .hunt => if b = 0x42 then ⟨.collect, []⟩ else e
  | .collect => if b = 0x45 then ⟨.hunt, e.payload⟩ else ⟨.collect, e.payload ++ [b]⟩

/-- A stretch of bytes more. -/
def Progress.scan (e : Progress) (l : List Byte) : Progress := l.foldl Progress.feed e

/-- The first frame that the bytes complete and whose payload is wanted, and the bytes after its end marker (R118, R125); frames
that are not wanted are passed over (R168, R169). -/
def nextFrame (want : List Byte → Bool) (e : Progress) : List Byte → Option (List Byte × List Byte)
  | [] => none
  | b :: l =>
    if e.sync = .collect ∧ b = 0x45 ∧ want e.payload = true then some (e.payload, l)
    else nextFrame want (e.feed b) l

/-- TRY_FRAME and RECV take the first frame, whatever its length (R118). -/
def anyLength (_ : List Byte) : Bool := true

/-- EVAL's fill takes the first frame that decodes: one of 16 payload bytes (R136, R168). -/
def decodable (p : List Byte) : Bool := p.length == 16

/-- The extractor's registers hold a place in the stream (R26 to R28, R116): the length saturates at 17, and the first 16 bytes
of the payload are held, padded with 0x00. -/
structure Holds (s : State) (e : Progress) : Prop where
  sync : s.xs = e.sync
  length : s.xlen.toNat = min e.payload.length 17
  bytes : ∀ i : Fin 16, s.xbuf[i] = e.payload.getD i.val 0x00

/-- The extractor stands at that place: as `Holds`, but in HUNT the registers, which the next start marker clears, may hold
anything. -/
def Stands (s : State) (e : Progress) : Prop := s.xs = e.sync ∧ (e.sync = .collect → Holds s e)

/-- Over these bytes the extractor moves on from where it stands in `s` to where it stands in `t` (R119: a partial frame is kept
and goes on). -/
def Follows (s t : State) (l : List Byte) : Prop :=
  ∀ e, (Stands s e → Stands t (e.scan l)) ∧ (Holds s e → Holds t (e.scan l))

/-- The byte ends nothing that the running loop looks for, and leaves it looking for the same (R264): no marker that the frame hunt
waits for, no handshake byte that SEND waits for; a drain looks for nothing. -/
def Fruitless (b : Byte) (s : State) : Prop :=
  match s.phase with
  | .xscan | .qFill => b ≠ (match s.xs with | .hunt => 0x42 | .collect => 0x45)
  | .hscan => b ≠ if s.hs then 0x4F else 0x52
  | .qDrain => True
  | .idle | .qWaitNv => False

/-- The extractor is inside a frame and has consumed the payload bytes `p` of it. -/
abbrev Collected (s : State) (p : List Byte) : Prop := Holds s ⟨.collect, p⟩

/-- The record that decoding reads from a payload (R136): byte `i` from the low nibbles of payload bytes `2i` and `2i+1`. -/
def Decodes (p : List Byte) (r : RecordBytes) : Prop :=
  ∀ i : Fin 8, r[i] = ((p.getD (2 * i.val) 0x00 &&& 0x0F) <<< 4) ||| (p.getD (2 * i.val + 1) 0x00 &&& 0x0F)

/-- A frame result that carries the payload `p` (R117): its length saturated at 17, its first 16 bytes, 0x00 beyond. -/
structure Carries (len : BitVec 5) (b : FrameBytes) (p : List Byte) : Prop where
  length : len.toNat = min p.length 17
  bytes : ∀ i : Fin 18, b[i] = if i.val < 16 then p.getD i.val 0x00 else 0x00

/-- The FIFO is well formed (R6, R22 to R25): a legal size, both cursors inside the ring, the ring in canonical form and within
its index range. -/
structure FifoWf (s : State) : Prop where
  sizeLow : 2 ≤ s.cfg.ringSize
  sizeHigh : s.cfg.ringSize ≤ 256
  wrInside : s.wr.toNat < s.cfg.ringSize
  rdInside : s.rd.toNat < s.cfg.ringSize
  canonical : Memory.wf s.ring = true
  inside : ∀ c ∈ s.ring, c.1 < s.cfg.ringSize

/-- The extractor is well formed (R27, R28, R116): the length is at most 17 and the accumulator is 0x00 from it on. -/
structure ExtractorWf (s : State) : Prop where
  lengthAtMost : s.xlen.toNat ≤ 17
  clearBeyond : ∀ i : Fin 16, min s.xlen.toNat 16 ≤ i.val → s.xbuf[i] = 0x00

/-- The phases of a running EVAL (R37). -/
def Phase.isEval : Phase → Bool
  | .qFill | .qDrain | .qWaitNv => true
  | .idle | .xscan | .hscan => false

/-- The controller is well formed: the phase belongs to the latched command (R37, R201), the handshake progress is SEND's (R40),
and the receive hold and the pending transition last exactly as long as the wait for the store (R41, R176, R177). -/
structure ControlWf (s : State) : Prop where
  xscanCommand : s.phase = .xscan → s.cmdOp = 0x04 ∨ s.cmdOp = 0x05
  hscanCommand : s.phase = .hscan → s.cmdOp = 0x07
  evalCommand : s.phase.isEval = true → s.cmdOp = 0x08
  handshake : s.hs = true → s.phase = .hscan
  hold : s.nvBusy = true ↔ s.phase = .qWaitNv
  pending : s.qKind ≠ .none ↔ s.phase = .qWaitNv

/-- A transition that the quest machine may make (R184): Attract to a linear state, a linear state to the next, N to
Complete. -/
def Forward (a b : QState) : Prop :=
  (a = .attract ∧ b ∈ [QState.d, .e, .f, .c, .o, .n]) ∨
  (a ∈ [QState.d, .e, .f, .c, .o] ∧ b = a.succ) ∨
  (a = .n ∧ b = .complete)

/-- The quest machine is well formed: before BOOT it is at reset; bit 7 is never set (R34); the animation pointer is one of D..N
(R33); the state is the flags' (R180), and during the wait for the store the pending one is (R176); a running EVAL works on the
state it latched (R39, R166 to R169). -/
structure QuestWf (s : State) : Prop where
  beforeBoot : s.bootDone = false → s.qflags = 0 ∧ s.gflags = 0 ∧ s.anim = .d ∧ s.phase.isEval = false
  bit7Clear : s.qflags.getLsbD 7 = false
  animLinear : s.anim ∈ [QState.d, .e, .f, .c, .o, .n]
  derived : s.phase ≠ .qWaitNv → s.qstate = derive s.qflags
  latched : s.phase.isEval = true → s.qS = s.qstate
  filling : s.phase = .qFill → s.qS ≠ .complete ∧ s.inValid = false
  draining : s.phase = .qDrain → s.qS ≠ .attract ∧ (s.qS = .complete → s.inValid = false)
  waiting : s.phase = .qWaitNv →
    s.qNext = derive s.qflags ∧ Forward s.qstate s.qNext ∧ s.nvReq = s.qflags.zeroExtend 32 ∧
    (s.qKind = .complete → s.qNext = .complete)

/-- The category bits 1..5 of a flags byte were found in the quest's order: they are bits 1..k for some k (R164 (d), R181). -/
def InOrder (f : Byte) : Prop := ∃ k ≤ 5, ∀ i : Fin 5, f.getLsbD (i.val + 1) = decide (i.val < k)

/-- The outgoing record carries the current flags in byte 6 (R165). -/
def Mirrored (s : State) : Prop := s.outRec[6] = s.qflags

/-- The result registers hold values a command can have written (R44, R97). -/
structure ResultsWf (s : State) : Prop where
  statusAtMost : s.resStatus.toNat ≤ 7
  lengthAtMost : s.resLen.toNat ≤ 18

/-- Two states that differ at most in ring slots that hold no unread byte (R22). -/
structure SameButUnread (s t : State) : Prop where
  registers : t = { s with ring := t.ring }
  unread : fifoBytes t = fifoBytes s

/-- The rows of the category table (R99): a linear state, the badge type it requires, the flag bit an acceptance sets, and the
next state. -/
def categoryTable (c : Config) : List (QState × Byte × Nat × QState) :=
  [(.d, c.badgeCode.speaker, 1, .e), (.e, c.badgeCode.village, 2, .f), (.f, c.badgeCode.contest, 3, .c),
    (.c, c.badgeCode.artist, 4, .o), (.o, c.badgeCode.goon, 5, .n)]

/-- The invariant of the machine. -/
structure Inv (s : State) : Prop where
  config : s.cfg.Legal
  fifo : FifoWf s
  extractor : ExtractorWf s
  control : ControlWf s
  quest : QuestWf s
  mirrored : Mirrored s
  results : ResultsWf s

end Sys2Proof.Machine
end

