-- ==== Sys2Proof/Certificates/Slice0/Obligations.lean ====
section
/-! DEFINITION. The statements for the provers. Each says of every state what a rule of spec/ says of PQC; an equation
`exec i s = .next { s with ... }` gives at once that the instruction answers a next state, what it writes, and that it writes
nothing else (every register, both streams, every ring slot and the environment's inputs are the fields it does not name). -/

open Sys2Proof Sys2Proof.Machine

/-! ### Encoding -/

/-- R80 to R84: encoding a well-formed instruction and decoding it gives it back, for every operand value. -/
def Obligations.DecodeOfEncodeIsIdentity : Prop :=
  ∀ i : Instr, i.wellFormed = true → decode (encode i) = i

/-- R80 to R85: every port value decodes to a well-formed instruction, and encoding that gives the port value back: no bit of a
word, ignored or not, is dropped. -/
def Obligations.EncodeOfDecodeIsIdentity : Prop :=
  ∀ v : PortValue, (decode v).wellFormed = true ∧ encode (decode v) = v

/-- R81, R83: some words written out from the spec's formats decode to what they stand for. Two things here are the model's choice,
and no rule's: that the width says which port a word is on (notes/assumptions/11.md), and that `03_FFFFFE02`, whose bit 8 is
clear, has the magic operand 0, against the example of R141 that gives it 1 (notes/assumptions/17.md). -/
def Obligations.SampleWordsDecode : Prop :=
  decodeTableWord 40 0x01FFFFFFFF = some (.boot 0xFFFFFFFF) ∧
  decodeTableWord 40 0x0212345678 = some (.setUid 0x12345678) ∧
  decodeTableWord 40 0x0300000102 = some (.setType 0x02 1 0) ∧
  decodeTableWord 40 0x03FFFFFE02 = some (.setType 0x02 0 0x7FFFFF) ∧
  decodeTableWord 40 0x0800000000 = some (.eval 0) ∧
  decodeTableWord 40 0xFFFFFFFFFF = some (.illegal 0xFF 0xFFFFFFFF) ∧
  decodeTableWord 8 0x42 = some (.push 0x42) ∧
  decodeTableWord 1 1 = some (.nvDone 1)

/-! ### Commands that run in the ISSUE step -/

/-- R205: NOP finishes OK with length 0 and 18 zero bytes, and does nothing else. -/
def Obligations.NopReportsSuccess : Prop :=
  ∀ (arg : Word32) (s : State), s.phase = .idle →
    exec (.nop arg) s = .next { s with
      cmdOp := 0x00, cmdArg := arg, resStatus := 0x00, resLen := 0, resBuf := Vector.replicate 18 0x00 }

/-- R206: a word with any op 0x09..0xFF finishes ILLEGAL in the ISSUE step, and does nothing else. -/
def Obligations.IllegalOpReportsIllegal : Prop :=
  ∀ (w : CommandWord) (s : State), 0x09 ≤ (opOf w).toNat → s.phase = .idle →
    decode (.command w) = .illegal (opOf w) (argOf w) ∧
    exec (decode (.command w)) s = .next { s with
      cmdOp := opOf w, cmdArg := argOf w, resStatus := 0x07, resLen := 0, resBuf := Vector.replicate 18 0x00 }

/-- R140: SET_UID writes `out_rec[0..3]`, little-endian; the other bytes of `out_rec` and all else stay. -/
def Obligations.SetUidWritesUniqueId : Prop :=
  ∀ (u : Word32) (s : State), s.phase = .idle → ∃ t,
    exec (.setUid u) s = .next t ∧
    outBytes t = #v[u.extractLsb' 0 8, u.extractLsb' 8 8, u.extractLsb' 16 8, u.extractLsb' 24 8, (outBytes s)[4],
      (outBytes s)[5], (outBytes s)[6], 0x00] ∧
    t = { s with
      outRec := t.outRec, cmdOp := 0x02, cmdArg := u, resStatus := 0x00, resLen := 0,
      resBuf := Vector.replicate 18 0x00 }

/-- R141: SET_TYPE writes `out_rec[4]` and `out_rec[5]`; its ignored bits reach `cmd_arg` alone. -/
def Obligations.SetTypeWritesTypeAndMagic : Prop :=
  ∀ (ty : Byte) (m : BitVec 1) (ign : BitVec 23) (s : State), s.phase = .idle → ∃ t,
    exec (.setType ty m ign) s = .next t ∧
    outBytes t = #v[(outBytes s)[0], (outBytes s)[1], (outBytes s)[2], (outBytes s)[3], ty,
      if m = 1 then 0x01 else 0x00, (outBytes s)[6], 0x00] ∧
    t = { s with
      outRec := t.outRec, cmdOp := 0x03, cmdArg := ign ++ (m ++ ty), resStatus := 0x00, resLen := 0,
      resBuf := Vector.replicate 18 0x00 }

/-- R142 with R131 to R133: ENCODE's result is the frame of the outgoing record: the markers around 16 nibble bytes, wire byte
`i` carrying nibble `PERM[i]` of the record, the high nibble of each byte first; nothing else changes. -/
def Obligations.EncodeReturnsOutgoingFrame : Prop :=
  ∀ (arg : Word32) (s : State), s.phase = .idle → ∃ t,
    exec (.encode arg) s = .next t ∧
    t.resBuf[0] = 0x42 ∧ t.resBuf[17] = 0x45 ∧
    (∀ i : Fin 16, t.resBuf[i.val + 1] =
      0xD0 ||| (if s.cfg.perm[i].val % 2 = 0 then (outBytes s)[s.cfg.perm[i].val / 2] >>> 4
        else (outBytes s)[s.cfg.perm[i].val / 2] &&& 0x0F)) ∧
    t = { s with cmdOp := 0x06, cmdArg := arg, resStatus := 0x00, resLen := 18, resBuf := t.resBuf }

/-- R163: the first BOOT restores the quest machine from the word; a second one finishes ALREADY_BOOTED and does nothing else. -/
def Obligations.BootRestoresOnce : Prop :=
  ∀ (u : Word32) (s : State), s.phase = .idle →
    (s.bootDone = true → exec (.boot u) s = .next { s with
      cmdOp := 0x01, cmdArg := u, resStatus := 0x06, resLen := 0, resBuf := Vector.replicate 18 0x00 }) ∧
    (s.bootDone = false →
      let f : Byte := if u = 0xFFFFFFFF then 0x00 else u.extractLsb' 0 8 &&& 0x7F
      let q := derive f
      let code : Byte := q.code.zeroExtend 8
      exec (.boot u) s = .next { s with
        cmdOp := 0x01, cmdArg := u, qflags := f, gflags := 0, anim := .d, qstate := q, outRec := s.outRec.set 6 f,
        bootDone := true, fxOut := s.fxOut ++ (if q = .attract then [] else [0x10 + code]), resStatus := 0x00, resLen := 1,
        resBuf := (Vector.replicate 18 0x00).set 0 code })

/-- R161: the quest state as a function of the flags byte; bit 7 is not read. -/
def Obligations.DeriveCountsCategories : Prop :=
  ∀ f : Byte,
    (f.getLsbD 6 = true → derive f = .complete) ∧
    (f.getLsbD 6 = false → f.getLsbD 0 = false → derive f = .attract) ∧
    (f.getLsbD 6 = false → f.getLsbD 0 = true →
      (derive f).code.toNat = 1 + (f.getLsbD 1).toNat + (f.getLsbD 2).toNat + (f.getLsbD 3).toNat + (f.getLsbD 4).toNat
        + (f.getLsbD 5).toNat)

/-! ### FIFO -/

/-- R111: PUSH drops its byte when the FIFO is full, and otherwise writes it at `wr` and advances `wr` modulo N; every other slot
and every other register stays. -/
def Obligations.PushWritesOrDrops : Prop :=
  ∀ (d : Byte) (s : State), FifoWf s → s.nvBusy = false →
    ((s.wr.toNat + 1) % s.cfg.ringSize = s.rd.toNat → exec (.push d) s = .next s) ∧
    ((s.wr.toNat + 1) % s.cfg.ringSize ≠ s.rd.toNat → ∃ t,
      exec (.push d) s = .next t ∧
      ringRead t.ring s.wr.toNat = d ∧ (∀ a, a ≠ s.wr.toNat → ringRead t.ring a = ringRead s.ring a) ∧
      t.wr.toNat = (s.wr.toNat + 1) % s.cfg.ringSize ∧
      t = { s with ring := t.ring, wr := t.wr })

/-- R61, R113: the FIFO is a queue of at most N-1 bytes: PUSH adds at its end unless it holds N-1, `Pop` takes its first byte
and finds it empty exactly when it holds none. -/
def Obligations.FifoIsAQueue : Prop :=
  ∀ (d : Byte) (s : State), FifoWf s → s.nvBusy = false →
    (fifoBytes s).length ≤ s.cfg.ringSize - 1 ∧
    (∃ t, exec (.push d) s = .next t ∧
      fifoBytes t = if (fifoBytes s).length = s.cfg.ringSize - 1 then fifoBytes s else fifoBytes s ++ [d]) ∧
    (∃ o t, pop s = .next (o, t) ∧ o = (fifoBytes s).head? ∧ fifoBytes t = (fifoBytes s).tail ∧
      t = { s with rd := t.rd })

/-- R61, R70: over any step the unread bytes are the same, or the RX producer has added one at the end, or the controller has
taken the first, or a reset has emptied the FIFO. -/
def Obligations.StepsKeepFifoOrder : Prop :=
  ∀ s t : State, FifoWf s → step s = .next t →
    fifoBytes t = fifoBytes s ∨
    (nextTurn s = .rx ∧ s.nvBusy = false ∧ ∃ d, s.rxIn.head? = some d ∧ fifoBytes t = fifoBytes s ++ [d]) ∨
    (nextTurn s = .controller ∧ fifoBytes s ≠ [] ∧ fifoBytes t = (fifoBytes s).tail) ∨
    (nextTurn s = .reset ∧ fifoBytes t = [])

/-- R22: ring slots that hold no unread byte are unobservable: two states that differ in nothing else step alike, and still
differ in nothing else. -/
def Obligations.UnreadSlotsUnobservable : Prop :=
  ∀ s t : State, Inv s → Inv t → SameButUnread s t →
    ∃ u v, step s = .next u ∧ step t = .next v ∧ SameButUnread u v

/-- R13, R71: the RX producer alone writes `ring` and `wr`, and it writes nothing else (but for its own pending bytes); no agent
writes the parameters. A reset clears the cursor and leaves the ring. -/
def Obligations.SingleWriterPerRegister : Prop :=
  ∀ s t : State, step s = .next t →
    t.cfg = s.cfg ∧
    (nextTurn s ≠ .rx → t.ring = s.ring ∧ (nextTurn s ≠ .reset → t.wr = s.wr)) ∧
    (nextTurn s = .rx → t = { s with ring := t.ring, wr := t.wr, rxIn := t.rxIn, turns := s.turns.rest })

/-! ### Frame hunts -/

/-- R118, R120, R117: TRY_FRAME over noise, a start marker, a payload and an end marker returns exactly that payload after one
ISSUE step and one step per byte, and leaves what follows in the FIFO; the extractor keeps the finished frame (R116). -/
def Obligations.TryFrameReturnsWholeFrame : Prop :=
  ∀ (arg : Word32) (s : State) (noise p rest : List Byte),
    FifoWf s → s.phase = .idle → s.turns = .nil → s.xs = .hunt → (0x42 : Byte) ∉ noise → (0x45 : Byte) ∉ p →
    fifoBytes s = noise ++ 0x42 :: (p ++ 0x45 :: rest) → ∃ u t,
      exec (.tryFrame arg) s = .next u ∧ runSteps (noise.length + p.length + 2) u = .next t ∧
      Carries t.resLen t.resBuf p ∧ fifoBytes t = rest ∧ Holds t ⟨.hunt, p⟩ ∧
      t = { s with
        rd := t.rd, xlen := t.xlen, xbuf := t.xbuf, cmdOp := 0x04, cmdArg := arg, resStatus := 0x00, resLen := t.resLen,
        resBuf := t.resBuf }

/-- R119: a frame cut off by an empty FIFO is resumed: with the payload bytes `q` already consumed, the next TRY_FRAME returns the
whole payload as if the frame had arrived at once, and the extractor keeps it (R116). -/
def Obligations.TryFrameResumesPartialFrame : Prop :=
  ∀ (arg : Word32) (s : State) (q p rest : List Byte),
    FifoWf s → s.phase = .idle → s.turns = .nil → Collected s q → (0x45 : Byte) ∉ p →
    fifoBytes s = p ++ 0x45 :: rest → ∃ u t,
      exec (.tryFrame arg) s = .next u ∧ runSteps (p.length + 1) u = .next t ∧
      Carries t.resLen t.resBuf (q ++ p) ∧ fifoBytes t = rest ∧ Holds t ⟨.hunt, q ++ p⟩ ∧
      t = { s with
        rd := t.rd, xs := .hunt, xlen := t.xlen, xbuf := t.xbuf, cmdOp := 0x04, cmdArg := arg, resStatus := 0x00,
        resLen := t.resLen, resBuf := t.resBuf }

/-- R118, R119: a TRY_FRAME whose FIFO empties inside a frame finishes NO_FRAME and keeps the partial frame, whether an earlier hunt
left it inside the frame, with the bytes `q` consumed, or it opened the frame itself, after noise. -/
def Obligations.TryFrameKeepsPartialFrame : Prop :=
  ∀ (arg : Word32) (s : State) (q p : List Byte),
    FifoWf s → s.phase = .idle → s.turns = .nil → (0x45 : Byte) ∉ p →
    (Collected s q ∧ fifoBytes s = p) ∨
      (s.xs = .hunt ∧ q = [] ∧ ∃ noise, (0x42 : Byte) ∉ noise ∧ fifoBytes s = noise ++ 0x42 :: p) → ∃ u t,
      exec (.tryFrame arg) s = .next u ∧ runSteps ((fifoBytes s).length + 1) u = .next t ∧
      Collected t (q ++ p) ∧ fifoBytes t = [] ∧
      t = { s with
        rd := t.rd, xs := .collect, xlen := t.xlen, xbuf := t.xbuf, cmdOp := 0x04, cmdArg := arg, resStatus := 0x01,
        resLen := 0, resBuf := Vector.replicate 18 0x00 }

/-- R118, R120: a TRY_FRAME that finds only noise finishes NO_FRAME, with the noise consumed and the extractor as it was. -/
def Obligations.TryFrameSkipsNoise : Prop :=
  ∀ (arg : Word32) (s : State),
    FifoWf s → s.phase = .idle → s.turns = .nil → s.xs = .hunt → (0x42 : Byte) ∉ fifoBytes s → ∃ u t,
      exec (.tryFrame arg) s = .next u ∧ runSteps ((fifoBytes s).length + 1) u = .next t ∧ fifoBytes t = [] ∧
      t = { s with
        rd := t.rd, cmdOp := 0x04, cmdArg := arg, resStatus := 0x01, resLen := 0, resBuf := Vector.replicate 18 0x00 }

/-- R201, R202: TRY_FRAME, and RECV with an empty mailbox, are accepted in every idle state; the ISSUE step takes no byte. -/
def Obligations.FrameHuntsStartWithoutPop : Prop :=
  ∀ (arg : Word32) (s : State), s.phase = .idle →
    exec (.tryFrame arg) s = .next { s with cmdOp := 0x04, cmdArg := arg, phase := .xscan } ∧
    (s.inValid = false → exec (.recv arg) s = .next { s with cmdOp := 0x05, cmdArg := arg, phase := .xscan })

/-- R144, R145 (c): RECV with a record in the mailbox finishes MBOX_FULL in the ISSUE step and consumes nothing. -/
def Obligations.RecvKeepsFullMailbox : Prop :=
  ∀ (arg : Word32) (s : State), s.phase = .idle → s.inValid = true →
    exec (.recv arg) s = .next { s with
      cmdOp := 0x05, cmdArg := arg, resStatus := 0x04, resLen := 0, resBuf := Vector.replicate 18 0x00 }

/-- R144, R136: RECV decodes the first frame into the mailbox if its payload is 16 bytes, each record byte from the low nibbles of
two payload bytes, high nibble first and with no permutation undone; a frame that an earlier hunt left unfinished is resumed
(R145 (d)). -/
def Obligations.RecvDecodesIntoMailbox : Prop :=
  ∀ (arg : Word32) (s : State) (e : Progress) (p rest : List Byte),
    FifoWf s → s.phase = .idle → s.turns = .nil → s.inValid = false → Stands s e →
    nextFrame anyLength e (fifoBytes s) = some (p, rest) → p.length = 16 → ∃ u t,
      exec (.recv arg) s = .next u ∧ runSteps ((fifoBytes s).length - rest.length) u = .next t ∧ Decodes p t.inRec ∧
      (∀ i : Fin 18, t.resBuf[i] = if h : i.val < 8 then t.inRec[i.val] else 0x00) ∧ fifoBytes t = rest ∧
      Holds t ⟨.hunt, p⟩ ∧
      t = { s with
        rd := t.rd, xs := .hunt, xlen := t.xlen, xbuf := t.xbuf, inRec := t.inRec, inValid := true, cmdOp := 0x05,
        cmdArg := arg, resStatus := 0x00, resLen := 8, resBuf := t.resBuf }

/-- R144, R145 (a), (d): a first frame whose payload is not 16 bytes is consumed and reported LEN_ERR with its saturated length; if
the FIFO empties before a frame ends, RECV finishes NO_FRAME and the extractor keeps what was consumed. The mailbox stays
empty. -/
def Obligations.RecvReportsFailure : Prop :=
  ∀ (arg : Word32) (s : State) (e : Progress),
    FifoWf s → s.phase = .idle → s.turns = .nil → s.inValid = false → Stands s e →
    (∀ p rest, nextFrame anyLength e (fifoBytes s) = some (p, rest) → p.length ≠ 16 → ∃ u t,
      exec (.recv arg) s = .next u ∧ runSteps ((fifoBytes s).length - rest.length) u = .next t ∧
      Carries t.resLen t.resBuf p ∧ fifoBytes t = rest ∧ Holds t ⟨.hunt, p⟩ ∧
      t = { s with
        rd := t.rd, xs := .hunt, xlen := t.xlen, xbuf := t.xbuf, cmdOp := 0x05, cmdArg := arg, resStatus := 0x02,
        resLen := t.resLen, resBuf := t.resBuf }) ∧
    (nextFrame anyLength e (fifoBytes s) = none → ∃ u t,
      exec (.recv arg) s = .next u ∧ runSteps ((fifoBytes s).length + 1) u = .next t ∧ fifoBytes t = [] ∧
      Follows s t (fifoBytes s) ∧
      t = { s with
        rd := t.rd, xs := t.xs, xlen := t.xlen, xbuf := t.xbuf, cmdOp := 0x05, cmdArg := arg, resStatus := 0x01,
        resLen := 0, resBuf := Vector.replicate 18 0x00 })

/-- R146, R148: SEND ends after at most one step per unread byte and one more. If the unread bytes hold `'R'` and later `'O'`, it
finishes OK, appends the outgoing frame to `tx_out`, and leaves in the FIFO what follows the first `'O'` after the first `'R'`;
otherwise it finishes NO_HANDSHAKE with the FIFO empty and nothing sent. The extractor is not fed. -/
def Obligations.SendNeedsHandshakeSubsequence : Prop :=
  ∀ (arg : Word32) (s : State), FifoWf s → s.phase = .idle → s.turns = .nil → ∃ u n t,
    exec (.send arg) s = .next u ∧ u = { s with cmdOp := 0x07, cmdArg := arg, phase := .hscan, hs := false } ∧
    n ≤ (fifoBytes s).length + 1 ∧ runSteps n u = .next t ∧
    (List.Sublist [0x52, 0x4F] (fifoBytes s) →
      (∀ pre mid rest, (0x52 : Byte) ∉ pre → (0x4F : Byte) ∉ mid →
        fifoBytes s = pre ++ 0x52 :: (mid ++ 0x4F :: rest) → n = pre.length + mid.length + 2 ∧ fifoBytes t = rest) ∧
      t = { s with
        rd := t.rd, cmdOp := 0x07, cmdArg := arg, hs := false,
        txOut := s.txOut ++ (encodeFrame s.cfg (outBytes s)).toList, resStatus := 0x00, resLen := 18,
        resBuf := encodeFrame s.cfg (outBytes s) }) ∧
    (¬ List.Sublist [0x52, 0x4F] (fifoBytes s) → fifoBytes t = [] ∧
      t = { s with
        rd := t.rd, cmdOp := 0x07, cmdArg := arg, hs := false, resStatus := 0x03, resLen := 0,
        resBuf := Vector.replicate 18 0x00 })

/-- R147: `tx_out` grows only in the controller's step that completes a SEND's handshake, the one that takes `'O'` after `'R'`, and
then by the 18 bytes of the frame at once. -/
def Obligations.OnlySendTransmits : Prop :=
  ∀ s t : State, step s = .next t → nextTurn s ≠ .reset →
    t.txOut = s.txOut ∨
    (nextTurn s = .controller ∧ s.phase = .hscan ∧ s.hs = true ∧ (∃ u, pop s = .next (some 0x4F, u)) ∧ t.phase = .idle ∧
      t.txOut = s.txOut ++ (encodeFrame s.cfg (outBytes s)).toList)

/-! ### Codec -/

/-- R138 law 1: undoing the permutation on the payload of an encoded record and decoding gives the record back, for every legal
`PERM`. -/
def Obligations.UnpermutedFrameDecodes : Prop :=
  ∀ (c : Config) (r : RecordBytes) (e : PayloadBytes), c.Legal →
    (∀ i : Fin 16, e[c.perm[i]] = (encodeFrame c r)[i.val + 1]) → decodeRecord { len := 16, payload := e } = some r

/-- R134: encoding is injective, and every payload byte of a frame lies in 0xD0..0xDF. -/
def Obligations.EncodeIsInjective : Prop :=
  ∀ c : Config, c.Legal →
    (∀ r r' : RecordBytes, encodeFrame c r = encodeFrame c r' → r = r') ∧
    (∀ (r : RecordBytes) (i : Fin 16), 0xD0 ≤ ((encodeFrame c r)[i.val + 1]).toNat ∧ ((encodeFrame c r)[i.val + 1]).toNat ≤ 0xDF)

/-- R138 law 2, for the default `PERM`: decoding a frame as it was sent gives the record back exactly when each even byte is the
nibble swap of the odd byte after it. -/
def Obligations.RawDecodeIsAsymmetric : Prop :=
  ∀ (r : RecordBytes) (w : PayloadBytes),
    (∀ i : Fin 16, w[i] = (encodeFrame Config.standard r)[i.val + 1]) →
    (decodeRecord { len := 16, payload := w } = some r ↔
      ∀ k : Fin 4, r[2 * k.val] = (r[2 * k.val + 1].extractLsb' 0 4 ++ r[2 * k.val + 1].extractLsb' 4 4 : BitVec 8))

/-- R136, R139: decode fails exactly on a length other than 16, and depends on no high nibble. -/
def Obligations.DecodeIgnoresHighNibbles : Prop :=
  ∀ f g : Frame, (decodeRecord f = none ↔ f.len ≠ 16) ∧
    (f.len = g.len → (∀ i : Fin 16, f.payload[i] &&& 0x0F = g.payload[i] &&& 0x0F) → decodeRecord f = decodeRecord g)

/-! ### Quest machine -/

/-- R166: EVAL before BOOT finishes NOT_BOOTED in the ISSUE step, and does nothing else. -/
def Obligations.EvalBeforeBootRefuses : Prop :=
  ∀ (arg : Word32) (s : State), s.phase = .idle → s.bootDone = false →
    exec (.eval arg) s = .next { s with
      cmdOp := 0x08, cmdArg := arg, resStatus := 0x05, resLen := 0, resBuf := Vector.replicate 18 0x00 }

/-- R166 to R168, R202: EVAL's ISSUE step latches the state and runs to the first `Pop()`: Complete empties the mailbox and drains;
an empty mailbox is filled first; a full one goes straight to the drain, or, in Attract, to the first-contact transition. -/
def Obligations.EvalStartsCycle : Prop :=
  ∀ (arg : Word32) (s : State), s.phase = .idle → s.bootDone = true →
    (s.qstate = .complete → exec (.eval arg) s = .next { s with
      cmdOp := 0x08, cmdArg := arg, qS := .complete, inValid := false, phase := .qDrain }) ∧
    (s.qstate ≠ .complete → s.inValid = false → exec (.eval arg) s = .next { s with
      cmdOp := 0x08, cmdArg := arg, qS := s.qstate, phase := .qFill }) ∧
    (s.qstate ≠ .complete → s.qstate ≠ .attract → s.inValid = true → exec (.eval arg) s = .next { s with
      cmdOp := 0x08, cmdArg := arg, qS := s.qstate, phase := .qDrain }) ∧
    (s.qstate = .attract → s.inValid = true → exec (.eval arg) s = .next { s with
      cmdOp := 0x08, cmdArg := arg, qS := .attract, inValid := false, qflags := s.qflags ||| 0x01,
      qNext := derive (s.qflags ||| 0x01), qKind := .first, outRec := s.outRec.set 6 (s.qflags ||| 0x01),
      nvReq := (s.qflags ||| 0x01).zeroExtend 32, nvBusy := true, phase := .qWaitNv })

/-- R171, idle part: an EVAL in Attract with nothing received emits DISPLAY of the pointer's state, advances the pointer
D→E→F→C→O→N→D, and finishes OK. -/
def Obligations.AttractCyclesAnimation : Prop :=
  ∀ (arg : Word32) (s : State), Inv s → s.phase = .idle → s.turns = .nil → s.bootDone = true → s.qstate = .attract →
    s.inValid = false → fifoBytes s = [] → ∃ u a,
      exec (.eval arg) s = .next u ∧
      (s.anim, a) ∈ [(QState.d, QState.e), (.e, .f), (.f, .c), (.c, .o), (.o, .n), (.n, .d)] ∧
      runSteps 1 u = .next { s with
        cmdOp := 0x08, cmdArg := arg, qS := .attract, anim := a, fxOut := s.fxOut ++ [0x10 + s.anim.code.zeroExtend 8],
        resStatus := 0x00, resLen := 1, resBuf := Vector.replicate 18 0x00 }

/-- R171, first contact: an EVAL in Attract acts on the first frame that decodes, whatever it carries and whatever frames of wrong
length stand before it: bit 0 is set and persisted, and the FIFO behind the frame is left. -/
def Obligations.AttractTakesFirstContact : Prop :=
  ∀ (arg : Word32) (s : State) (e : Progress) (p rest : List Byte),
    FifoWf s → s.phase = .idle → s.turns = .nil → s.bootDone = true → s.qstate = .attract → s.inValid = false →
    Stands s e → nextFrame decodable e (fifoBytes s) = some (p, rest) → ∃ u t,
      exec (.eval arg) s = .next u ∧ runSteps ((fifoBytes s).length - rest.length) u = .next t ∧
      p.length = 16 ∧ Decodes p t.inRec ∧ fifoBytes t = rest ∧ Holds t ⟨.hunt, p⟩ ∧
      t = { s with
        rd := t.rd, xs := .hunt, xlen := t.xlen, xbuf := t.xbuf, inRec := t.inRec, cmdOp := 0x08, cmdArg := arg,
        qS := .attract, qflags := s.qflags ||| 0x01, qNext := derive (s.qflags ||| 0x01), qKind := .first,
        outRec := s.outRec.set 6 (s.qflags ||| 0x01), nvReq := (s.qflags ||| 0x01).zeroExtend 32, nvBusy := true,
        phase := .qWaitNv }

/-- R172, R173, R176: the evaluation in a linear state, in the step that finds the drain done: a magic packet of the required type
whose category bit is clear sets the bit and requests its storing; any other packet, or none, changes nothing. -/
def Obligations.LinearStateDecides : Prop :=
  ∀ (s : State) (q : QState) (ty : Byte) (bit : Nat) (q' : QState),
    s.phase = .qDrain → s.rd = s.wr → s.qS = q → (q, ty, bit, q') ∈ categoryTable s.cfg →
    (s.inValid = true ∧ s.inRec[5] ≠ 0x00 ∧ s.inRec[4] = ty ∧ s.qflags.getLsbD bit = false →
      controllerStep s = .next { s with
        inValid := false, qflags := s.qflags ||| ((1 : Byte) <<< bit), qNext := q', qKind := .accept,
        outRec := s.outRec.set 6 (s.qflags ||| ((1 : Byte) <<< bit)),
        nvReq := (s.qflags ||| ((1 : Byte) <<< bit)).zeroExtend 32, nvBusy := true, phase := .qWaitNv }) ∧
    (¬(s.inValid = true ∧ s.inRec[5] ≠ 0x00 ∧ s.inRec[4] = ty ∧ s.qflags.getLsbD bit = false) →
      controllerStep s = .next { s with
        inValid := false, phase := .idle, resStatus := 0x00, resLen := 1,
        resBuf := (Vector.replicate 18 0x00).set 0 (q.code.zeroExtend 8) })

/-- R174, R175: the evaluation in N: the packet's bucket is collected, magic or not; the sixth sets bit 6 and requests its storing;
otherwise the cycle finishes OK with no effect. -/
def Obligations.GroupQuestCollects : Prop :=
  ∀ s : State, s.phase = .qDrain → s.rd = s.wr → s.qS = .n →
    let fin (gf : BitVec 6) : State := { s with
      inValid := false, gflags := gf, phase := .idle, resStatus := 0x00, resLen := 1,
      resBuf := (Vector.replicate 18 0x00).set 0 (0x06 : Byte) }
    (s.inValid = false → controllerStep s = .next (fin s.gflags)) ∧
    (s.inValid = true → s.cfg.groupOf.lookup s.inRec[4] = none → controllerStep s = .next (fin s.gflags)) ∧
    (∀ g : Fin 6, s.inValid = true → s.cfg.groupOf.lookup s.inRec[4] = some g →
      let gf := s.gflags ||| ((1 : BitVec 6) <<< g.val)
      (gf ≠ 0b111111 → controllerStep s = .next (fin gf)) ∧
      (gf = 0b111111 → controllerStep s = .next { s with
        inValid := false, gflags := gf, qflags := s.qflags ||| 0x40, qNext := .complete, qKind := .complete,
        outRec := s.outRec.set 6 (s.qflags ||| 0x40), nvReq := (s.qflags ||| 0x40).zeroExtend 32, nvBusy := true,
        phase := .qWaitNv }))

/-- R177, R178: NV_DONE lifts the hold and emits, in this order, ERROR(1,1) on a failure, DISPLAY of the new state, and the tone of
the transition; the state moves in the same step and the EVAL finishes OK. -/
def Obligations.NvDoneFinishesTransition : Prop :=
  ∀ (k : BitVec 1) (s : State), s.phase = .qWaitNv →
    let failure : List Byte := if k = 0 then [0x33] else []
    let shown : List Byte := match s.qKind with
      | .none => []
      | .first => [0x10 + s.qNext.code.zeroExtend 8]
      | .accept => [0x10 + s.qNext.code.zeroExtend 8, 0x20]
      | .complete => [0x17, 0x21]
    exec (.nvDone k) s = .next { s with
      nvBusy := false, fxOut := s.fxOut ++ failure ++ shown, qstate := s.qNext, qKind := .none, phase := .idle,
      resStatus := 0x00, resLen := 1,
      resBuf := (Vector.replicate 18 0x00).set 0 (s.qNext.code.zeroExtend 8) }

/-- R166 to R177 together, the end-to-end property of J0 §8 for every category: a booted badge in a linear state that receives one
magic frame of the required type, and whose store answers, moves to the next state with the category's bit set, stored and
carried by the outgoing record. -/
def Obligations.RequiredBadgeAdvancesState : Prop :=
  ∀ (arg : Word32) (s : State) (q : QState) (ty : Byte) (bit : Nat) (q' : QState) (uid : Word32) (fl : Byte) (k : BitVec 1),
    Inv s → s.phase = .idle → s.turns = .nil → s.bootDone = true → s.inValid = false → s.xs = .hunt →
    s.qstate = q → (q, ty, bit, q') ∈ categoryTable s.cfg → s.qflags.getLsbD bit = false →
    fifoBytes s = (rxFrameBytes uid ty 1 fl).toList → ∃ u v t,
      exec (.eval arg) s = .next u ∧ runSteps 19 u = .next v ∧ exec (.nvDone k) v = .next t ∧
      v.phase = .qWaitNv ∧ v.qstate = q ∧ v.fxOut = s.fxOut ∧ v.nvReq = (s.qflags ||| ((1 : Byte) <<< bit)).zeroExtend 32 ∧
      t.phase = .idle ∧ t.qstate = q' ∧ t.qflags = s.qflags ||| ((1 : Byte) <<< bit) ∧ (outBytes t)[6] = t.qflags ∧
      t.fxOut = s.fxOut ++ (if k = 0 then [0x33] else []) ++ [0x10 + q'.code.zeroExtend 8, 0x20] ∧
      t.resStatus = 0x00 ∧ fifoBytes t = []

/-- R168: one step of the fill, whichever the state: a byte that ends no frame of 16 payload bytes is consumed by the extractor alone,
a frame of wrong length being discarded so; the byte that ends one puts the decoded record in the mailbox, and the drain follows,
or in Attract the first-contact transition; an empty FIFO ends the fill with the mailbox empty, and the drain follows, or in
Attract one tick of the animation. That the phase changes in the same step is R166 with R114 and R202 as
notes/assumptions/16.md reads them. -/
def Obligations.FillTakesFirstDecodableFrame : Prop :=
  ∀ (s : State) (e : Progress), FifoWf s → s.phase = .qFill → s.inValid = false → Stands s e →
    (∀ b rest, fifoBytes s = b :: rest → ∃ t, controllerStep s = .next t ∧ fifoBytes t = rest ∧
      (¬(e.sync = .collect ∧ b = 0x45 ∧ e.payload.length = 16) →
        Follows s t [b] ∧ t = { s with rd := t.rd, xs := t.xs, xlen := t.xlen, xbuf := t.xbuf }) ∧
      (e.sync = .collect → b = 0x45 → e.payload.length = 16 → Decodes e.payload t.inRec ∧
        (s.qS ≠ .attract →
          t = { s with rd := t.rd, xs := .hunt, inRec := t.inRec, inValid := true, phase := .qDrain }) ∧
        (s.qS = .attract → t = { s with
          rd := t.rd, xs := .hunt, inRec := t.inRec, qflags := s.qflags ||| 0x01, qNext := derive (s.qflags ||| 0x01),
          qKind := .first, outRec := s.outRec.set 6 (s.qflags ||| 0x01), nvReq := (s.qflags ||| 0x01).zeroExtend 32,
          nvBusy := true, phase := .qWaitNv }))) ∧
    (fifoBytes s = [] →
      (s.qS ≠ .attract → controllerStep s = .next { s with phase := .qDrain }) ∧
      (∀ a, s.qS = .attract →
        (s.anim, a) ∈ [(QState.d, QState.e), (.e, .f), (.f, .c), (.c, .o), (.o, .n), (.n, .d)] →
        controllerStep s = .next { s with
          anim := a, fxOut := s.fxOut ++ [0x10 + s.anim.code.zeroExtend 8], phase := .idle, resStatus := 0x00, resLen := 1,
          resBuf := Vector.replicate 18 0x00 }))

/-- R167: an EVAL in Complete empties the mailbox, drains and discards every unread byte, emits one DISPLAY(Complete) and
finishes OK; flags, group flags and state stay. A partial frame is kept (R119, R169). -/
def Obligations.CompleteDrainsAndDiscards : Prop :=
  ∀ (arg : Word32) (s : State), FifoWf s → s.phase = .idle → s.turns = .nil → s.bootDone = true → s.qstate = .complete →
    ∃ u t, exec (.eval arg) s = .next u ∧ runSteps ((fifoBytes s).length + 1) u = .next t ∧ fifoBytes t = [] ∧
      Follows s t (fifoBytes s) ∧
      t = { s with
        rd := t.rd, xs := t.xs, xlen := t.xlen, xbuf := t.xbuf, inValid := false, cmdOp := 0x08, cmdArg := arg,
        qS := .complete, fxOut := s.fxOut ++ [0x17], resStatus := 0x00, resLen := 1,
        resBuf := (Vector.replicate 18 0x00).set 0 (0x07 : Byte) }

/-- R169, R266: a drain that no PUSH interrupts consumes every unread byte before the cycle is evaluated, and keeps a partial
frame (R119). -/
def Obligations.DrainEmptiesFifo : Prop :=
  ∀ s : State, FifoWf s → s.phase = .qDrain → s.turns = .nil → ∃ t u,
    runSteps (fifoBytes s).length s = .next t ∧ fifoBytes t = [] ∧ t.phase = .qDrain ∧
    Follows s t (fifoBytes s) ∧ t = { s with rd := t.rd, xs := t.xs, xlen := t.xlen, xbuf := t.xbuf } ∧
    controllerStep t = .next u ∧ u.phase ≠ .qDrain

/-- R178: no effect of a transition is emitted before the store has answered: a step that ends in the wait for the store emits
nothing. -/
def Obligations.NoEffectBeforeStoreAnswers : Prop :=
  ∀ s t : State, step s = .next t → t.phase = .qWaitNv → t.fxOut = s.fxOut

/-- R183: in Complete, no step but a reset changes the flags or the state. -/
def Obligations.CompleteIsTerminal : Prop :=
  ∀ s t : State, Inv s → s.qstate = .complete → step s = .next t → nextTurn s ≠ .reset →
    t.qstate = .complete ∧ t.qflags = s.qflags

/-- R184: after BOOT every step but a reset leaves the quest state or moves it forward by one transition. -/
def Obligations.StateOnlyMovesForward : Prop :=
  ∀ s t : State, Inv s → s.bootDone = true → step s = .next t → nextTurn s ≠ .reset →
    t.qstate = s.qstate ∨ Forward s.qstate t.qstate

/-- R34, R179: after BOOT a step but a reset clears no quest flag and sets at most one. -/
def Obligations.FlagsOnlySetOneAtATime : Prop :=
  ∀ s t : State, Inv s → s.bootDone = true → step s = .next t → nextTurn s ≠ .reset →
    t.qflags = s.qflags ∨ ∃ i, i < 7 ∧ t.qflags = s.qflags ||| ((1 : Byte) <<< i)

/-- R181, R270: a linear state whose own category bit is set is never left; but that comes only of flags that were not found in
the quest's order, and flags found in order stay so. -/
def Obligations.StuckOnlyFromUnorderedFlags : Prop :=
  ∀ s t : State, Inv s → s.bootDone = true → step s = .next t → nextTurn s ≠ .reset →
    let linear : Prop := s.qstate ∈ [QState.d, .e, .f, .c, .o]
    (s.phase ≠ .qWaitNv → linear → s.qflags.getLsbD s.qstate.code.toNat = true →
      t.phase ≠ .qWaitNv ∧ t.qstate = s.qstate ∧ t.qflags = s.qflags) ∧
    (InOrder s.qflags → InOrder t.qflags) ∧
    (InOrder s.qflags → s.phase ≠ .qWaitNv → linear → s.qflags.getLsbD s.qstate.code.toNat = false)

/-! ### Invariants of every step -/

/-- R51, R250: the invariant holds at reset. -/
def Obligations.ResetMeetsInvariant : Prop := Inv State.reset

/-- Every part of the invariant together, over every step. -/
def Obligations.StepsKeepInvariant : Prop :=
  ∀ s t : State, Inv s → step s = .next t → Inv t

/-- R22 to R25: the cursors stay inside the ring and the ring's memory keeps its canonical form. -/
def Obligations.StepsKeepFifoWellFormed : Prop :=
  ∀ s t : State, FifoWf s → step s = .next t → FifoWf t

/-- R116, R27, R28: the length saturates at 17 and the accumulator is zero beyond it. -/
def Obligations.StepsKeepExtractorWellFormed : Prop :=
  ∀ s t : State, ExtractorWf s → step s = .next t → ExtractorWf t

/-- R165: the outgoing record keeps carrying the current flags. -/
def Obligations.StepsKeepFlagsMirrored : Prop :=
  ∀ s t : State, Mirrored s → step s = .next t → Mirrored t

/-- R180: with no transition pending the quest state is the flags' state, over every step. -/
def Obligations.StepsKeepStateDerived : Prop :=
  ∀ s t : State, ControlWf s → QuestWf s → step s = .next t →
    ControlWf t ∧ QuestWf t ∧ (t.phase ≠ .qWaitNv → t.qstate = derive t.qflags)

/-- R220: in every state that meets the invariant the machine has a next state: no command and no port event stops it. -/
def Obligations.NothingStopsTheMachine : Prop :=
  ∀ s : State, Inv s → ∃ t, step s = .next t

/-- R264, R121: if the turns listed end, every running command reaches its `finish` or its wait for the store, within one step per
turn listed, one per byte unread or still pushed, and two more. If the RX producer pushes for ever, before every `Pop`, a byte
that completes nothing the loop looks for, the loop never ends, whichever of the five it is. -/
def Obligations.HuntsEndUnlessFedForever : Prop :=
  (∀ s : State, Inv s → s.turns.cycle = [] → ∃ n t,
    n ≤ s.turns.once.length + s.turns.once.count .rx + (fifoBytes s).length + 2 ∧ runSteps n s = .next t ∧
    (t.phase = .idle ∨ t.phase = .qWaitNv)) ∧
  (∀ (s : State) (b : Byte) (n : Nat), Inv s → fifoBytes s = [] → Fruitless b s →
    s.turns = ⟨[], [.rx, .controller]⟩ → s.rxIn = ⟨[], [b]⟩ → ∃ t, runSteps n s = .next t ∧ t.phase = s.phase)

/-! ### Steps, holds, results, reset -/

/-- R201, R111, R177: a step whose turn is an agent's with a pending input and no hold runs the decoded instruction, with the turn
and the input used up; with no turn left, the controller steps. -/
def Obligations.StepRunsDecodedInput : Prop :=
  ∀ s : State,
    (∀ w, nextTurn s = .host → s.hostIn.head? = some w → s.phase = .idle →
      step s = exec (decode (.command w)) { s with turns := s.turns.rest, hostIn := s.hostIn.rest }) ∧
    (∀ d, nextTurn s = .rx → s.rxIn.head? = some d → s.nvBusy = false →
      step s = exec (decode (.rx d)) { s with turns := s.turns.rest, rxIn := s.rxIn.rest }) ∧
    (∀ k, nextTurn s = .nv → s.nvIn.head? = some k → s.phase = .qWaitNv →
      step s = exec (decode (.nv k)) { s with turns := s.turns.rest, nvIn := s.nvIn.rest }) ∧
    (nextTurn s = .controller → step s = controllerStep { s with turns := s.turns.rest }) ∧
    (s.turns = .nil → step s = controllerStep s)

/-- A word placed for the next step is decoded and run by it, whatever else is pending. -/
def Obligations.PlacedWordRuns : Prop :=
  ∀ (s : State) (w : Nat),
    (s.phase = .idle → step (s.withFetchWord 40 w) = exec (decode (.command (BitVec.ofNat 40 w))) s) ∧
    (s.nvBusy = false → step (s.withFetchWord 8 w) = exec (decode (.rx (BitVec.ofNat 8 w))) s) ∧
    (s.phase = .qWaitNv → step (s.withFetchWord 1 w) = exec (decode (.nv (BitVec.ofNat 1 w))) s)

/-- R260, R201, R112, R177: the host waits while `busy` = 1, the RX producer while `nv_busy` = 1, the store while nothing is asked of
it: their turns pass and their inputs stay; asked for directly, none of their instructions has a step. -/
def Obligations.HeldAgentsWait : Prop :=
  ∀ s : State,
    (s.phase ≠ .idle → (nextTurn s = .host → step s = .next { s with turns := s.turns.rest }) ∧
      ∀ w, exec (decode (.command w)) s = .refused .issueWhileBusy) ∧
    (s.nvBusy = true → (nextTurn s = .rx → step s = .next { s with turns := s.turns.rest }) ∧
      ∀ d, exec (.push d) s = .refused .pushWhileHeld) ∧
    (s.phase ≠ .qWaitNv → (nextTurn s = .nv → step s = .next { s with turns := s.turns.rest }) ∧
      ∀ k, exec (.nvDone k) s = .refused .nvDoneWithoutRequest)

/-- R262: with no answer from the store, EVAL waits for ever: over any number of steps nothing changes but the turns used up. -/
def Obligations.SilentStoreHoldsForever : Prop :=
  ∀ (s : State) (n : Nat), s.phase = .qWaitNv → s.nvBusy = true → s.nvIn = .nil → .reset ∉ s.turns.once →
    .reset ∉ s.turns.cycle → runSteps n s = .next { s with turns := Supply.rest^[n] s.turns }

/-- R204, R261: the result registers change only in a step that ends with no command running. -/
def Obligations.ResultsChangeOnlyAtFinish : Prop :=
  ∀ s t : State, step s = .next t → t.phase ≠ .idle →
    t.resStatus = s.resStatus ∧ t.resLen = s.resLen ∧ t.resBuf = s.resBuf

/-- R250, R252: the reset event sets every register to its reset value, whatever ran; the ring keeps its bytes; a request in flight
loses its answer (the environment's side of it is the model's: notes/assumptions/7.md). -/
def Obligations.ResetClearsRegisters : Prop :=
  ∀ s : State, nextTurn s = .reset →
    step s = .next
      { cfg := s.cfg, ring := s.ring, wr := 0, rd := 0, xs := .hunt, xlen := 0, xbuf := Vector.replicate 16 0x00,
        outRec := Vector.replicate 7 0x00, inRec := Vector.replicate 8 0x00, inValid := false, qstate := .attract,
        anim := .d, qflags := 0x00, bootDone := false, gflags := 0, phase := .idle, cmdOp := 0x00, cmdArg := 0,
        qS := .attract, qNext := .attract, qKind := .none, hs := false, nvBusy := false, nvReq := 0, resStatus := 0x00,
        resLen := 0, resBuf := Vector.replicate 18 0x00, txOut := [], fxOut := [], hostIn := s.hostIn, rxIn := s.rxIn,
        nvIn := if s.nvBusy then s.nvIn.rest else s.nvIn, turns := s.turns.rest }

/-- R48, R49: the CSR window reads each listed register in its bits, and 0x00 at every other index; after reset, QSTATE reads 0x08
(`anim` is D) and every other CSR 0x00. -/
def Obligations.CsrWindowReadsRegisters : Prop :=
  ∀ s : State,
    (∀ i, (csrRead s 0x00).getLsbD i =
      ([s.phase != .idle, s.bootDone, s.inValid, s.xs == .collect, s.hs, s.nvBusy].getD i false)) ∧
    csrRead s 0x01 = BitVec.ofNat 8 (level s) ∧
    csrRead s 0x02 = (0 : BitVec 2) ++ (s.anim.code ++ s.qstate.code) ∧
    csrRead s 0x03 = s.qflags ∧
    csrRead s 0x04 = (0 : BitVec 2) ++ s.gflags ∧
    csrRead s 0x05 = s.resStatus ∧
    csrRead s 0x06 = (0 : BitVec 3) ++ s.resLen ∧
    csrRead s 0x07 = (0 : BitVec 3) ++ s.xlen ∧
    (∀ i : Fin 8, csrRead s (BitVec.ofNat 8 (0x08 + i.val)) = (outBytes s)[i]) ∧
    (∀ i : Fin 8, csrRead s (BitVec.ofNat 8 (0x10 + i.val)) = s.inRec[i]) ∧
    (∀ i : Fin 18, csrRead s (BitVec.ofNat 8 (0x18 + i.val)) = s.resBuf[i]) ∧
    csrRead s 0x2A = s.rd ∧
    csrRead s 0x2B = s.wr ∧
    csrRead s 0x2C = s.nvReq.extractLsb' 0 8 ∧
    (csrRead s 0x2D).toNat = [Phase.idle, .xscan, .hscan, .qFill, .qDrain, .qWaitNv].idxOf s.phase ∧
    csrRead s 0x2E = s.cmdOp ∧
    (∀ i : Byte, 0x2F ≤ i.toNat → csrRead s i = 0x00) ∧
    (∀ i : Byte, csrRead State.reset i = if i = 0x02 then 0x08 else 0x00)
end

