-- ==== Sys2Proof/Laws/Memory.lean ====
section
/-! SUPPORT. The laws of ring memory: a read after a write, and that a write keeps the canonical form and the index range. -/

namespace Sys2Proof.Machine

@[simp] theorem ringRead_nil (a : Nat) : ringRead [] a = unwrittenSlot := rfl

theorem ringRead_cons (b : Nat) (v : Byte) (m : List Host.Cell) (a : Nat) :
    ringRead ((b, v) :: m) a = if a = b then v else ringRead m a := rfl

/-- Below everything listed, a slot reads as an unlisted one. -/
theorem ringRead_of_above : ∀ {m : List Host.Cell} {a : Nat}, Memory.wf m = true → Memory.above a m = true →
    ringRead m a = unwrittenSlot
  | [], _, _, _ => rfl
  | (b, v) :: m, a, hw, ha => by
    have hab : a < b := by simpa [Memory.above] using ha
    simp only [Memory.wf, Bool.and_eq_true] at hw
    rw [ringRead_cons, if_neg (by omega)]
    refine ringRead_of_above hw.2 ?_
    cases m with
    | nil => rfl
    | cons c m =>
      have hbc : b < c.1 := by simpa [Memory.above] using hw.1.2
      simpa [Memory.above] using Nat.lt_trans hab hbc

/-- A cell in front reads at its address as its value and leaves other addresses alone, listed or not. -/
theorem ringRead_consCell {m : List Host.Cell} {b : Nat} {v : Byte} (hw : Memory.wf m = true)
    (hb : Memory.above b m = true) (a : Nat) :
    ringRead (consCell b v m) a = if a = b then v else ringRead m a := by
  unfold consCell
  split_ifs with hv hab
  · rw [hab, ringRead_of_above hw hb, hv]
  · rfl
  · rw [ringRead_cons, if_pos (by assumption)]
  · rw [ringRead_cons, if_neg (by assumption)]

/-- What a ring write does to a read: the written index gives the byte written, every other index what it gave. -/
theorem ringRead_ringWrite : ∀ {m : List Host.Cell}, Memory.wf m = true → ∀ (b : Nat) (v : Byte) (a : Nat),
    ringRead (ringWrite m b v) a = if a = b then v else ringRead m a
  | [], _, b, v, a => ringRead_consCell (m := []) rfl rfl a
  | (c, u) :: m, hw, b, v, a => by
    have hw' := hw
    simp only [Memory.wf, Bool.and_eq_true] at hw'
    unfold ringWrite
    by_cases hlt : b < c
    · rw [if_pos hlt, ringRead_consCell hw (by simpa [Memory.above] using hlt)]
    · rw [if_neg hlt]
      by_cases heq : b = c
      · subst heq
        rw [if_pos rfl, ringRead_consCell hw'.2 hw'.1.2, ringRead_cons]
        split_ifs <;> rfl
      · rw [if_neg heq, ringRead_cons, ringRead_ringWrite hw'.2, ringRead_cons]
        split_ifs <;> first | rfl | omega

/-- A cell put in front keeps the canonical form. -/
theorem wf_consCell {m : List Host.Cell} {a : Nat} {v : Byte} (hw : Memory.wf m = true) (ha : Memory.above a m = true) :
    Memory.wf (consCell a v m) = true := by
  unfold consCell
  split_ifs with hv
  · exact hw
  · simp [Memory.wf, hw, ha, hv]

/-- A write at or above `b` leaves everything listed above anything below `b`. -/
theorem above_ringWrite {c : Nat} : ∀ {m : List Host.Cell} {b : Nat} {v : Byte}, Memory.wf m = true →
    Memory.above c m = true → c < b → Memory.above c (ringWrite m b v) = true
  | [], b, v, _, _, hcb => by
    simp only [ringWrite, consCell]
    split_ifs <;> simp [Memory.above, hcb]
  | (d, u) :: m, b, v, hw, hc, hcb => by
    have hcd : c < d := by simpa [Memory.above] using hc
    simp only [Memory.wf, Bool.and_eq_true] at hw
    have hcm : Memory.above c m = true := by
      cases m with
      | nil => rfl
      | cons e m =>
        have hde : d < e.1 := by simpa [Memory.above] using hw.1.2
        simpa [Memory.above] using Nat.lt_trans hcd hde
    simp only [ringWrite, consCell]
    split_ifs <;> first | exact hcm | simp [Memory.above, hcb, hcd]

/-- A write keeps the canonical form. -/
theorem wf_ringWrite : ∀ {m : List Host.Cell}, Memory.wf m = true → ∀ (b : Nat) (v : Byte),
    Memory.wf (ringWrite m b v) = true
  | [], hw, b, v => wf_consCell hw rfl
  | (c, u) :: m, hw, b, v => by
    have hw' := hw
    simp only [Memory.wf, Bool.and_eq_true] at hw'
    unfold ringWrite
    split_ifs with hlt heq
    · exact wf_consCell hw (by simpa [Memory.above] using hlt)
    · subst heq
      exact wf_consCell hw'.2 hw'.1.2
    · simp only [Memory.wf, Bool.and_eq_true]
      exact ⟨⟨hw'.1.1, above_ringWrite hw'.2 hw'.1.2 (by omega)⟩, wf_ringWrite hw'.2 b v⟩

/-- A write lists nothing but what was listed and the index written. -/
theorem mem_ringWrite : ∀ {m : List Host.Cell} {b : Nat} {v : Byte} {c : Host.Cell}, c ∈ ringWrite m b v →
    c ∈ m ∨ c.1 = b
  | [], b, v, c, h => by
    simp only [ringWrite, consCell] at h
    split_ifs at h <;> simp_all
  | (d, u) :: m, b, v, c, h => by
    simp only [ringWrite, consCell] at h
    split_ifs at h with hlt hv heq hv
    · exact .inl h
    · rcases List.mem_cons.1 h with rfl | h
      · exact .inr rfl
      · exact .inl h
    · exact .inl (List.mem_cons_of_mem _ h)
    · rcases List.mem_cons.1 h with rfl | h
      · exact .inr rfl
      · exact .inl (List.mem_cons_of_mem _ h)
    · rcases List.mem_cons.1 h with rfl | h
      · exact .inl (List.mem_cons_self ..)
      · rcases mem_ringWrite h with h | h
        · exact .inl (List.mem_cons_of_mem _ h)
        · exact .inr h

/-- The ring of the reset state is in canonical form. -/
theorem reset_ring_wf : Memory.wf State.reset.ring = true := rfl

end Sys2Proof.Machine
end

