-- ==== Sys2Proof/Laws/State.lean ====
section
/-! SUPPORT. What each named update of the state does to each field, one lemma per field per update, each true by definition,
so that no later proof unfolds a record update. -/

namespace Sys2Proof.Machine

/-! ### Supplies -/

@[simp] theorem Supply.head?_nil {α : Type} : (Supply.nil : Supply α).head? = none := rfl
@[simp] theorem Supply.rest_nil {α : Type} : (Supply.nil : Supply α).rest = .nil := rfl
@[simp] theorem Supply.head?_cons {α : Type} (x : α) (l c : List α) : (⟨x :: l, c⟩ : Supply α).head? = some x := rfl
@[simp] theorem Supply.rest_cons {α : Type} (x : α) (l c : List α) : (⟨x :: l, c⟩ : Supply α).rest = ⟨l, c⟩ := rfl
@[simp] theorem Supply.head?_cycle {α : Type} (c : List α) : (⟨[], c⟩ : Supply α).head? = c.head? := rfl
@[simp] theorem Supply.rest_cycle {α : Type} (c : List α) : (⟨[], c⟩ : Supply α).rest = ⟨c.tail, c⟩ := rfl
@[simp] theorem Supply.head?_push {α : Type} (x : α) (q : Supply α) : (q.push x).head? = some x := rfl
@[simp] theorem Supply.rest_push {α : Type} (x : α) (q : Supply α) : (q.push x).rest = q := rfl

/-! ### `emit` -/

@[simp] theorem emit_cfg (x : Effect) (s : State) : (emit x s).cfg = s.cfg := rfl
@[simp] theorem emit_ring (x : Effect) (s : State) : (emit x s).ring = s.ring := rfl
@[simp] theorem emit_wr (x : Effect) (s : State) : (emit x s).wr = s.wr := rfl
@[simp] theorem emit_rd (x : Effect) (s : State) : (emit x s).rd = s.rd := rfl
@[simp] theorem emit_xs (x : Effect) (s : State) : (emit x s).xs = s.xs := rfl
@[simp] theorem emit_xlen (x : Effect) (s : State) : (emit x s).xlen = s.xlen := rfl
@[simp] theorem emit_xbuf (x : Effect) (s : State) : (emit x s).xbuf = s.xbuf := rfl
@[simp] theorem emit_outRec (x : Effect) (s : State) : (emit x s).outRec = s.outRec := rfl
@[simp] theorem emit_inRec (x : Effect) (s : State) : (emit x s).inRec = s.inRec := rfl
@[simp] theorem emit_inValid (x : Effect) (s : State) : (emit x s).inValid = s.inValid := rfl
@[simp] theorem emit_qstate (x : Effect) (s : State) : (emit x s).qstate = s.qstate := rfl
@[simp] theorem emit_anim (x : Effect) (s : State) : (emit x s).anim = s.anim := rfl
@[simp] theorem emit_qflags (x : Effect) (s : State) : (emit x s).qflags = s.qflags := rfl
@[simp] theorem emit_bootDone (x : Effect) (s : State) : (emit x s).bootDone = s.bootDone := rfl
@[simp] theorem emit_gflags (x : Effect) (s : State) : (emit x s).gflags = s.gflags := rfl
@[simp] theorem emit_phase (x : Effect) (s : State) : (emit x s).phase = s.phase := rfl
@[simp] theorem emit_cmdOp (x : Effect) (s : State) : (emit x s).cmdOp = s.cmdOp := rfl
@[simp] theorem emit_cmdArg (x : Effect) (s : State) : (emit x s).cmdArg = s.cmdArg := rfl
@[simp] theorem emit_qS (x : Effect) (s : State) : (emit x s).qS = s.qS := rfl
@[simp] theorem emit_qNext (x : Effect) (s : State) : (emit x s).qNext = s.qNext := rfl
@[simp] theorem emit_qKind (x : Effect) (s : State) : (emit x s).qKind = s.qKind := rfl
@[simp] theorem emit_hs (x : Effect) (s : State) : (emit x s).hs = s.hs := rfl
@[simp] theorem emit_nvBusy (x : Effect) (s : State) : (emit x s).nvBusy = s.nvBusy := rfl
@[simp] theorem emit_nvReq (x : Effect) (s : State) : (emit x s).nvReq = s.nvReq := rfl
@[simp] theorem emit_resStatus (x : Effect) (s : State) : (emit x s).resStatus = s.resStatus := rfl
@[simp] theorem emit_resLen (x : Effect) (s : State) : (emit x s).resLen = s.resLen := rfl
@[simp] theorem emit_resBuf (x : Effect) (s : State) : (emit x s).resBuf = s.resBuf := rfl
@[simp] theorem emit_txOut (x : Effect) (s : State) : (emit x s).txOut = s.txOut := rfl
@[simp] theorem emit_fxOut (x : Effect) (s : State) : (emit x s).fxOut = s.fxOut ++ [effectCode x] := rfl
@[simp] theorem emit_hostIn (x : Effect) (s : State) : (emit x s).hostIn = s.hostIn := rfl
@[simp] theorem emit_rxIn (x : Effect) (s : State) : (emit x s).rxIn = s.rxIn := rfl
@[simp] theorem emit_nvIn (x : Effect) (s : State) : (emit x s).nvIn = s.nvIn := rfl
@[simp] theorem emit_turns (x : Effect) (s : State) : (emit x s).turns = s.turns := rfl

/-! ### `finish` -/

@[simp] theorem finish_cfg (st : Status) (len : BitVec 5) (buf : FrameBytes) (s : State) : (finish st len buf s).cfg = s.cfg := rfl
@[simp] theorem finish_ring (st : Status) (len : BitVec 5) (buf : FrameBytes) (s : State) : (finish st len buf s).ring = s.ring := rfl
@[simp] theorem finish_wr (st : Status) (len : BitVec 5) (buf : FrameBytes) (s : State) : (finish st len buf s).wr = s.wr := rfl
@[simp] theorem finish_rd (st : Status) (len : BitVec 5) (buf : FrameBytes) (s : State) : (finish st len buf s).rd = s.rd := rfl
@[simp] theorem finish_xs (st : Status) (len : BitVec 5) (buf : FrameBytes) (s : State) : (finish st len buf s).xs = s.xs := rfl
@[simp] theorem finish_xlen (st : Status) (len : BitVec 5) (buf : FrameBytes) (s : State) : (finish st len buf s).xlen = s.xlen := rfl
@[simp] theorem finish_xbuf (st : Status) (len : BitVec 5) (buf : FrameBytes) (s : State) : (finish st len buf s).xbuf = s.xbuf := rfl
@[simp] theorem finish_outRec (st : Status) (len : BitVec 5) (buf : FrameBytes) (s : State) : (finish st len buf s).outRec = s.outRec := rfl
@[simp] theorem finish_inRec (st : Status) (len : BitVec 5) (buf : FrameBytes) (s : State) : (finish st len buf s).inRec = s.inRec := rfl
@[simp] theorem finish_inValid (st : Status) (len : BitVec 5) (buf : FrameBytes) (s : State) : (finish st len buf s).inValid = s.inValid := rfl
@[simp] theorem finish_qstate (st : Status) (len : BitVec 5) (buf : FrameBytes) (s : State) : (finish st len buf s).qstate = s.qstate := rfl
@[simp] theorem finish_anim (st : Status) (len : BitVec 5) (buf : FrameBytes) (s : State) : (finish st len buf s).anim = s.anim := rfl
@[simp] theorem finish_qflags (st : Status) (len : BitVec 5) (buf : FrameBytes) (s : State) : (finish st len buf s).qflags = s.qflags := rfl
@[simp] theorem finish_bootDone (st : Status) (len : BitVec 5) (buf : FrameBytes) (s : State) : (finish st len buf s).bootDone = s.bootDone := rfl
@[simp] theorem finish_gflags (st : Status) (len : BitVec 5) (buf : FrameBytes) (s : State) : (finish st len buf s).gflags = s.gflags := rfl
@[simp] theorem finish_phase (st : Status) (len : BitVec 5) (buf : FrameBytes) (s : State) : (finish st len buf s).phase = .idle := rfl
@[simp] theorem finish_cmdOp (st : Status) (len : BitVec 5) (buf : FrameBytes) (s : State) : (finish st len buf s).cmdOp = s.cmdOp := rfl
@[simp] theorem finish_cmdArg (st : Status) (len : BitVec 5) (buf : FrameBytes) (s : State) : (finish st len buf s).cmdArg = s.cmdArg := rfl
@[simp] theorem finish_qS (st : Status) (len : BitVec 5) (buf : FrameBytes) (s : State) : (finish st len buf s).qS = s.qS := rfl
@[simp] theorem finish_qNext (st : Status) (len : BitVec 5) (buf : FrameBytes) (s : State) : (finish st len buf s).qNext = s.qNext := rfl
@[simp] theorem finish_qKind (st : Status) (len : BitVec 5) (buf : FrameBytes) (s : State) : (finish st len buf s).qKind = s.qKind := rfl
@[simp] theorem finish_hs (st : Status) (len : BitVec 5) (buf : FrameBytes) (s : State) : (finish st len buf s).hs = s.hs := rfl
@[simp] theorem finish_nvBusy (st : Status) (len : BitVec 5) (buf : FrameBytes) (s : State) : (finish st len buf s).nvBusy = s.nvBusy := rfl
@[simp] theorem finish_nvReq (st : Status) (len : BitVec 5) (buf : FrameBytes) (s : State) : (finish st len buf s).nvReq = s.nvReq := rfl
@[simp] theorem finish_resStatus (st : Status) (len : BitVec 5) (buf : FrameBytes) (s : State) : (finish st len buf s).resStatus = statusCode st := rfl
@[simp] theorem finish_resLen (st : Status) (len : BitVec 5) (buf : FrameBytes) (s : State) : (finish st len buf s).resLen = len := rfl
@[simp] theorem finish_resBuf (st : Status) (len : BitVec 5) (buf : FrameBytes) (s : State) : (finish st len buf s).resBuf = buf := rfl
@[simp] theorem finish_txOut (st : Status) (len : BitVec 5) (buf : FrameBytes) (s : State) : (finish st len buf s).txOut = s.txOut := rfl
@[simp] theorem finish_fxOut (st : Status) (len : BitVec 5) (buf : FrameBytes) (s : State) : (finish st len buf s).fxOut = s.fxOut := rfl
@[simp] theorem finish_hostIn (st : Status) (len : BitVec 5) (buf : FrameBytes) (s : State) : (finish st len buf s).hostIn = s.hostIn := rfl
@[simp] theorem finish_rxIn (st : Status) (len : BitVec 5) (buf : FrameBytes) (s : State) : (finish st len buf s).rxIn = s.rxIn := rfl
@[simp] theorem finish_nvIn (st : Status) (len : BitVec 5) (buf : FrameBytes) (s : State) : (finish st len buf s).nvIn = s.nvIn := rfl
@[simp] theorem finish_turns (st : Status) (len : BitVec 5) (buf : FrameBytes) (s : State) : (finish st len buf s).turns = s.turns := rfl

/-! ### `finishState` -/

@[simp] theorem finishState_cfg (q : QState) (s : State) : (finishState q s).cfg = s.cfg := rfl
@[simp] theorem finishState_ring (q : QState) (s : State) : (finishState q s).ring = s.ring := rfl
@[simp] theorem finishState_wr (q : QState) (s : State) : (finishState q s).wr = s.wr := rfl
@[simp] theorem finishState_rd (q : QState) (s : State) : (finishState q s).rd = s.rd := rfl
@[simp] theorem finishState_xs (q : QState) (s : State) : (finishState q s).xs = s.xs := rfl
@[simp] theorem finishState_xlen (q : QState) (s : State) : (finishState q s).xlen = s.xlen := rfl
@[simp] theorem finishState_xbuf (q : QState) (s : State) : (finishState q s).xbuf = s.xbuf := rfl
@[simp] theorem finishState_outRec (q : QState) (s : State) : (finishState q s).outRec = s.outRec := rfl
@[simp] theorem finishState_inRec (q : QState) (s : State) : (finishState q s).inRec = s.inRec := rfl
@[simp] theorem finishState_inValid (q : QState) (s : State) : (finishState q s).inValid = s.inValid := rfl
@[simp] theorem finishState_qstate (q : QState) (s : State) : (finishState q s).qstate = s.qstate := rfl
@[simp] theorem finishState_anim (q : QState) (s : State) : (finishState q s).anim = s.anim := rfl
@[simp] theorem finishState_qflags (q : QState) (s : State) : (finishState q s).qflags = s.qflags := rfl
@[simp] theorem finishState_bootDone (q : QState) (s : State) : (finishState q s).bootDone = s.bootDone := rfl
@[simp] theorem finishState_gflags (q : QState) (s : State) : (finishState q s).gflags = s.gflags := rfl
@[simp] theorem finishState_phase (q : QState) (s : State) : (finishState q s).phase = .idle := rfl
@[simp] theorem finishState_cmdOp (q : QState) (s : State) : (finishState q s).cmdOp = s.cmdOp := rfl
@[simp] theorem finishState_cmdArg (q : QState) (s : State) : (finishState q s).cmdArg = s.cmdArg := rfl
@[simp] theorem finishState_qS (q : QState) (s : State) : (finishState q s).qS = s.qS := rfl
@[simp] theorem finishState_qNext (q : QState) (s : State) : (finishState q s).qNext = s.qNext := rfl
@[simp] theorem finishState_qKind (q : QState) (s : State) : (finishState q s).qKind = s.qKind := rfl
@[simp] theorem finishState_hs (q : QState) (s : State) : (finishState q s).hs = s.hs := rfl
@[simp] theorem finishState_nvBusy (q : QState) (s : State) : (finishState q s).nvBusy = s.nvBusy := rfl
@[simp] theorem finishState_nvReq (q : QState) (s : State) : (finishState q s).nvReq = s.nvReq := rfl
@[simp] theorem finishState_resStatus (q : QState) (s : State) : (finishState q s).resStatus = 0x00 := rfl
@[simp] theorem finishState_resLen (q : QState) (s : State) : (finishState q s).resLen = 1 := rfl
@[simp] theorem finishState_resBuf (q : QState) (s : State) : (finishState q s).resBuf = stateResult q := rfl
@[simp] theorem finishState_txOut (q : QState) (s : State) : (finishState q s).txOut = s.txOut := rfl
@[simp] theorem finishState_fxOut (q : QState) (s : State) : (finishState q s).fxOut = s.fxOut := rfl
@[simp] theorem finishState_hostIn (q : QState) (s : State) : (finishState q s).hostIn = s.hostIn := rfl
@[simp] theorem finishState_rxIn (q : QState) (s : State) : (finishState q s).rxIn = s.rxIn := rfl
@[simp] theorem finishState_nvIn (q : QState) (s : State) : (finishState q s).nvIn = s.nvIn := rfl
@[simp] theorem finishState_turns (q : QState) (s : State) : (finishState q s).turns = s.turns := rfl

/-! ### `persist` -/

@[simp] theorem persist_cfg (s : State) : (persist s).cfg = s.cfg := rfl
@[simp] theorem persist_ring (s : State) : (persist s).ring = s.ring := rfl
@[simp] theorem persist_wr (s : State) : (persist s).wr = s.wr := rfl
@[simp] theorem persist_rd (s : State) : (persist s).rd = s.rd := rfl
@[simp] theorem persist_xs (s : State) : (persist s).xs = s.xs := rfl
@[simp] theorem persist_xlen (s : State) : (persist s).xlen = s.xlen := rfl
@[simp] theorem persist_xbuf (s : State) : (persist s).xbuf = s.xbuf := rfl
@[simp] theorem persist_outRec (s : State) : (persist s).outRec = s.outRec.set 6 s.qflags := rfl
@[simp] theorem persist_inRec (s : State) : (persist s).inRec = s.inRec := rfl
@[simp] theorem persist_inValid (s : State) : (persist s).inValid = s.inValid := rfl
@[simp] theorem persist_qstate (s : State) : (persist s).qstate = s.qstate := rfl
@[simp] theorem persist_anim (s : State) : (persist s).anim = s.anim := rfl
@[simp] theorem persist_qflags (s : State) : (persist s).qflags = s.qflags := rfl
@[simp] theorem persist_bootDone (s : State) : (persist s).bootDone = s.bootDone := rfl
@[simp] theorem persist_gflags (s : State) : (persist s).gflags = s.gflags := rfl
@[simp] theorem persist_phase (s : State) : (persist s).phase = .qWaitNv := rfl
@[simp] theorem persist_cmdOp (s : State) : (persist s).cmdOp = s.cmdOp := rfl
@[simp] theorem persist_cmdArg (s : State) : (persist s).cmdArg = s.cmdArg := rfl
@[simp] theorem persist_qS (s : State) : (persist s).qS = s.qS := rfl
@[simp] theorem persist_qNext (s : State) : (persist s).qNext = s.qNext := rfl
@[simp] theorem persist_qKind (s : State) : (persist s).qKind = s.qKind := rfl
@[simp] theorem persist_hs (s : State) : (persist s).hs = s.hs := rfl
@[simp] theorem persist_nvBusy (s : State) : (persist s).nvBusy = true := rfl
@[simp] theorem persist_nvReq (s : State) : (persist s).nvReq = s.qflags.zeroExtend 32 := rfl
@[simp] theorem persist_resStatus (s : State) : (persist s).resStatus = s.resStatus := rfl
@[simp] theorem persist_resLen (s : State) : (persist s).resLen = s.resLen := rfl
@[simp] theorem persist_resBuf (s : State) : (persist s).resBuf = s.resBuf := rfl
@[simp] theorem persist_txOut (s : State) : (persist s).txOut = s.txOut := rfl
@[simp] theorem persist_fxOut (s : State) : (persist s).fxOut = s.fxOut := rfl
@[simp] theorem persist_hostIn (s : State) : (persist s).hostIn = s.hostIn := rfl
@[simp] theorem persist_rxIn (s : State) : (persist s).rxIn = s.rxIn := rfl
@[simp] theorem persist_nvIn (s : State) : (persist s).nvIn = s.nvIn := rfl
@[simp] theorem persist_turns (s : State) : (persist s).turns = s.turns := rfl

/-! ### `transition` -/

@[simp] theorem transition_cfg (f : Byte) (q : QState) (k : QKind) (s : State) : (transition f q k s).cfg = s.cfg := rfl
@[simp] theorem transition_ring (f : Byte) (q : QState) (k : QKind) (s : State) : (transition f q k s).ring = s.ring := rfl
@[simp] theorem transition_wr (f : Byte) (q : QState) (k : QKind) (s : State) : (transition f q k s).wr = s.wr := rfl
@[simp] theorem transition_rd (f : Byte) (q : QState) (k : QKind) (s : State) : (transition f q k s).rd = s.rd := rfl
@[simp] theorem transition_xs (f : Byte) (q : QState) (k : QKind) (s : State) : (transition f q k s).xs = s.xs := rfl
@[simp] theorem transition_xlen (f : Byte) (q : QState) (k : QKind) (s : State) : (transition f q k s).xlen = s.xlen := rfl
@[simp] theorem transition_xbuf (f : Byte) (q : QState) (k : QKind) (s : State) : (transition f q k s).xbuf = s.xbuf := rfl
@[simp] theorem transition_outRec (f : Byte) (q : QState) (k : QKind) (s : State) : (transition f q k s).outRec = s.outRec.set 6 f := rfl
@[simp] theorem transition_inRec (f : Byte) (q : QState) (k : QKind) (s : State) : (transition f q k s).inRec = s.inRec := rfl
@[simp] theorem transition_inValid (f : Byte) (q : QState) (k : QKind) (s : State) : (transition f q k s).inValid = s.inValid := rfl
@[simp] theorem transition_qstate (f : Byte) (q : QState) (k : QKind) (s : State) : (transition f q k s).qstate = s.qstate := rfl
@[simp] theorem transition_anim (f : Byte) (q : QState) (k : QKind) (s : State) : (transition f q k s).anim = s.anim := rfl
@[simp] theorem transition_qflags (f : Byte) (q : QState) (k : QKind) (s : State) : (transition f q k s).qflags = f := rfl
@[simp] theorem transition_bootDone (f : Byte) (q : QState) (k : QKind) (s : State) : (transition f q k s).bootDone = s.bootDone := rfl
@[simp] theorem transition_gflags (f : Byte) (q : QState) (k : QKind) (s : State) : (transition f q k s).gflags = s.gflags := rfl
@[simp] theorem transition_phase (f : Byte) (q : QState) (k : QKind) (s : State) : (transition f q k s).phase = .qWaitNv := rfl
@[simp] theorem transition_cmdOp (f : Byte) (q : QState) (k : QKind) (s : State) : (transition f q k s).cmdOp = s.cmdOp := rfl
@[simp] theorem transition_cmdArg (f : Byte) (q : QState) (k : QKind) (s : State) : (transition f q k s).cmdArg = s.cmdArg := rfl
@[simp] theorem transition_qS (f : Byte) (q : QState) (k : QKind) (s : State) : (transition f q k s).qS = s.qS := rfl
@[simp] theorem transition_qNext (f : Byte) (q : QState) (k : QKind) (s : State) : (transition f q k s).qNext = q := rfl
@[simp] theorem transition_qKind (f : Byte) (q : QState) (k : QKind) (s : State) : (transition f q k s).qKind = k := rfl
@[simp] theorem transition_hs (f : Byte) (q : QState) (k : QKind) (s : State) : (transition f q k s).hs = s.hs := rfl
@[simp] theorem transition_nvBusy (f : Byte) (q : QState) (k : QKind) (s : State) : (transition f q k s).nvBusy = true := rfl
@[simp] theorem transition_nvReq (f : Byte) (q : QState) (k : QKind) (s : State) : (transition f q k s).nvReq = f.zeroExtend 32 := rfl
@[simp] theorem transition_resStatus (f : Byte) (q : QState) (k : QKind) (s : State) : (transition f q k s).resStatus = s.resStatus := rfl
@[simp] theorem transition_resLen (f : Byte) (q : QState) (k : QKind) (s : State) : (transition f q k s).resLen = s.resLen := rfl
@[simp] theorem transition_resBuf (f : Byte) (q : QState) (k : QKind) (s : State) : (transition f q k s).resBuf = s.resBuf := rfl
@[simp] theorem transition_txOut (f : Byte) (q : QState) (k : QKind) (s : State) : (transition f q k s).txOut = s.txOut := rfl
@[simp] theorem transition_fxOut (f : Byte) (q : QState) (k : QKind) (s : State) : (transition f q k s).fxOut = s.fxOut := rfl
@[simp] theorem transition_hostIn (f : Byte) (q : QState) (k : QKind) (s : State) : (transition f q k s).hostIn = s.hostIn := rfl
@[simp] theorem transition_rxIn (f : Byte) (q : QState) (k : QKind) (s : State) : (transition f q k s).rxIn = s.rxIn := rfl
@[simp] theorem transition_nvIn (f : Byte) (q : QState) (k : QKind) (s : State) : (transition f q k s).nvIn = s.nvIn := rfl
@[simp] theorem transition_turns (f : Byte) (q : QState) (k : QKind) (s : State) : (transition f q k s).turns = s.turns := rfl

/-! ### `sendFrame` -/

@[simp] theorem sendFrame_cfg (s : State) : (sendFrame s).cfg = s.cfg := rfl
@[simp] theorem sendFrame_ring (s : State) : (sendFrame s).ring = s.ring := rfl
@[simp] theorem sendFrame_wr (s : State) : (sendFrame s).wr = s.wr := rfl
@[simp] theorem sendFrame_rd (s : State) : (sendFrame s).rd = s.rd := rfl
@[simp] theorem sendFrame_xs (s : State) : (sendFrame s).xs = s.xs := rfl
@[simp] theorem sendFrame_xlen (s : State) : (sendFrame s).xlen = s.xlen := rfl
@[simp] theorem sendFrame_xbuf (s : State) : (sendFrame s).xbuf = s.xbuf := rfl
@[simp] theorem sendFrame_outRec (s : State) : (sendFrame s).outRec = s.outRec := rfl
@[simp] theorem sendFrame_inRec (s : State) : (sendFrame s).inRec = s.inRec := rfl
@[simp] theorem sendFrame_inValid (s : State) : (sendFrame s).inValid = s.inValid := rfl
@[simp] theorem sendFrame_qstate (s : State) : (sendFrame s).qstate = s.qstate := rfl
@[simp] theorem sendFrame_anim (s : State) : (sendFrame s).anim = s.anim := rfl
@[simp] theorem sendFrame_qflags (s : State) : (sendFrame s).qflags = s.qflags := rfl
@[simp] theorem sendFrame_bootDone (s : State) : (sendFrame s).bootDone = s.bootDone := rfl
@[simp] theorem sendFrame_gflags (s : State) : (sendFrame s).gflags = s.gflags := rfl
@[simp] theorem sendFrame_phase (s : State) : (sendFrame s).phase = .idle := rfl
@[simp] theorem sendFrame_cmdOp (s : State) : (sendFrame s).cmdOp = s.cmdOp := rfl
@[simp] theorem sendFrame_cmdArg (s : State) : (sendFrame s).cmdArg = s.cmdArg := rfl
@[simp] theorem sendFrame_qS (s : State) : (sendFrame s).qS = s.qS := rfl
@[simp] theorem sendFrame_qNext (s : State) : (sendFrame s).qNext = s.qNext := rfl
@[simp] theorem sendFrame_qKind (s : State) : (sendFrame s).qKind = s.qKind := rfl
@[simp] theorem sendFrame_hs (s : State) : (sendFrame s).hs = false := rfl
@[simp] theorem sendFrame_nvBusy (s : State) : (sendFrame s).nvBusy = s.nvBusy := rfl
@[simp] theorem sendFrame_nvReq (s : State) : (sendFrame s).nvReq = s.nvReq := rfl
@[simp] theorem sendFrame_resStatus (s : State) : (sendFrame s).resStatus = 0x00 := rfl
@[simp] theorem sendFrame_resLen (s : State) : (sendFrame s).resLen = 18 := rfl
@[simp] theorem sendFrame_resBuf (s : State) : (sendFrame s).resBuf = encodeFrame s.cfg (outBytes s) := rfl
@[simp] theorem sendFrame_txOut (s : State) : (sendFrame s).txOut = s.txOut ++ (encodeFrame s.cfg (outBytes s)).toList := rfl
@[simp] theorem sendFrame_fxOut (s : State) : (sendFrame s).fxOut = s.fxOut := rfl
@[simp] theorem sendFrame_hostIn (s : State) : (sendFrame s).hostIn = s.hostIn := rfl
@[simp] theorem sendFrame_rxIn (s : State) : (sendFrame s).rxIn = s.rxIn := rfl
@[simp] theorem sendFrame_nvIn (s : State) : (sendFrame s).nvIn = s.nvIn := rfl
@[simp] theorem sendFrame_turns (s : State) : (sendFrame s).turns = s.turns := rfl

/-! ### `completeTick` -/

@[simp] theorem completeTick_cfg (s : State) : (completeTick s).cfg = s.cfg := rfl
@[simp] theorem completeTick_ring (s : State) : (completeTick s).ring = s.ring := rfl
@[simp] theorem completeTick_wr (s : State) : (completeTick s).wr = s.wr := rfl
@[simp] theorem completeTick_rd (s : State) : (completeTick s).rd = s.rd := rfl
@[simp] theorem completeTick_xs (s : State) : (completeTick s).xs = s.xs := rfl
@[simp] theorem completeTick_xlen (s : State) : (completeTick s).xlen = s.xlen := rfl
@[simp] theorem completeTick_xbuf (s : State) : (completeTick s).xbuf = s.xbuf := rfl
@[simp] theorem completeTick_outRec (s : State) : (completeTick s).outRec = s.outRec := rfl
@[simp] theorem completeTick_inRec (s : State) : (completeTick s).inRec = s.inRec := rfl
@[simp] theorem completeTick_inValid (s : State) : (completeTick s).inValid = s.inValid := rfl
@[simp] theorem completeTick_qstate (s : State) : (completeTick s).qstate = s.qstate := rfl
@[simp] theorem completeTick_anim (s : State) : (completeTick s).anim = s.anim := rfl
@[simp] theorem completeTick_qflags (s : State) : (completeTick s).qflags = s.qflags := rfl
@[simp] theorem completeTick_bootDone (s : State) : (completeTick s).bootDone = s.bootDone := rfl
@[simp] theorem completeTick_gflags (s : State) : (completeTick s).gflags = s.gflags := rfl
@[simp] theorem completeTick_phase (s : State) : (completeTick s).phase = .idle := rfl
@[simp] theorem completeTick_cmdOp (s : State) : (completeTick s).cmdOp = s.cmdOp := rfl
@[simp] theorem completeTick_cmdArg (s : State) : (completeTick s).cmdArg = s.cmdArg := rfl
@[simp] theorem completeTick_qS (s : State) : (completeTick s).qS = s.qS := rfl
@[simp] theorem completeTick_qNext (s : State) : (completeTick s).qNext = s.qNext := rfl
@[simp] theorem completeTick_qKind (s : State) : (completeTick s).qKind = s.qKind := rfl
@[simp] theorem completeTick_hs (s : State) : (completeTick s).hs = s.hs := rfl
@[simp] theorem completeTick_nvBusy (s : State) : (completeTick s).nvBusy = s.nvBusy := rfl
@[simp] theorem completeTick_nvReq (s : State) : (completeTick s).nvReq = s.nvReq := rfl
@[simp] theorem completeTick_resStatus (s : State) : (completeTick s).resStatus = 0x00 := rfl
@[simp] theorem completeTick_resLen (s : State) : (completeTick s).resLen = 1 := rfl
@[simp] theorem completeTick_resBuf (s : State) : (completeTick s).resBuf = stateResult .complete := rfl
@[simp] theorem completeTick_txOut (s : State) : (completeTick s).txOut = s.txOut := rfl
@[simp] theorem completeTick_fxOut (s : State) : (completeTick s).fxOut = s.fxOut ++ [0x17] := rfl
@[simp] theorem completeTick_hostIn (s : State) : (completeTick s).hostIn = s.hostIn := rfl
@[simp] theorem completeTick_rxIn (s : State) : (completeTick s).rxIn = s.rxIn := rfl
@[simp] theorem completeTick_nvIn (s : State) : (completeTick s).nvIn = s.nvIn := rfl
@[simp] theorem completeTick_turns (s : State) : (completeTick s).turns = s.turns := rfl

end Sys2Proof.Machine
end

