-- ==== Sys2Proof/Laws/Fifo.lean ====
section
/-! SUPPORT. What the FIFO's and the extractor's shared operations can do: the cursor's advance, `Pop`, `XFeed` and one step of a
frame hunt. -/

namespace Sys2Proof.Machine

/-- The advanced cursor as a number, for a legal ring size. -/
theorem nextCursor_toNat {s : State} (c : BitVec 8) (hlow : 0 < s.cfg.ringSize) (hhigh : s.cfg.ringSize ≤ 256) :
    (nextCursor s c).toNat = (c.toNat + 1) % s.cfg.ringSize := by
  have := Nat.mod_lt (c.toNat + 1) hlow
  simp only [nextCursor, BitVec.toNat_ofNat]
  exact Nat.mod_eq_of_lt (by omega)

/-- `Pop` finds the FIFO empty, or takes the byte at `rd` and advances `rd`. -/
theorem pop_cases {s t : State} {o : Option Byte} (h : pop s = .next (o, t)) :
    (s.rd = s.wr ∧ o = none ∧ t = s) ∨
    (s.rd ≠ s.wr ∧ s.rd.toNat < s.cfg.ringSize ∧ o = some (ringRead s.ring s.rd.toNat) ∧
      t = { s with rd := nextCursor s s.rd }) := by
  unfold pop at h
  split_ifs at h with h1 h2
  · cases h; exact .inl ⟨h1, rfl, rfl⟩
  · cases h; exact .inr ⟨h1, by omega, rfl, rfl⟩

/-- `Pop` on an empty FIFO. -/
theorem pop_empty {s : State} (h : s.rd = s.wr) : pop s = .next (none, s) := if_pos h

/-- `Pop` on a FIFO that holds a byte. -/
theorem pop_byte {s : State} (h : s.rd ≠ s.wr) (hr : s.rd.toNat < s.cfg.ringSize) :
    pop s = .next (some (ringRead s.ring s.rd.toNat), { s with rd := nextCursor s s.rd }) := by
  unfold pop
  rw [if_neg h, if_neg (by omega)]

/-- `XFeed` writes the extractor's three registers and nothing else. -/
theorem xfeed_fst (b : Byte) (s : State) :
    (xfeed b s).1 = { s with xs := (xfeed b s).1.xs, xlen := (xfeed b s).1.xlen, xbuf := (xfeed b s).1.xbuf } := by
  unfold xfeed
  split <;> split <;> rfl

@[simp] theorem xfeed_cfg (b : Byte) (s : State) : (xfeed b s).1.cfg = s.cfg := by rw [xfeed_fst]
@[simp] theorem xfeed_ring (b : Byte) (s : State) : (xfeed b s).1.ring = s.ring := by rw [xfeed_fst]
@[simp] theorem xfeed_wr (b : Byte) (s : State) : (xfeed b s).1.wr = s.wr := by rw [xfeed_fst]
@[simp] theorem xfeed_rd (b : Byte) (s : State) : (xfeed b s).1.rd = s.rd := by rw [xfeed_fst]
@[simp] theorem xfeed_outRec (b : Byte) (s : State) : (xfeed b s).1.outRec = s.outRec := by rw [xfeed_fst]
@[simp] theorem xfeed_inRec (b : Byte) (s : State) : (xfeed b s).1.inRec = s.inRec := by rw [xfeed_fst]
@[simp] theorem xfeed_inValid (b : Byte) (s : State) : (xfeed b s).1.inValid = s.inValid := by rw [xfeed_fst]
@[simp] theorem xfeed_qstate (b : Byte) (s : State) : (xfeed b s).1.qstate = s.qstate := by rw [xfeed_fst]
@[simp] theorem xfeed_anim (b : Byte) (s : State) : (xfeed b s).1.anim = s.anim := by rw [xfeed_fst]
@[simp] theorem xfeed_qflags (b : Byte) (s : State) : (xfeed b s).1.qflags = s.qflags := by rw [xfeed_fst]
@[simp] theorem xfeed_bootDone (b : Byte) (s : State) : (xfeed b s).1.bootDone = s.bootDone := by rw [xfeed_fst]
@[simp] theorem xfeed_gflags (b : Byte) (s : State) : (xfeed b s).1.gflags = s.gflags := by rw [xfeed_fst]
@[simp] theorem xfeed_phase (b : Byte) (s : State) : (xfeed b s).1.phase = s.phase := by rw [xfeed_fst]
@[simp] theorem xfeed_cmdOp (b : Byte) (s : State) : (xfeed b s).1.cmdOp = s.cmdOp := by rw [xfeed_fst]
@[simp] theorem xfeed_cmdArg (b : Byte) (s : State) : (xfeed b s).1.cmdArg = s.cmdArg := by rw [xfeed_fst]
@[simp] theorem xfeed_qS (b : Byte) (s : State) : (xfeed b s).1.qS = s.qS := by rw [xfeed_fst]
@[simp] theorem xfeed_qNext (b : Byte) (s : State) : (xfeed b s).1.qNext = s.qNext := by rw [xfeed_fst]
@[simp] theorem xfeed_qKind (b : Byte) (s : State) : (xfeed b s).1.qKind = s.qKind := by rw [xfeed_fst]
@[simp] theorem xfeed_hs (b : Byte) (s : State) : (xfeed b s).1.hs = s.hs := by rw [xfeed_fst]
@[simp] theorem xfeed_nvBusy (b : Byte) (s : State) : (xfeed b s).1.nvBusy = s.nvBusy := by rw [xfeed_fst]
@[simp] theorem xfeed_nvReq (b : Byte) (s : State) : (xfeed b s).1.nvReq = s.nvReq := by rw [xfeed_fst]
@[simp] theorem xfeed_resStatus (b : Byte) (s : State) : (xfeed b s).1.resStatus = s.resStatus := by rw [xfeed_fst]
@[simp] theorem xfeed_resLen (b : Byte) (s : State) : (xfeed b s).1.resLen = s.resLen := by rw [xfeed_fst]
@[simp] theorem xfeed_resBuf (b : Byte) (s : State) : (xfeed b s).1.resBuf = s.resBuf := by rw [xfeed_fst]
@[simp] theorem xfeed_txOut (b : Byte) (s : State) : (xfeed b s).1.txOut = s.txOut := by rw [xfeed_fst]
@[simp] theorem xfeed_fxOut (b : Byte) (s : State) : (xfeed b s).1.fxOut = s.fxOut := by rw [xfeed_fst]
@[simp] theorem xfeed_hostIn (b : Byte) (s : State) : (xfeed b s).1.hostIn = s.hostIn := by rw [xfeed_fst]
@[simp] theorem xfeed_rxIn (b : Byte) (s : State) : (xfeed b s).1.rxIn = s.rxIn := by rw [xfeed_fst]
@[simp] theorem xfeed_nvIn (b : Byte) (s : State) : (xfeed b s).1.nvIn = s.nvIn := by rw [xfeed_fst]
@[simp] theorem xfeed_turns (b : Byte) (s : State) : (xfeed b s).1.turns = s.turns := by rw [xfeed_fst]

/-- A frame result carries the registers as they were before its end marker. -/
theorem xfeed_frame {b : Byte} {s : State} {f : Frame} (h : (xfeed b s).2 = some f) :
    s.xs = .collect ∧ b = byteE ∧ f = { len := s.xlen, payload := s.xbuf } ∧ (xfeed b s).1 = { s with xs := .hunt } := by
  unfold xfeed at h ⊢
  split at h <;> split at h <;> simp_all

/-- One step of a hunt: the FIFO is empty, or a byte is taken and fed, and it ends a frame or not. -/
theorem huntStep_cases {e : State → State} {g : Frame → State → State} {s t : State} (h : huntStep e g s = .next t) :
    (s.rd = s.wr ∧ t = e s) ∨
    (s.rd ≠ s.wr ∧ s.rd.toNat < s.cfg.ringSize ∧
      let u := xfeed (ringRead s.ring s.rd.toNat) { s with rd := nextCursor s s.rd }
      (u.2 = none ∧ t = u.1) ∨ ∃ f, u.2 = some f ∧ t = g f u.1) := by
  unfold huntStep at h
  split at h
  · rename_i u hp
    cases h
    rcases pop_cases hp with ⟨h1, _, rfl⟩ | ⟨_, _, h2, _⟩
    · exact .inl ⟨h1, rfl⟩
    · cases h2
  · rename_i b u hp
    rcases pop_cases hp with ⟨_, h2, _⟩ | ⟨h1, h2, h3, rfl⟩
    · cases h2
    · cases h3
      refine .inr ⟨h1, h2, ?_⟩
      split at h
      · rename_i v hx
        cases h
        exact .inl ⟨by rw [hx], by rw [hx]⟩
      · rename_i v f hx
        cases h
        exact .inr ⟨f, by rw [hx], by rw [hx]⟩
  · cases h
  · cases h

/-- A hunt's step on an empty FIFO. -/
theorem huntStep_empty {e : State → State} {g : Frame → State → State} {s : State} (h : s.rd = s.wr) :
    huntStep e g s = .next (e s) := by
  unfold huntStep
  rw [pop_empty h]

/-- A hunt's step on a FIFO that holds a byte. -/
theorem huntStep_byte {e : State → State} {g : Frame → State → State} {s : State} (h : s.rd ≠ s.wr)
    (hr : s.rd.toNat < s.cfg.ringSize) :
    huntStep e g s =
      let u := xfeed (ringRead s.ring s.rd.toNat) { s with rd := nextCursor s s.rd }
      .next (match u.2 with | none => u.1 | some f => g f u.1) := by
  unfold huntStep
  rw [pop_byte h hr]
  dsimp only
  generalize xfeed (ringRead s.ring s.rd.toNat) { s with rd := nextCursor s s.rd } = u
  rcases u with ⟨u, _ | f⟩ <;> rfl

/-- A frame hunt has a step in every state whose read cursor is inside the ring. -/
theorem huntStep_answers (e : State → State) (g : Frame → State → State) {s : State}
    (hr : s.rd.toNat < s.cfg.ringSize) : ∃ t, huntStep e g s = .next t := by
  by_cases h : s.rd = s.wr
  · exact ⟨_, huntStep_empty h⟩
  · exact ⟨_, huntStep_byte h hr⟩

/-- One step of the handshake hunt: the FIFO is empty; or `'R'` is noted; or `'O'` after it sends the frame; or the byte is
discarded. -/
theorem sendStep_cases {s t : State} (h : sendStep s = .next t) :
    (s.rd = s.wr ∧ t = finish .noHandshake 0 noBytes { s with hs := false }) ∨
    (s.rd ≠ s.wr ∧ s.rd.toNat < s.cfg.ringSize ∧
      let b := ringRead s.ring s.rd.toNat
      let u : State := { s with rd := nextCursor s s.rd }
      (s.hs = false ∧ b = byteR ∧ t = { u with hs := true }) ∨
      (s.hs = true ∧ b = byteO ∧ t = sendFrame u) ∨
      (¬(s.hs = false ∧ b = byteR) ∧ ¬(s.hs = true ∧ b = byteO) ∧ t = u)) := by
  unfold sendStep at h
  split at h
  · rename_i u hp
    cases h
    rcases pop_cases hp with ⟨h1, _, rfl⟩ | ⟨_, _, h2, _⟩
    · exact .inl ⟨h1, rfl⟩
    · cases h2
  · rename_i b u hp
    rcases pop_cases hp with ⟨_, h2, _⟩ | ⟨h1, h2, h3, rfl⟩
    · cases h2
    · cases h3
      refine .inr ⟨h1, h2, ?_⟩
      dsimp only at h ⊢
      split_ifs at h with ha hb
      · cases h; exact .inl ⟨ha.1, ha.2, rfl⟩
      · cases h; exact .inr (.inl ⟨hb.1, hb.2, rfl⟩)
      · cases h; exact .inr (.inr ⟨ha, hb, rfl⟩)
  · cases h
  · cases h

/-- A handshake hunt has a step in every state whose read cursor is inside the ring. -/
theorem sendStep_answers {s : State} (hr : s.rd.toNat < s.cfg.ringSize) : ∃ t, sendStep s = .next t := by
  unfold sendStep
  by_cases h : s.rd = s.wr
  · rw [pop_empty h]; exact ⟨_, rfl⟩
  · rw [pop_byte h hr]
    dsimp only
    split_ifs <;> exact ⟨_, rfl⟩

/-- PUSH drops the byte, or writes it at `wr` and advances `wr`. -/
theorem pushByte_cases {d : Byte} {s t : State} (h : pushByte d s = .next t) :
    (fifoFull s = true ∧ t = s) ∨
    (fifoFull s = false ∧ s.wr.toNat < s.cfg.ringSize ∧
      t = { s with ring := ringWrite s.ring s.wr.toNat d, wr := nextCursor s s.wr }) := by
  unfold pushByte at h
  split_ifs at h with h1 h2
  · cases h; exact .inl ⟨h1, rfl⟩
  · cases h; exact .inr ⟨by simpa using h1, by omega, rfl⟩

/-- PUSH has a step in every state whose write cursor is inside the ring. -/
theorem pushByte_answers (d : Byte) {s : State} (hw : s.wr.toNat < s.cfg.ringSize) : ∃ t, pushByte d s = .next t := by
  unfold pushByte
  split_ifs with h1 h2
  · exact ⟨_, rfl⟩
  · omega
  · exact ⟨_, rfl⟩

end Sys2Proof.Machine
end

