-- ==== Sys2Proof/Laws/Step.lean ====
section
/-! SUPPORT. What an accepted command, a turn and a step can do, once each; and the one induction over steps: a property that
`exec`, the controller, the reset event and the environment's bookkeeping keep is kept by every step. -/

namespace Sys2Proof.Machine

/-- A command is accepted exactly when the controller is idle. -/
theorem accept_next {op : Byte} {arg : Word32} {run : State → State} {s t : State} :
    accept op arg run s = .next t ↔ s.phase = .idle ∧ run { s with cmdOp := op, cmdArg := arg } = t := by
  unfold accept
  split_ifs with h <;> simp [h]

/-- An accepted command's answer. -/
theorem accept_idle {op : Byte} {arg : Word32} {run : State → State} {s : State} (h : s.phase = .idle) :
    accept op arg run s = .next (run { s with cmdOp := op, cmdArg := arg }) := if_pos h

/-- A command issued while the controller is busy. -/
theorem accept_busy {op : Byte} {arg : Word32} {run : State → State} {s : State} (h : s.phase ≠ .idle) :
    accept op arg run s = .refused .issueWhileBusy := if_neg h

/-- A step is the next turn, taken with that turn used up. -/
theorem step_eq (s : State) : step s = takeTurn (nextTurn s) { s with turns := s.turns.rest } := rfl

/-- What a turn can do: nothing but wait, the instruction of the first pending input, the controller's step, or the reset. -/
theorem takeTurn_cases {u : Turn} {s t : State} (h : takeTurn u s = .next t) :
    t = s ∨
    (∃ w, u = .host ∧ s.hostIn.head? = some w ∧ s.phase = .idle ∧ exec (decode (.command w)) { s with hostIn := s.hostIn.rest } = .next t) ∨
    (∃ d, u = .rx ∧ s.rxIn.head? = some d ∧ s.nvBusy = false ∧ exec (decode (.rx d)) { s with rxIn := s.rxIn.rest } = .next t) ∨
    (∃ k, u = .nv ∧ s.nvIn.head? = some k ∧ s.phase = .qWaitNv ∧ exec (decode (.nv k)) { s with nvIn := s.nvIn.rest } = .next t) ∨
    (u = .controller ∧ controllerStep s = .next t) ∨
    (u = .reset ∧ t = resetEvent s) := by
  cases u with
  | host =>
    simp only [takeTurn, hostTurn] at h
    split at h
    · cases h; exact .inl rfl
    · rename_i w hw
      split_ifs at h with hp
      · exact .inr (.inl ⟨w, rfl, hw, hp, h⟩)
      · cases h; exact .inl rfl
  | rx =>
    simp only [takeTurn, rxTurn] at h
    split at h
    · cases h; exact .inl rfl
    · rename_i d hd
      split_ifs at h with hp
      · cases h; exact .inl rfl
      · exact .inr (.inr (.inl ⟨d, rfl, hd, by simpa using hp, h⟩))
  | nv =>
    simp only [takeTurn, nvTurn] at h
    split at h
    · cases h; exact .inl rfl
    · rename_i k hk
      split_ifs at h with hp
      · exact .inr (.inr (.inr (.inl ⟨k, rfl, hk, hp, h⟩)))
      · cases h; exact .inl rfl
  | controller => exact .inr (.inr (.inr (.inr (.inl ⟨rfl, h⟩))))
  | reset => cases h; exact .inr (.inr (.inr (.inr (.inr ⟨rfl, rfl⟩))))

/-- What a step can do, with the state each agent's code runs in written out: wait; run the instruction of the first pending
input; take the controller's step; reset. -/
theorem step_cases {s t : State} (h : step s = .next t) :
    t = { s with turns := s.turns.rest } ∨
    (∃ w, nextTurn s = .host ∧ s.hostIn.head? = some w ∧ s.phase = .idle ∧
      exec (decode (.command w)) { s with turns := s.turns.rest, hostIn := s.hostIn.rest } = .next t) ∨
    (∃ d, nextTurn s = .rx ∧ s.rxIn.head? = some d ∧ s.nvBusy = false ∧
      exec (decode (.rx d)) { s with turns := s.turns.rest, rxIn := s.rxIn.rest } = .next t) ∨
    (∃ k, nextTurn s = .nv ∧ s.nvIn.head? = some k ∧ s.phase = .qWaitNv ∧
      exec (decode (.nv k)) { s with turns := s.turns.rest, nvIn := s.nvIn.rest } = .next t) ∨
    (nextTurn s = .controller ∧ controllerStep { s with turns := s.turns.rest } = .next t) ∨
    (nextTurn s = .reset ∧ t = resetEvent { s with turns := s.turns.rest }) :=
  takeTurn_cases (step_eq s ▸ h)

/-- A property that the environment's bookkeeping, every instruction, the controller and the reset event keep is kept by every
step. -/
theorem step_keeps {P : State → Prop}
    (henv : ∀ s u h r n, P s → P { s with turns := u, hostIn := h, rxIn := r, nvIn := n })
    (hexec : ∀ i s t, P s → exec i s = .next t → P t)
    (hctl : ∀ s t, P s → controllerStep s = .next t → P t)
    (hreset : ∀ s, P s → P (resetEvent s))
    {s t : State} (hs : P s) (h : step s = .next t) : P t := by
  have h0 : P { s with turns := s.turns.rest } := henv s _ s.hostIn s.rxIn s.nvIn hs
  rcases takeTurn_cases (step_eq s ▸ h) with rfl | ⟨w, _, _, _, h⟩ | ⟨d, _, _, _, h⟩ | ⟨k, _, _, _, h⟩ |
    ⟨_, h⟩ | ⟨_, rfl⟩
  · exact h0
  · exact hexec _ _ _ (henv s _ _ s.rxIn s.nvIn hs) h
  · exact hexec _ _ _ (henv s _ s.hostIn _ s.nvIn hs) h
  · exact hexec _ _ _ (henv s _ s.hostIn s.rxIn _ hs) h
  · exact hctl _ _ h0 h
  · exact hreset _ h0

/-- What the controller's step can do, phase by phase. -/
theorem controllerStep_cases {s t : State} (h : controllerStep s = .next t) :
    ((s.phase = .idle ∨ s.phase = .qWaitNv) ∧ t = s) ∨
    (s.phase = .xscan ∧ s.cmdOp = 0x04 ∧ tryFrameStep s = .next t) ∨
    (s.phase = .xscan ∧ s.cmdOp = 0x05 ∧ recvStep s = .next t) ∨
    (s.phase = .hscan ∧ sendStep s = .next t) ∨
    (s.phase = .qFill ∧ evalFillStep s = .next t) ∨
    (s.phase = .qDrain ∧ evalDrainStep s = .next t) := by
  unfold controllerStep at h
  split at h
  · rename_i hp; cases h; exact .inl ⟨.inl hp, rfl⟩
  · rename_i hp
    split_ifs at h with h4 h5
    · exact .inr (.inl ⟨hp, h4, h⟩)
    · exact .inr (.inr (.inl ⟨hp, h5, h⟩))
  · rename_i hp; exact .inr (.inr (.inr (.inl ⟨hp, h⟩)))
  · rename_i hp; exact .inr (.inr (.inr (.inr (.inl ⟨hp, h⟩))))
  · rename_i hp; exact .inr (.inr (.inr (.inr (.inr ⟨hp, h⟩))))
  · rename_i hp; cases h; exact .inl ⟨.inr hp, rfl⟩

/-- PUSH has a step exactly while the flag store is not awaited. -/
theorem execPush_next {d : Byte} {s t : State} :
    execPush d s = .next t ↔ s.nvBusy = false ∧ pushByte d s = .next t := by
  unfold execPush
  split_ifs with h <;> simp [h]

/-- NV_DONE has a step exactly while the flag store is awaited. -/
theorem execNvDone_next {k : BitVec 1} {s t : State} :
    execNvDone k s = .next t ↔ s.phase = .qWaitNv ∧ nvFinish k s = t := by
  unfold execNvDone
  split_ifs with h <;> simp [h]

end Sys2Proof.Machine
end

