-- ==== Sys2Proof/Laws/Quest.lean ====
section
/-! SUPPORT. What the quest machine's shared operations can do, once each: the evaluation of a packet, what follows the fill, the
start of an EVAL, a received frame and the store's answer. -/

namespace Sys2Proof.Machine

/-- The linear states D..O, whose packets `EvalLinear` decides (R172). -/
def linearStates : List QState := [.d, .e, .f, .c, .o]

/-- The evaluation in Attract (R170, R171). -/
theorem evaluate_attract {s : State} (h : s.qS = .attract) :
    evaluate s = evalAttract s.inValid { s with inValid := false } := by
  unfold evaluate
  split <;> first | rfl | simp_all

/-- The evaluation in a linear state (R170, R172). -/
theorem evaluate_linear {s : State} (h : s.qS ∈ linearStates) :
    evaluate s = evalLinear s.qS s.inValid s.inRec { s with inValid := false } := by
  unfold evaluate
  split <;> first | rfl | simp_all [linearStates]

/-- The evaluation in N (R170, R174). -/
theorem evaluate_n {s : State} (h : s.qS = .n) : evaluate s = evalN s.inValid s.inRec { s with inValid := false } := by
  unfold evaluate
  split <;> first | rfl | simp_all

/-- The end of a Complete cycle (R167). -/
theorem evaluate_complete {s : State} (h : s.qS = .complete) : evaluate s = completeTick s := by
  unfold evaluate
  split <;> first | rfl | simp_all

/-- Every way an evaluation ends, state by state (R170 to R175, R167). -/
theorem evaluate_cases (s : State) :
    let t : State := { s with inValid := false }
    (s.qS = .attract ∧ s.inValid = true ∧
      evaluate s = transition (setFlag s.qflags 0) (derive (setFlag s.qflags 0)) .first t) ∨
    (s.qS = .attract ∧ s.inValid = false ∧
      evaluate s = finishState .attract { emit (.display s.anim) t with anim := nextAnim s.anim }) ∨
    (s.qS ∈ linearStates ∧ accepts s.cfg s.qflags s.qS s.inValid s.inRec = true ∧
      evaluate s = transition (setFlag s.qflags (catBit s.qS)) s.qS.succ .accept t) ∨
    (s.qS ∈ linearStates ∧ accepts s.cfg s.qflags s.qS s.inValid s.inRec = false ∧ evaluate s = finishState s.qS t) ∨
    (s.qS = .n ∧ s.inValid = true ∧ ∃ g, groupOf s.cfg (recType s.inRec) = some g ∧ setGroup s.gflags g = 0b111111 ∧
      evaluate s = transition (setFlag s.qflags 6) .complete .complete { t with gflags := setGroup s.gflags g }) ∨
    (s.qS = .n ∧ s.inValid = true ∧ ∃ g, groupOf s.cfg (recType s.inRec) = some g ∧ setGroup s.gflags g ≠ 0b111111 ∧
      evaluate s = finishState .n { t with gflags := setGroup s.gflags g }) ∨
    (s.qS = .n ∧ (s.inValid = false ∨ groupOf s.cfg (recType s.inRec) = none) ∧ evaluate s = finishState .n t) ∨
    (s.qS = .complete ∧ evaluate s = completeTick s) := by
  intro t
  by_cases hm : s.qS ∈ linearStates
  · rw [evaluate_linear hm, evalLinear]
    cases ha : accepts s.cfg s.qflags s.qS s.inValid s.inRec
    · exact .inr (.inr (.inr (.inl ⟨hm, rfl, rfl⟩)))
    · exact .inr (.inr (.inl ⟨hm, rfl, rfl⟩))
  by_cases h0 : s.qS = .attract
  · rw [evaluate_attract h0]
    cases hv : s.inValid
    · exact .inr (.inl ⟨h0, rfl, rfl⟩)
    · exact .inl ⟨h0, rfl, rfl⟩
  by_cases h7 : s.qS = .complete
  · exact .inr (.inr (.inr (.inr (.inr (.inr (.inr ⟨h7, evaluate_complete h7⟩))))))
  have h6 : s.qS = .n := by
    revert hm h0 h7
    cases s.qS <;> decide
  rw [evaluate_n h6]
  cases hv : s.inValid
  · exact .inr (.inr (.inr (.inr (.inr (.inr (.inl ⟨h6, .inl rfl, rfl⟩))))))
  cases hg : groupOf s.cfg (recType s.inRec) with
  | none =>
    refine .inr (.inr (.inr (.inr (.inr (.inr (.inl ⟨h6, .inr rfl, ?_⟩))))))
    unfold evalN
    rw [hg]
  | some g =>
    have he : evalN true s.inRec t = (if setGroup s.gflags g = 0b111111
        then transition (setFlag s.qflags 6) .complete .complete { t with gflags := setGroup s.gflags g }
        else finishState .n { t with gflags := setGroup s.gflags g }) := by
      unfold evalN
      rw [show groupOf t.cfg (recType s.inRec) = some g from hg]
    change _ ∨ _ ∨ _ ∨ _ ∨ (_ ∧ _ ∧ ∃ g', _ ∧ _ ∧ evalN true s.inRec t = _) ∨
      (_ ∧ _ ∧ ∃ g', _ ∧ _ ∧ evalN true s.inRec t = _) ∨ _
    rw [he]
    by_cases hf : setGroup s.gflags g = 0b111111
    · exact .inr (.inr (.inr (.inr (.inl ⟨h6, rfl, g, rfl, hf, if_pos hf⟩))))
    · exact .inr (.inr (.inr (.inr (.inr (.inl ⟨h6, rfl, g, rfl, hf, if_neg hf⟩)))))

/-- The evaluation writes only the mailbox flag, the quest registers, the outgoing record's flags, the store's request, the
effects, the results and the phase: the FIFO, the extractor, the latches and the environment stay. -/
theorem evaluate_frame (s : State) : evaluate s = { s with
    inValid := (evaluate s).inValid, anim := (evaluate s).anim, qflags := (evaluate s).qflags,
    gflags := (evaluate s).gflags, outRec := (evaluate s).outRec, qNext := (evaluate s).qNext,
    qKind := (evaluate s).qKind, nvBusy := (evaluate s).nvBusy, nvReq := (evaluate s).nvReq,
    fxOut := (evaluate s).fxOut, resStatus := (evaluate s).resStatus, resLen := (evaluate s).resLen,
    resBuf := (evaluate s).resBuf, phase := (evaluate s).phase } := by
  rcases evaluate_cases s with ⟨_, _, h⟩ | ⟨_, _, h⟩ | ⟨_, _, h⟩ | ⟨_, _, h⟩ | ⟨_, _, g, _, _, h⟩ | ⟨_, _, g, _, _, h⟩ |
    ⟨_, _, h⟩ | ⟨_, h⟩ <;> rw [h] <;> rfl

/-- An evaluation ends the EVAL or waits for the store. -/
theorem evaluate_phase (s : State) : (evaluate s).phase = .idle ∨ (evaluate s).phase = .qWaitNv := by
  rcases evaluate_cases s with ⟨_, _, h⟩ | ⟨_, _, h⟩ | ⟨_, _, h⟩ | ⟨_, _, h⟩ | ⟨_, _, g, _, _, h⟩ | ⟨_, _, g, _, _, h⟩ |
    ⟨_, _, h⟩ | ⟨_, h⟩ <;> rw [h] <;> first | exact .inl rfl | exact .inr rfl

/-- What follows the fill: the evaluation in Attract, the drain elsewhere. -/
theorem afterFill_cases (s : State) :
    (s.qS = .attract ∧ afterFill s = evaluate s) ∨ (s.qS ≠ .attract ∧ afterFill s = { s with phase := .qDrain }) := by
  unfold afterFill
  split_ifs with h
  · exact .inl ⟨h, rfl⟩
  · exact .inr ⟨h, rfl⟩

/-- The start of an EVAL, case by case (R166 to R168). -/
theorem evalStart_cases (s : State) :
    (s.bootDone = false ∧ evalStart s = finish .notBooted 0 noBytes s) ∨
    (s.bootDone = true ∧ s.qstate = .complete ∧
      evalStart s = { s with qS := .complete, inValid := false, phase := .qDrain }) ∨
    (s.bootDone = true ∧ s.qstate ≠ .complete ∧ s.inValid = false ∧
      evalStart s = { s with qS := s.qstate, phase := .qFill }) ∨
    (s.bootDone = true ∧ s.qstate ≠ .complete ∧ s.qstate ≠ .attract ∧ s.inValid = true ∧
      evalStart s = { s with qS := s.qstate, phase := .qDrain }) ∨
    (s.bootDone = true ∧ s.qstate = .attract ∧ s.inValid = true ∧
      evalStart s = evaluate { s with qS := .attract, phase := .qFill }) := by
  unfold evalStart
  split_ifs with hb hc hv
  · exact .inl ⟨hb, rfl⟩
  · exact .inr (.inl ⟨by simpa using hb, hc, rfl⟩)
  · rcases afterFill_cases { s with qS := s.qstate, phase := .qFill } with ⟨h, h'⟩ | ⟨h, h'⟩
    · have h : s.qstate = .attract := h
      exact .inr (.inr (.inr (.inr ⟨by simpa using hb, h, hv, by rw [h', h]⟩)))
    · exact .inr (.inr (.inr (.inl ⟨by simpa using hb, hc, h, hv, h'⟩)))
  · exact .inr (.inr (.inl ⟨by simpa using hb, hc, by simpa using hv, rfl⟩))

/-- A frame met by the fill: discarded, or taken into the mailbox. -/
theorem fillFrame_cases (f : Frame) (s : State) :
    (decodeRecord f = none ∧ fillFrame f s = s) ∨
    (∃ r, decodeRecord f = some r ∧ fillFrame f s = afterFill { s with inRec := r, inValid := true }) := by
  unfold fillFrame
  split
  · exact .inl ⟨by assumption, rfl⟩
  · rename_i r h; exact .inr ⟨r, h, rfl⟩

/-- A frame met by RECV: LEN_ERR, or taken into the mailbox. -/
theorem recvFrame_cases (f : Frame) (s : State) :
    (decodeRecord f = none ∧ recvFrame f s = finish .lenErr f.len (payloadResult f.payload) s) ∨
    (∃ r, decodeRecord f = some r ∧
      recvFrame f s = finish .ok 8 (recordResult r) { s with inRec := r, inValid := true }) := by
  unfold recvFrame
  split
  · exact .inl ⟨by assumption, rfl⟩
  · rename_i r h; exact .inr ⟨r, h, rfl⟩

/-- The effects of a transition touch `fx_out` alone. -/
theorem transitionEffects_frame (s : State) :
    transitionEffects s = { s with fxOut := (transitionEffects s).fxOut } := by
  unfold transitionEffects
  split <;> rfl

/-- NV_DONE's step writes the hold, the effects, the state, the pending transition, the results and the phase. -/
theorem nvFinish_frame (k : BitVec 1) (s : State) : nvFinish k s = { s with
    nvBusy := false, fxOut := (nvFinish k s).fxOut, qstate := s.qNext, qKind := .none, resStatus := 0x00, resLen := 1,
    resBuf := stateResult s.qNext, phase := .idle } := by
  unfold nvFinish
  dsimp only
  split_ifs <;> rw [transitionEffects_frame] <;> rfl

/-- BOOT's restore, field by field: everything but the effects. -/
theorem bootRestore_frame (u : Word32) (s : State) : bootRestore u s = { s with
    qflags := bootFlags u, gflags := 0, anim := .d, qstate := derive (bootFlags u),
    outRec := s.outRec.set 6 (bootFlags u), bootDone := true, fxOut := (bootRestore u s).fxOut, resStatus := 0x00,
    resLen := 1, resBuf := stateResult (derive (bootFlags u)), phase := .idle } := by
  unfold bootRestore
  dsimp only
  split_ifs <;> rfl

end Sys2Proof.Machine
end

