-- ==== Sys2Proof/Laws/Exec.lean ====
section
/-! SUPPORT. What any instruction can do when it answers a next state, once for all: the inversion of `exec`. -/

namespace Sys2Proof.Machine

/-- Every way an instruction answers a next state: a command that only reports (NOP, ILLEGAL, ENCODE, the second BOOT, RECV with a
full mailbox); the first BOOT; SET_UID or SET_TYPE, which leave byte 6 of the outgoing record; the start of a hunt by TRY_FRAME,
RECV or SEND; the start of an EVAL; PUSH; NV_DONE. -/
theorem exec_cases {i : Instr} {s t : State} (h : exec i s = .next t) :
    (∃ st op arg len buf, s.phase = .idle ∧ t = finish st len buf { s with cmdOp := op, cmdArg := arg } ∧
      (len = 0 ∨ len = 18)) ∨
    (∃ u, s.phase = .idle ∧ i = .boot u ∧ s.bootDone = false ∧ t = bootRestore u { s with cmdOp := 1, cmdArg := u }) ∨
    (∃ a o, s.phase = .idle ∧ (∀ h, o[6]'h = s.outRec[6]) ∧ ∃ op,
      t = finish .ok 0 noBytes { s with cmdOp := op, cmdArg := a, outRec := o }) ∨
    (∃ a, s.phase = .idle ∧ t = { s with cmdOp := 4, cmdArg := a, phase := .xscan }) ∨
    (∃ a, s.phase = .idle ∧ t = { s with cmdOp := 5, cmdArg := a, phase := .xscan }) ∨
    (∃ a, s.phase = .idle ∧ t = { s with cmdOp := 7, cmdArg := a, phase := .hscan, hs := false }) ∨
    (∃ a, s.phase = .idle ∧ t = evalStart { s with cmdOp := 8, cmdArg := a }) ∨
    (∃ d, i = .push d ∧ s.nvBusy = false ∧ pushByte d s = .next t) ∨
    (∃ k, i = .nvDone k ∧ s.phase = .qWaitNv ∧ t = nvFinish k s) := by
  cases i with
  | nop a =>
    rw [exec, execNop] at h
    obtain ⟨hp, rfl⟩ := accept_next.1 h
    exact .inl ⟨.ok, 0, a, 0, noBytes, hp, rfl, .inl rfl⟩
  | illegal op a =>
    rw [exec, execIllegal] at h
    obtain ⟨hp, rfl⟩ := accept_next.1 h
    exact .inl ⟨.illegal, op, a, 0, noBytes, hp, rfl, .inl rfl⟩
  | boot u =>
    rw [exec, execBoot] at h
    obtain ⟨hp, rfl⟩ := accept_next.1 h
    dsimp only
    split_ifs with hb
    · exact .inl ⟨_, 1, u, 0, noBytes, hp, rfl, .inl rfl⟩
    · exact .inr (.inl ⟨u, hp, rfl, by simpa using hb, rfl⟩)
  | setUid u =>
    rw [exec, execSetUid] at h
    obtain ⟨hp, rfl⟩ := accept_next.1 h
    exact .inr (.inr (.inl ⟨u, _, hp, by simp, _, rfl⟩))
  | setType ty m g =>
    rw [exec, execSetType] at h
    obtain ⟨hp, rfl⟩ := accept_next.1 h
    exact .inr (.inr (.inl ⟨_, _, hp, by simp, _, rfl⟩))
  | tryFrame a =>
    rw [exec, execTryFrame] at h
    obtain ⟨hp, rfl⟩ := accept_next.1 h
    exact .inr (.inr (.inr (.inl ⟨a, hp, rfl⟩)))
  | recv a =>
    rw [exec, execRecv] at h
    obtain ⟨hp, rfl⟩ := accept_next.1 h
    dsimp only
    split_ifs
    · exact .inl ⟨_, 5, a, 0, noBytes, hp, rfl, .inl rfl⟩
    · exact .inr (.inr (.inr (.inr (.inl ⟨a, hp, rfl⟩))))
  | encode a =>
    rw [exec, execEncode] at h
    obtain ⟨hp, rfl⟩ := accept_next.1 h
    exact .inl ⟨_, 6, a, 18, _, hp, rfl, .inr rfl⟩
  | send a =>
    rw [exec, execSend] at h
    obtain ⟨hp, rfl⟩ := accept_next.1 h
    exact .inr (.inr (.inr (.inr (.inr (.inl ⟨a, hp, rfl⟩)))))
  | eval a =>
    rw [exec, execEval] at h
    obtain ⟨hp, rfl⟩ := accept_next.1 h
    exact .inr (.inr (.inr (.inr (.inr (.inr (.inl ⟨a, hp, rfl⟩))))))
  | push d =>
    have h := execPush_next.1 h
    exact .inr (.inr (.inr (.inr (.inr (.inr (.inr (.inl ⟨d, rfl, h.1, h.2⟩)))))))
  | nvDone k =>
    have h := execNvDone_next.1 h
    exact .inr (.inr (.inr (.inr (.inr (.inr (.inr (.inr ⟨k, rfl, h.1, h.2.symm⟩)))))))

end Sys2Proof.Machine
end

