-- ==== Sys2Proof/Laws/Queue.lean ====
section
/-! SUPPORT. The FIFO as a list of bytes (what `Pop` and PUSH do to it), and runs of steps. -/

namespace Sys2Proof.Machine

/-! ### The FIFO as a list -/

/-- The list of unread bytes has the length `level`. -/
@[simp] theorem fifoBytes_length (s : State) : (fifoBytes s).length = level s := by simp [fifoBytes]

/-- The FIFO is a function of the parameters, the ring and the cursors. -/
theorem fifoBytes_congr {s t : State} (hc : t.cfg = s.cfg) (hr : t.ring = s.ring) (hw : t.wr = s.wr) (hd : t.rd = s.rd) :
    fifoBytes t = fifoBytes s := by
  simp only [fifoBytes, level, hc, hr, hw, hd]

/-- Well-formedness of the FIFO depends on the parameters, the ring and the cursors alone. -/
theorem FifoWf.congr {s t : State} (h : FifoWf s) (hc : t.cfg = s.cfg) (hr : t.ring = s.ring) (hw : t.wr = s.wr)
    (hd : t.rd = s.rd) : FifoWf t :=
  ⟨hc ▸ h.sizeLow, hc ▸ h.sizeHigh, by rw [hc, hw]; exact h.wrInside, by rw [hc, hd]; exact h.rdInside,
    by rw [hr]; exact h.canonical, by rw [hc, hr]; exact h.inside⟩

/-- The level, without the modulus. -/
theorem level_eq {s : State} (h : FifoWf s) :
    level s = if s.rd.toNat ≤ s.wr.toNat then s.wr.toNat - s.rd.toNat
      else s.wr.toNat + s.cfg.ringSize - s.rd.toNat := by
  have h3 := h.wrInside
  have h4 := h.rdInside
  unfold level
  split_ifs with hle
  · rw [show s.wr.toNat + s.cfg.ringSize - s.rd.toNat = (s.wr.toNat - s.rd.toNat) + s.cfg.ringSize by omega,
      Nat.add_mod_right, Nat.mod_eq_of_lt (by omega)]
  · exact Nat.mod_eq_of_lt (by omega)

/-- At most N-1 bytes are unread (R25). -/
theorem level_lt {s : State} (h : FifoWf s) : level s < s.cfg.ringSize :=
  Nat.mod_lt _ (by have := h.sizeLow; omega)

/-- The FIFO is empty exactly when its cursors are equal (R25). -/
theorem fifoBytes_eq_nil {s : State} (h : FifoWf s) : fifoBytes s = [] ↔ s.rd = s.wr := by
  rw [← List.length_eq_zero_iff, fifoBytes_length, level_eq h, BitVec.toNat_eq]
  have h3 := h.wrInside
  have h4 := h.rdInside
  split_ifs <;> omega

/-- The cursor's advance without the modulus. -/
theorem nextCursor_cases {s : State} (c : BitVec 8) (h : FifoWf s) (hc : c.toNat < s.cfg.ringSize) :
    (nextCursor s c).toNat = if c.toNat + 1 = s.cfg.ringSize then 0 else c.toNat + 1 := by
  have h1 := h.sizeLow
  rw [nextCursor_toNat c (by omega) h.sizeHigh]
  split_ifs with he
  · rw [he, Nat.mod_self]
  · exact Nat.mod_eq_of_lt (by omega)

/-- Taking a byte keeps the FIFO well formed. -/
theorem FifoWf.advance {s : State} (h : FifoWf s) : FifoWf { s with rd := nextCursor s s.rd } :=
  ⟨h.sizeLow, h.sizeHigh, h.wrInside, by
    have h1 := h.sizeLow
    change (nextCursor s s.rd).toNat < s.cfg.ringSize
    rw [nextCursor_toNat _ (by omega) h.sizeHigh]
    exact Nat.mod_lt _ (by omega), h.canonical, h.inside⟩

/-- Adding a byte keeps the FIFO well formed. -/
theorem FifoWf.write {s : State} (h : FifoWf s) (d : Byte) :
    FifoWf { s with ring := ringWrite s.ring s.wr.toNat d, wr := nextCursor s s.wr } :=
  ⟨h.sizeLow, h.sizeHigh, by
    have h1 := h.sizeLow
    change (nextCursor s s.wr).toNat < s.cfg.ringSize
    rw [nextCursor_toNat _ (by omega) h.sizeHigh]
    exact Nat.mod_lt _ (by omega), h.rdInside, wf_ringWrite h.canonical _ _, fun c hc => by
    rcases mem_ringWrite hc with hm | hm
    · exact h.inside c hm
    · rw [hm]; exact h.wrInside⟩

/-- A FIFO that is not empty: its first byte is the one at `rd`, and the rest is what is left after it is taken. -/
theorem fifoBytes_cons {s : State} (h : FifoWf s) (hne : s.rd ≠ s.wr) :
    fifoBytes s = ringRead s.ring s.rd.toNat :: fifoBytes { s with rd := nextCursor s s.rd } := by
  have h3 := h.wrInside
  have h4 := h.rdInside
  have hn := nextCursor_cases s.rd h h4
  have hne' : s.rd.toNat ≠ s.wr.toNat := fun e => hne (BitVec.toNat_inj.1 e)
  have hl : level s = level { s with rd := nextCursor s s.rd } + 1 := by
    rw [level_eq h, level_eq h.advance]
    dsimp only
    rw [hn]
    split_ifs <;> omega
  unfold fifoBytes
  rw [hl, List.range_succ_eq_map, List.map_cons, List.map_map, Nat.add_zero, Nat.mod_eq_of_lt h4]
  congr 1
  refine List.map_congr_left fun i _ => ?_
  simp only [Function.comp, Nat.succ_eq_add_one]
  rw [hn]
  split_ifs with he
  · rw [show s.rd.toNat + (i + 1) = 0 + i + s.cfg.ringSize by omega, Nat.add_mod_right]
  · congr 2; omega

/-- `full` says that N-1 bytes are unread (R25). -/
theorem fifoFull_iff {s : State} (h : FifoWf s) : fifoFull s = true ↔ level s = s.cfg.ringSize - 1 := by
  have h1 := h.sizeLow
  have h3 := h.wrInside
  have h4 := h.rdInside
  have hn := nextCursor_cases s.wr h h3
  rw [nextCursor_toNat _ (by omega) h.sizeHigh] at hn
  unfold fifoFull
  rw [beq_iff_eq, level_eq h, hn]
  split_ifs <;> omega

/-- A byte written at `wr` is added at the end. -/
theorem fifoBytes_write {s : State} (h : FifoWf s) (hf : fifoFull s = false) (d : Byte) :
    fifoBytes { s with ring := ringWrite s.ring s.wr.toNat d, wr := nextCursor s s.wr } = fifoBytes s ++ [d] := by
  have h1 := h.sizeLow
  have h3 := h.wrInside
  have h4 := h.rdInside
  have hn := nextCursor_cases s.wr h h3
  have hnf : level s ≠ s.cfg.ringSize - 1 := fun e => by rw [(fifoFull_iff h).2 e] at hf; cases hf
  have hlt := level_lt h
  have hle := level_eq h
  have hl : level { s with ring := ringWrite s.ring s.wr.toNat d, wr := nextCursor s s.wr } = level s + 1 := by
    rw [level_eq (h.write d), hle]
    dsimp only
    rw [hn]
    split_ifs at hle ⊢ <;> omega
  unfold fifoBytes
  rw [hl, List.range_succ, List.map_append, List.map_singleton]
  dsimp only
  have hw : (s.rd.toNat + level s) % s.cfg.ringSize = s.wr.toNat := by
    rw [hle]
    split_ifs
    · rw [show s.rd.toNat + (s.wr.toNat - s.rd.toNat) = s.wr.toNat by omega, Nat.mod_eq_of_lt h3]
    · rw [show s.rd.toNat + (s.wr.toNat + s.cfg.ringSize - s.rd.toNat) = s.wr.toNat + s.cfg.ringSize by omega,
        Nat.add_mod_right, Nat.mod_eq_of_lt h3]
  congr 1
  · refine List.map_congr_left fun i hi => ?_
    have hi : i < level s := List.mem_range.1 hi
    rw [ringRead_ringWrite h.canonical, if_neg]
    have hm := Nat.mod_lt (s.rd.toNat + i) (show 0 < s.cfg.ringSize by omega)
    by_cases hwrap : s.rd.toNat + i < s.cfg.ringSize
    · rw [Nat.mod_eq_of_lt hwrap]
      split_ifs at hle <;> omega
    · rw [show s.rd.toNat + i = (s.rd.toNat + i - s.cfg.ringSize) + s.cfg.ringSize by omega, Nat.add_mod_right,
        Nat.mod_eq_of_lt (by omega)]
      split_ifs at hle <;> omega
  · rw [ringRead_ringWrite h.canonical, if_pos hw]

/-! ### Runs of steps -/

@[simp] theorem runSteps_zero (s : State) : runSteps 0 s = .next s := rfl

/-- A run of any machine, from its first step. -/
theorem coreRun_succ (M : Host.Core) (n : Nat) (s : M.State) : M.run (n + 1) s =
    match M.step s with
    | .next t => M.run n t
    | .fault r => .fault r
    | .refused r => .refused r := rfl

/-- A run's first step. -/
theorem runSteps_eq (n : Nat) (s : State) : runSteps (n + 1) s =
    match step s with
    | .next t => runSteps n t
    | .fault r => .fault r
    | .refused r => .refused r := by
  refine (coreRun_succ Sys2Proof.core n s).trans ?_
  cases h : step s with
  | next t => rw [show Sys2Proof.core.step s = .next t from h]; rfl
  | fault r => rw [show Sys2Proof.core.step s = .fault r from h]; rfl
  | refused r => rw [show Sys2Proof.core.step s = .refused r from h]; rfl

/-- A run of one step more, from its first step. -/
theorem runSteps_succ {n : Nat} {s t : State} (h : step s = .next t) : runSteps (n + 1) s = runSteps n t := by
  rw [runSteps_eq, h]

/-- Runs compose. -/
theorem runSteps_add {m n : Nat} {s t : State} (h : runSteps m s = .next t) : runSteps (m + n) s = runSteps n t := by
  induction m generalizing s with
  | zero => cases h; rw [Nat.zero_add]
  | succ m ih =>
    rw [show m + 1 + n = m + n + 1 by omega]
    rw [runSteps_eq] at h ⊢
    cases hs : step s with
    | next u => rw [hs] at h; exact ih h
    | fault r => rw [hs] at h; cases h
    | refused r => rw [hs] at h; cases h

/-- With no turn listed, a step is the controller's (notes/assumptions/1.md). -/
theorem step_controller {s : State} (h : s.turns = .nil) : step s = controllerStep s := by
  rw [step_eq, nextTurn, h, Supply.rest_nil]
  change controllerStep { s with turns := .nil } = _
  rw [← h]

end Sys2Proof.Machine
end

