-- ==== Sys2Proof/Laws/Hunt.lean ====
section
/-! SUPPORT. A frame hunt over the FIFO's bytes, whichever command runs it: one byte, a stretch that completes no
wanted frame, and the first wanted frame. `HuntsBy` says that the controller's step is that hunt in every state of the same phase and command. -/

namespace Sys2Proof.Machine

/-- In the phase and with the command of `s`, the controller's step is the hunt with these two continuations. -/
def HuntsBy (e : State → State) (g : Frame → State → State) (s : State) : Prop :=
  ∀ u : State, u.phase = s.phase → u.cmdOp = s.cmdOp → controllerStep u = huntStep e g u

theorem huntsBy_tryFrame {s : State} (hp : s.phase = .xscan) (hc : s.cmdOp = 0x04) :
    HuntsBy (finish .noFrame 0 noBytes) (fun f => finish .ok f.len (payloadResult f.payload)) s := by
  intro u h1 h2
  unfold controllerStep
  rw [h1, hp]
  dsimp only
  rw [h2, hc, if_pos rfl, tryFrameStep]

theorem huntsBy_recv {s : State} (hp : s.phase = .xscan) (hc : s.cmdOp = 0x05) :
    HuntsBy (finish .noFrame 0 noBytes) recvFrame s := by
  intro u h1 h2
  unfold controllerStep
  rw [h1, hp]
  dsimp only
  rw [h2, hc, if_neg (by decide), if_pos rfl, recvStep]

theorem huntsBy_fill {s : State} (hp : s.phase = .qFill) : HuntsBy afterFill fillFrame s := by
  intro u h1 _
  unfold controllerStep
  rw [h1, hp, evalFillStep]

theorem huntsBy_drain {s : State} (hp : s.phase = .qDrain) : HuntsBy evaluate (fun _ s => s) s := by
  intro u h1 _
  unfold controllerStep
  rw [h1, hp, evalDrainStep]

/-- A hunt's step on the first of the unread bytes. -/
theorem hunt_byte {e : State → State} {g : Frame → State → State} {s : State} {b : Byte} {l : List Byte}
    (hh : HuntsBy e g s) (hw : FifoWf s) (ht : s.turns = .nil) (hb : fifoBytes s = b :: l) :
    let u : State := { s with rd := nextCursor s s.rd }
    FifoWf u ∧ fifoBytes u = l ∧
      step s = .next (match (xfeed b u).2 with | none => (xfeed b u).1 | some f => g f (xfeed b u).1) := by
  have hne : s.rd ≠ s.wr := fun h => by rw [(fifoBytes_eq_nil hw).2 h] at hb; cases hb
  rw [fifoBytes_cons hw hne] at hb
  obtain ⟨rfl, hl⟩ := List.cons.inj hb
  refine ⟨hw.advance, hl, ?_⟩
  rw [step_controller ht, hh s rfl rfl]
  exact huntStep_byte hne hw.rdInside

/-- A hunt's step on an empty FIFO. -/
theorem hunt_end {e : State → State} {g : Frame → State → State} {s : State}
    (hh : HuntsBy e g s) (hw : FifoWf s) (ht : s.turns = .nil) (hb : fifoBytes s = []) : step s = .next (e s) := by
  rw [step_controller ht, hh s rfl rfl, huntStep_empty ((fifoBytes_eq_nil hw).1 hb)]

/-- What the extractor holds depends on its three registers alone. -/
theorem Holds.congr {s t : State} {p : Progress} (h : Holds s p) (hx : t.xs = s.xs) (hl : t.xlen = s.xlen)
    (hb : t.xbuf = s.xbuf) : Holds t p :=
  ⟨hx.trans h.sync, by rw [hl]; exact h.length, by rw [hb]; exact h.bytes⟩

/-- Where the extractor stands depends on its three registers alone. -/
theorem Stands.congr {s t : State} {p : Progress} (h : Stands s p) (hx : t.xs = s.xs) (hl : t.xlen = s.xlen)
    (hb : t.xbuf = s.xbuf) : Stands t p := ⟨hx.trans h.1, fun hc => (h.2 hc).congr hx hl hb⟩

/-- What is held is also where the extractor stands. -/
theorem Holds.stands {s : State} {p : Progress} (h : Holds s p) : Stands s p := ⟨h.sync, fun _ => h⟩

/-- A byte fed moves the extractor on as it moves its place in the stream (R115, R116). -/
theorem xfeed_holds {s : State} {p : Progress} (h : Holds s p) (b : Byte) : Holds (xfeed b s).1 (p.feed b) := by
  obtain ⟨hx, hlen, hbytes⟩ := h
  rcases p with ⟨_ | _, q⟩
  · by_cases hb : b = byteB
    · simp only [xfeed, hx, Progress.feed, if_pos hb, if_pos (show b = 0x42 from hb)]
      exact ⟨rfl, rfl, fun i => by simp⟩
    · simp only [xfeed, hx, Progress.feed, if_neg hb, if_neg (show ¬b = 0x42 from hb)]
      exact ⟨hx, hlen, hbytes⟩
  · dsimp only at hlen hbytes
    by_cases hb : b = byteE
    · simp only [xfeed, hx, Progress.feed, if_pos hb, if_pos (show b = 0x45 from hb)]
      exact ⟨rfl, hlen, hbytes⟩
    · simp only [xfeed, hx, Progress.feed, if_neg hb, if_neg (show ¬b = 0x45 from hb)]
      refine ⟨rfl, ?_, fun i => ?_⟩
      · simp only [BitVec.toNat_ofNat, List.length_append, List.length_singleton]
        omega
      · have hi := hbytes i
        have hi16 := i.isLt
        rw [Fin.getElem_fin] at hi ⊢
        dsimp only
        by_cases hlt : s.xlen.toNat < 16
        · have hq : s.xlen.toNat = q.length := by omega
          rw [if_pos hlt, Vector.getElem_setIfInBounds]
          by_cases hpos : s.xlen.toNat = i.val
          · rw [if_pos hpos, List.getD_append_right _ _ _ _ (by omega), show i.val - q.length = 0 by omega]; rfl
          · rw [if_neg hpos, hi]
            by_cases hil : i.val < q.length
            · rw [List.getD_append _ _ _ _ hil]
            · rw [List.getD_eq_default _ _ (by omega), List.getD_eq_default _ _ (by simp; omega)]
        · rw [if_neg hlt, hi, List.getD_append _ _ _ _ (by omega)]

/-- What is known of the extractor in HUNT alone is kept too: the start marker clears its registers. -/
theorem xfeed_stands {s : State} {p : Progress} (h : Stands s p) (b : Byte) : Stands (xfeed b s).1 (p.feed b) := by
  obtain ⟨hx, hc⟩ := h
  rcases p with ⟨_ | _, q⟩
  · by_cases hb : b = byteB
    · simp only [xfeed, hx, Progress.feed, if_pos hb, if_pos (show b = 0x42 from hb)]
      exact ⟨rfl, fun _ => ⟨rfl, rfl, fun i => by simp⟩⟩
    · simp only [xfeed, hx, Progress.feed, if_neg hb, if_neg (show ¬b = 0x42 from hb)]
      exact ⟨hx, fun h => by cases h⟩
  · have h' := xfeed_holds (hc rfl) b
    exact h'.stands

/-- Over a byte and then the rest, wherever the cursors are. -/
theorem Follows.cons {s u t : State} {b : Byte} {l : List Byte} (h : Follows (xfeed b s).1 t l)
    (hx : u.xs = s.xs := by rfl) (hl : u.xlen = s.xlen := by rfl) (hb : u.xbuf = s.xbuf := by rfl) : Follows u t (b :: l) :=
  fun _ => ⟨fun hs => (h _).1 (xfeed_stands (hs.congr hx.symm hl.symm hb.symm) b),
    fun hs => (h _).2 (xfeed_holds (hs.congr hx.symm hl.symm hb.symm) b)⟩

/-- The end marker of a frame hands it over; no other byte does (R115). -/
theorem xfeed_snd {s : State} {p : Progress} (h : s.xs = p.sync) (b : Byte) :
    (xfeed b s).2 = if p.sync = .collect ∧ b = byteE then some { len := s.xlen, payload := s.xbuf } else none := by
  rcases p with ⟨_ | _, q⟩ <;> simp only [xfeed, show s.xs = _ from h]
  · by_cases hb : b = byteB <;> simp [hb]
  · by_cases hb : b = byteE <;> simp [hb]

/-- After a frame's end marker, its payload is still held (R116). -/
theorem xfeed_end {s : State} {q : List Byte} (h : Holds s ⟨.collect, q⟩) :
    (xfeed byteE s).1 = { s with xs := .hunt } := by
  simp only [xfeed, h.sync, if_pos]

/-- The continuation `g` passes over every frame that is not wanted. -/
def Passes (want : List Byte → Bool) (g : Frame → State → State) : Prop :=
  ∀ p u, want p = false → Holds u ⟨.hunt, p⟩ → g { len := u.xlen, payload := u.xbuf } u = u

theorem passes_anyLength (g : Frame → State → State) : Passes anyLength g := fun _ _ h => by cases h

theorem passes_fill : Passes decodable fillFrame := fun p u h hu => by
  have hp : p.length ≠ 16 := by simpa [decodable] using h
  have hl : u.xlen ≠ 16 := fun e => hp (by
    have := hu.length
    rw [e] at this
    simp only [BitVec.reduceToNat] at this
    omega)
  simp only [fillFrame, decodeRecord, if_neg hl]

/-- A hunt's step on a byte that ends no wanted frame: the byte is fed, and nothing else happens. -/
theorem hunt_feed {e : State → State} {g : Frame → State → State} {want : List Byte → Bool} {s : State} {p : Progress}
    {b : Byte} {l : List Byte} (hh : HuntsBy e g s) (hg : Passes want g) (hw : FifoWf s) (ht : s.turns = .nil)
    (hs : Stands s p) (hb : fifoBytes s = b :: l) (hn : ¬(p.sync = .collect ∧ b = byteE ∧ want p.payload = true)) :
    step s = .next (xfeed b { s with rd := nextCursor s s.rd }).1 := by
  obtain ⟨_, _, h⟩ := hunt_byte hh hw ht hb
  have hs' : Stands { s with rd := nextCursor s s.rd } p := hs.congr rfl rfl rfl
  rw [h, xfeed_snd hs'.1 b]
  split_ifs with hc
  · obtain ⟨hc1, rfl⟩ := hc
    have hp : p = ⟨.collect, p.payload⟩ := by rw [← hc1]
    have hho := hs'.2 hc1
    rw [hp] at hho
    have hfr : want p.payload = false := by
      cases hwant : want p.payload
      · rfl
      · exact absurd ⟨hc1, rfl, hwant⟩ hn
    rw [xfeed_end hho]
    exact congrArg Host.Outcome.next (hg p.payload { s with rd := nextCursor s s.rd, xs := .hunt } hfr
      ⟨rfl, hho.length, hho.bytes⟩)
  · rfl

/-- A stretch of bytes that completes no wanted frame is consumed, a step a byte, and the extractor moves on over it. -/
theorem hunt_scan {e : State → State} {g : Frame → State → State} {want : List Byte → Bool} (l rest : List Byte) {s : State}
    {p : Progress} (hh : HuntsBy e g s) (hg : Passes want g) (hw : FifoWf s) (ht : s.turns = .nil) (hs : Stands s p)
    (hn : nextFrame want p l = none) (hb : fifoBytes s = l ++ rest) : ∃ t,
      runSteps l.length s = .next t ∧ FifoWf t ∧ fifoBytes t = rest ∧ Follows s t l ∧
      t = { s with rd := t.rd, xs := t.xs, xlen := t.xlen, xbuf := t.xbuf } := by
  induction l generalizing s p with
  | nil => exact ⟨s, rfl, hw, hb, fun _ => ⟨id, id⟩, rfl⟩
  | cons b l ih =>
    rw [nextFrame] at hn
    split_ifs at hn with hc
    have hstep := hunt_feed hh hg hw ht hs hb hc
    obtain ⟨hw', hb', _⟩ := hunt_byte hh hw ht hb
    have hs' : Stands { s with rd := nextCursor s s.rd } p := hs.congr rfl rfl rfl
    have hu := xfeed_fst b { s with rd := nextCursor s s.rd }
    obtain ⟨t, h1, h2, h3, h4, h5⟩ := ih (s := (xfeed b { s with rd := nextCursor s s.rd }).1) (p := p.feed b)
      (by intro v hv1 hv2; exact hh v (by simpa using hv1) (by simpa using hv2))
      (hw'.congr (by simp) (by simp) (by simp) (by simp)) (by simpa using ht) (xfeed_stands hs' b) hn
      ((fifoBytes_congr (by simp) (by simp) (by simp) (by simp)).trans hb')
    refine ⟨t, by rw [List.length_cons, runSteps_succ hstep]; exact h1, h2, h3,
      h4.cons (s := { s with rd := nextCursor s s.rd }), ?_⟩
    rw [h5, hu]

/-- A drain consumes any stretch of bytes, a step a byte, and passes over every frame in it (R169). -/
theorem drain_scan (l rest : List Byte) {s : State} (hp : s.phase = .qDrain) (hw : FifoWf s) (ht : s.turns = .nil)
    (hb : fifoBytes s = l ++ rest) : ∃ t, runSteps l.length s = .next t ∧ FifoWf t ∧ fifoBytes t = rest ∧ Follows s t l ∧
      t = { s with rd := t.rd, xs := t.xs, xlen := t.xlen, xbuf := t.xbuf } := by
  induction l generalizing s with
  | nil => exact ⟨s, rfl, hw, hb, fun _ => ⟨id, id⟩, rfl⟩
  | cons b l ih =>
    obtain ⟨hw', hb', h⟩ := hunt_byte (huntsBy_drain hp) hw ht hb
    have hs : step s = .next (xfeed b { s with rd := nextCursor s s.rd }).1 := by rw [h]; split <;> rfl
    obtain ⟨t, h1, h2, h3, h4, h5⟩ := ih (s := (xfeed b { s with rd := nextCursor s s.rd }).1) (by simpa using hp)
      (hw'.congr (by simp) (by simp) (by simp) (by simp)) (by simpa using ht)
      ((fifoBytes_congr (by simp) (by simp) (by simp) (by simp)).trans hb')
    refine ⟨t, (runSteps_succ hs).trans h1, h2, h3, h4.cons (s := { s with rd := nextCursor s s.rd }), ?_⟩
    rw [h5, xfeed_fst]

/-- HUNT skips a byte that is not the start marker (R115). -/
theorem hunt_skip {e : State → State} {g : Frame → State → State} {s : State} {b : Byte} {l : List Byte}
    (hh : HuntsBy e g s) (hw : FifoWf s) (ht : s.turns = .nil) (hx : s.xs = .hunt) (hbB : b ≠ byteB)
    (hb : fifoBytes s = b :: l) : step s = .next { s with rd := nextCursor s s.rd } := by
  obtain ⟨_, _, h⟩ := hunt_byte hh hw ht hb
  rw [h]
  simp only [xfeed, hx, if_neg hbB]

/-- A stretch of noise is skipped, a step a byte, with the extractor's registers as they were, whatever they hold. -/
theorem hunt_noise {e : State → State} {g : Frame → State → State} (noise rest : List Byte) {s : State}
    (hh : HuntsBy e g s) (hw : FifoWf s) (ht : s.turns = .nil) (hx : s.xs = .hunt) (hn : byteB ∉ noise)
    (hb : fifoBytes s = noise ++ rest) : ∃ t,
      runSteps noise.length s = .next t ∧ FifoWf t ∧ fifoBytes t = rest ∧ t = { s with rd := t.rd } := by
  induction noise generalizing s with
  | nil => exact ⟨s, rfl, hw, hb, rfl⟩
  | cons b l ih =>
    have hbB : b ≠ byteB := fun h => hn (by rw [h]; exact List.mem_cons_self)
    have hs := hunt_skip hh hw ht hx hbB hb
    obtain ⟨hw', hb', _⟩ := hunt_byte hh hw ht hb
    obtain ⟨t, h1, h2, h3, h4⟩ := ih (s := { s with rd := nextCursor s s.rd }) hh hw' ht hx
      (fun h => hn (List.mem_cons_of_mem _ h)) hb'
    exact ⟨t, by rw [List.length_cons, runSteps_succ hs]; exact h1, h2, h3, h4⟩

/-- The bytes up to the first wanted frame's end: a stretch without one, and its end marker. -/
theorem nextFrame_split {want : List Byte → Bool} {l q rest : List Byte} {p : Progress}
    (h : nextFrame want p l = some (q, rest)) : ∃ a, l = a ++ byteE :: rest ∧ nextFrame want p a = none ∧
      p.scan a = ⟨.collect, q⟩ ∧ want q = true := by
  induction l generalizing p with
  | nil => cases h
  | cons b l ih =>
    rw [nextFrame] at h
    split_ifs at h with hc
    · cases h
      exact ⟨[], by rw [hc.2.1]; rfl, rfl, by rw [← hc.1]; rfl, hc.2.2⟩
    · obtain ⟨a, rfl, h2, h3, h4⟩ := ih h
      exact ⟨b :: a, rfl, by rw [nextFrame, if_neg hc]; exact h2, h3, h4⟩

/-- A hunt up to the first wanted frame: its end marker hands the frame over, with the payload still held. -/
theorem hunt_frame {e : State → State} {g : Frame → State → State} {want : List Byte → Bool} {q rest : List Byte} {s : State}
    {p : Progress} (hh : HuntsBy e g s) (hg : Passes want g) (hw : FifoWf s) (ht : s.turns = .nil) (hs : Stands s p)
    (hn : nextFrame want p (fifoBytes s) = some (q, rest)) : ∃ u : State,
      FifoWf u ∧ fifoBytes u = rest ∧ u = { s with rd := u.rd, xs := .hunt, xlen := u.xlen, xbuf := u.xbuf } ∧
      Holds u ⟨.hunt, q⟩ ∧
      runSteps ((fifoBytes s).length - rest.length) s = .next (g { len := u.xlen, payload := u.xbuf } u) := by
  obtain ⟨a, hl, ha, hsc, _⟩ := nextFrame_split hn
  obtain ⟨t, t1, t2, t3, t4, t6⟩ := hunt_scan a (byteE :: rest) hh hg hw ht hs ha hl
  have hho : Holds t ⟨.collect, q⟩ := by
    have h := (t4 p).1 hs
    rw [hsc] at h
    exact h.2 rfl
  have th : HuntsBy e g t := by intro v hv1 hv2; rw [t6] at hv1 hv2; exact hh v hv1 hv2
  have tt : t.turns = .nil := by rw [t6]; exact ht
  obtain ⟨w1, w2, w3⟩ := hunt_byte th t2 tt t3
  have hho' : Holds { t with rd := nextCursor t t.rd } ⟨.collect, q⟩ := hho.congr rfl rfl rfl
  rw [xfeed_snd hho'.sync, if_pos ⟨rfl, rfl⟩, xfeed_end hho'] at w3
  refine ⟨{ t with rd := nextCursor t t.rd, xs := .hunt }, w1.congr rfl rfl rfl rfl,
    by rw [← w2]; exact fifoBytes_congr rfl rfl rfl rfl, ?_, ⟨rfl, hho.length, hho.bytes⟩, ?_⟩
  · rw [t6]
  · rw [show (fifoBytes s).length - rest.length = a.length + 1 by rw [hl]; simp; omega, runSteps_add t1, runSteps_succ w3,
      runSteps_zero]

/-- Noise is passed over in HUNT. -/
theorem nextFrame_noise {want : List Byte → Bool} {noise : List Byte} (l q : List Byte) (h : byteB ∉ noise) :
    nextFrame want ⟨.hunt, q⟩ (noise ++ l) = nextFrame want ⟨.hunt, q⟩ l := by
  induction noise with
  | nil => rfl
  | cons b m ih =>
    have hb : ¬b = 0x42 := fun e => h (by rw [e]; exact List.mem_cons_self)
    rw [List.cons_append, nextFrame, if_neg (by simp), Progress.feed]
    simp only [if_neg hb]
    exact ih fun hm => h (List.mem_cons_of_mem _ hm)

/-- The payload bytes of a frame are collected. -/
theorem nextFrame_payload {want : List Byte → Bool} {p : List Byte} (l q : List Byte) (h : byteE ∉ p) :
    nextFrame want ⟨.collect, q⟩ (p ++ l) = nextFrame want ⟨.collect, q ++ p⟩ l := by
  induction p generalizing q with
  | nil => rw [List.append_nil]; rfl
  | cons b m ih =>
    have hb : ¬b = 0x45 := fun e => h (by rw [e]; exact List.mem_cons_self)
    rw [List.cons_append, nextFrame, if_neg fun e => hb e.2.1, Progress.feed]
    simp only [if_neg hb]
    rw [ih _ fun hm => h (List.mem_cons_of_mem _ hm), List.append_assoc, List.singleton_append]

/-- A frame between its markers, after noise, is the first frame (R117, R118). -/
theorem nextFrame_whole {noise p rest q : List Byte} (hn : byteB ∉ noise) (hp : byteE ∉ p) :
    nextFrame anyLength ⟨.hunt, q⟩ (noise ++ byteB :: (p ++ byteE :: rest)) = some (p, rest) := by
  rw [nextFrame_noise _ _ hn, nextFrame, if_neg (by simp)]
  change nextFrame anyLength ⟨.collect, []⟩ _ = _
  rw [nextFrame_payload _ _ hp, List.nil_append, nextFrame, if_pos ⟨rfl, rfl, rfl⟩]

end Sys2Proof.Machine
end

