-- ==== Sys2Proof/Laws/PerInstr.lean ====
section
/-! SUPPORT. The per-instruction family OpByte: the encoder puts each instruction on its own port, with the op byte the opcode map
(spec/30_encoding.md R83) gives it. -/

namespace Sys2Proof.Laws.OpByte

/-- A command is encoded as a command word with its op byte; PUSH and NV_DONE have none and use their own ports (R81, R83). -/
def Statement (i : Instr) : Prop :=
  match encode i with
  | .command w => i.opByte = some (opOf w)
  | .rx _ => i.opByte = none
  | .nv _ => i.opByte = none

/-- The op byte of an assembled command word. -/
theorem opOf_commandWord (op : Byte) (arg : Word32) : opOf (commandWord op arg) = op := BitVec.extractLsb'_append_eq_left

theorem nop (arg : Word32) : Statement (.nop arg) := (congrArg some (opOf_commandWord _ _)).symm
theorem boot (u : Word32) : Statement (.boot u) := (congrArg some (opOf_commandWord _ _)).symm
theorem setUid (u : Word32) : Statement (.setUid u) := (congrArg some (opOf_commandWord _ _)).symm
theorem setType (t : Byte) (m : BitVec 1) (ign : BitVec 23) : Statement (.setType t m ign) :=
  (congrArg some (opOf_commandWord _ _)).symm
theorem tryFrame (arg : Word32) : Statement (.tryFrame arg) := (congrArg some (opOf_commandWord _ _)).symm
theorem recv (arg : Word32) : Statement (.recv arg) := (congrArg some (opOf_commandWord _ _)).symm
theorem encode (arg : Word32) : Statement (.encode arg) := (congrArg some (opOf_commandWord _ _)).symm
theorem send (arg : Word32) : Statement (.send arg) := (congrArg some (opOf_commandWord _ _)).symm
theorem eval (arg : Word32) : Statement (.eval arg) := (congrArg some (opOf_commandWord _ _)).symm
theorem illegal (op : Byte) (arg : Word32) : Statement (.illegal op arg) := (congrArg some (opOf_commandWord _ _)).symm
theorem push (d : Byte) : Statement (.push d) := rfl
theorem nvDone (k : BitVec 1) : Statement (.nvDone k) := rfl

end Sys2Proof.Laws.OpByte
end

