-- ==== Sys2Proof/Tests/Slice0.lean ====
section
/-! SUPPORT. The model's own tests: the words of spec/30_encoding.md decode to what they stand for; one step of each instruction
against a vector of spec/95_test_vectors.md or a rule's example; and, for each statement of Certificates/Slice0/Obligations.lean
that has hypotheses, a concrete state and operands that meet them. -/

namespace Sys2Proof.Tests

open Sys2Proof.Machine

/-! ### Small states -/

/-- Whether an answer is a next state with a property. -/
def gives (a : Answer) (p : State → Bool) : Bool :=
  match a with
  | .next t => p t
  | .fault _ => false
  | .refused _ => false

/-- The state after bytes have been pushed and none dropped. -/
def received (bs : List Byte) (s : State) : State :=
  bs.foldl (fun s d => { s with ring := ringWrite s.ring s.wr.toNat d, wr := nextCursor s s.wr }) s

/-- Idle after a BOOT with these flags. -/
def booted (f : Byte) : State :=
  { State.reset with
    bootDone := true, qflags := f, qstate := derive f, outRec := (Vector.replicate 7 0x00).set 6 f }

/-- A ring of eight slots, as in L2.1. -/
def small (rd wr : BitVec 8) : State := { State.reset with cfg := { Config.standard with ringSize := 8 }, rd := rd, wr := wr }

/-- `Serialize(0x12345678, Speaker, 1, 0x01)` (R130). -/
def spk : RecordBytes := #v[0x78, 0x56, 0x34, 0x12, 0x02, 0x01, 0x01, 0x00]

/-- `Encode(SPK)` (R133). -/
def spkFrame : FrameBytes :=
  #v[0x42, 0xD6, 0xD5, 0xD8, 0xD7, 0xD2, 0xD1, 0xD4, 0xD3, 0xD1, 0xD0, 0xD2, 0xD0, 0xD0, 0xD0, 0xD1, 0xD0, 0x45]

/-- Booted in D, with the outgoing record SPK. -/
def spkSender : State := { booted 0x01 with outRec := #v[0x78, 0x56, 0x34, 0x12, 0x02, 0x01, 0x01] }

/-- A wait for the store, as in L2.10: the state is D, the pending one E. -/
def waiting : State :=
  { booted 0x03 with
    qstate := .d, qS := .d, qNext := .e, qKind := .accept, nvReq := 3, nvBusy := true, phase := .qWaitNv, cmdOp := 0x08 }

/-! ### Well-formedness -/

theorem test_illegal_op_too_low : Instr.wellFormed (.illegal 0x08 0) = false := by decide
theorem test_illegal_op_lowest : Instr.wellFormed (.illegal 0x09 0) = true := by decide

/-! ### Decoding: words written from R81 and R83 -/

theorem test_decode_nop : decodeTableWord 40 0x00DEADBEEF = some (.nop 0xDEADBEEF) := by decide
theorem test_decode_boot :
    decodeTableWord 40 0b0000000100000000000000000000000000111111 = some (.boot 0x0000003F) := by decide
theorem test_decode_set_uid :
    decodeTableWord 40 0b0000001000010010001101000101011001111000 = some (.setUid 0x12345678) := by decide
theorem test_decode_set_type :
    decodeTableWord 40 0b0000001100000000000000000000000100000010 = some (.setType 0x02 1 0) := by decide
theorem test_decode_set_type_ignored : decodeTableWord 40 0x03FFFFFF02 = some (.setType 0x02 1 0x7FFFFF) := by decide
theorem test_decode_try_frame :
    decodeTableWord 40 0b0000010000000000000000000000000000000000 = some (.tryFrame 0) := by decide
theorem test_decode_recv : decodeTableWord 40 0x0500000001 = some (.recv 1) := by decide
theorem test_decode_encode : decodeTableWord 40 0x0680000000 = some (.encode 0x80000000) := by decide
theorem test_decode_send : decodeTableWord 40 0x0700000000 = some (.send 0) := by decide
theorem test_decode_eval :
    decodeTableWord 40 0b0000100000000000000000000000000000000000 = some (.eval 0) := by decide
theorem test_decode_illegal_lowest : decodeTableWord 40 0x0900000000 = some (.illegal 0x09 0) := by decide
theorem test_decode_illegal_highest : decodeTableWord 40 0xFFFFFFFFFF = some (.illegal 0xFF 0xFFFFFFFF) := by decide
theorem test_decode_push : decodeTableWord 8 0b01000010 = some (.push 0x42) := by decide
theorem test_decode_nv_done : decodeTableWord 1 0b1 = some (.nvDone 1) := by decide
theorem test_decode_no_port : decodeTableWord 41 0 = none := by decide

/-! ### One step of each instruction -/

/-- L2.11: NOP after a NO_FRAME result. -/
theorem test_nop : gives (exec (.nop 0xDEADBEEF) { State.reset with resStatus := 1, resLen := 3 })
    (fun t => t.resStatus = 0x00 ∧ t.resLen = 0 ∧ t.phase = .idle) = true := by decide

/-- L2.11: word `FF_FFFFFFFF`. -/
theorem test_illegal : gives (exec (.illegal 0xFF 0xFFFFFFFF) (booted 0x01))
    (fun t => t.resStatus = 0x07 ∧ t.qflags = 0x01 ∧ csrRead t 0x2E = 0xFF) = true := by decide

/-- L2.8: `01_000000FF` clears bit 7 and boots into Complete. -/
theorem test_boot_complete : gives (exec (.boot 0x000000FF) State.reset)
    (fun t => t.qflags = 0x7F ∧ t.qstate = .complete ∧ t.fxOut = [0x17] ∧ t.resBuf[0] = 0x07) = true := by decide

/-- L2.8: `01_0000002A` boots into Attract, with no display. -/
theorem test_boot_attract : gives (exec (.boot 0x0000002A) State.reset)
    (fun t => t.qflags = 0x2A ∧ t.qstate = .attract ∧ t.fxOut = [] ∧ t.resLen = 1) = true := by decide

/-- L2.5: `02_12345678`. -/
theorem test_set_uid : gives (exec (.setUid 0x12345678) State.reset)
    (fun t => outBytes t = #v[0x78, 0x56, 0x34, 0x12, 0x00, 0x00, 0x00, 0x00]) = true := by decide

/-- L2.5: `03_000000FE` over a record with a type and the magic flag. -/
theorem test_set_type : gives (exec (.setType 0xFE 0 0) spkSender)
    (fun t => outBytes t = #v[0x78, 0x56, 0x34, 0x12, 0xFE, 0x00, 0x01, 0x00]) = true := by decide

/-- R202: TRY_FRAME's ISSUE step takes no byte. -/
theorem test_try_frame_issue : gives (exec (.tryFrame 0) (received [0x42, 0x45] State.reset))
    (fun t => t.phase = .xscan ∧ t.rd = 0) = true := by decide

/-- L2.3: the last byte of `42 D1 45`. -/
theorem test_try_frame_end : gives
    (controllerStep (received [0x45] { State.reset with
      phase := .xscan, cmdOp := 0x04, xs := .collect, xlen := 1, xbuf := (Vector.replicate 16 0x00).set 0 0xD1 }))
    (fun t => t.resStatus = 0x00 ∧ t.resLen = 1 ∧ t.resBuf[0] = 0xD1 ∧ t.phase = .idle ∧ t.xs = .hunt) = true := by decide

/-- L2.6: RECV with a record in the mailbox. -/
theorem test_recv_full : gives (exec (.recv 0) { State.reset with inValid := true })
    (fun t => t.resStatus = 0x04 ∧ t.phase = .idle) = true := by decide

/-- L2.6: the last byte of a frame of three bytes. -/
theorem test_recv_short : gives
    (controllerStep (received [0x45] { State.reset with phase := .xscan, cmdOp := 0x05, xs := .collect, xlen := 3 }))
    (fun t => t.resStatus = 0x02 ∧ t.resLen = 3 ∧ t.inValid = false) = true := by decide

/-- L2.5: ENCODE after SET_TYPE Speaker, 1 and BOOT. -/
theorem test_encode : gives (exec (.encode 0) spkSender)
    (fun t => t.resBuf = spkFrame ∧ t.resLen = 18 ∧ t.txOut = []) = true := by decide

/-- L2.7: the `'O'` of `52 4F`. -/
theorem test_send_handshake : gives
    (controllerStep (received [0x4F] { spkSender with phase := .hscan, cmdOp := 0x07, hs := true }))
    (fun t => t.txOut = spkFrame.toList ∧ t.resStatus = 0x00 ∧ t.hs = false ∧ t.phase = .idle) = true := by decide

/-- L2.7: the `'O'` of `4F 52`. -/
theorem test_send_early_o : gives
    (controllerStep (received [0x4F] { spkSender with phase := .hscan, cmdOp := 0x07 }))
    (fun t => t.txOut = [] ∧ t.hs = false ∧ t.phase = .hscan) = true := by decide

/-- R172's example: D, flags 0x01, the packet `11 11 11 11 02 01 01 00`, in the step that ends the drain. -/
theorem test_eval_accept : gives
    (controllerStep { booted 0x01 with
      phase := .qDrain, cmdOp := 0x08, qS := .d, inValid := true, inRec := #v[0x11, 0x11, 0x11, 0x11, 2, 1, 1, 0] })
    (fun t => t.qflags = 0x03 ∧ t.qNext = .e ∧ t.qstate = .d ∧ t.nvReq = 3 ∧ csrRead t 0x00 = 0x23) = true := by decide

/-- L2.9: N with five buckets, a CFP packet without the magic flag. -/
theorem test_eval_sixth_bucket : gives
    (controllerStep { booted 0x3F with
      phase := .qDrain, cmdOp := 0x08, qS := .n, gflags := 0x1F, inValid := true, inRec := #v[0, 0, 0, 0, 8, 0, 0, 0] })
    (fun t => t.qflags = 0x7F ∧ t.gflags = 0x3F ∧ t.qNext = .complete ∧ t.nvReq = 0x7F) = true := by decide

/-- L2.1: the slot `wr` = 7 of eight, `rd` = 5: written, and `wr` wraps. -/
theorem test_push_wraps : gives (exec (.push 0x11) (small 5 7))
    (fun t => t.ring = [(7, 0x11)] ∧ t.wr = 0 ∧ csrRead t 0x01 = 3) = true := by decide

/-- L2.1: `rd` = 3, `wr` = 2 of eight: full. -/
theorem test_push_full : gives (exec (.push 0x99) (small 3 2))
    (fun t => t.ring = [] ∧ t.wr = 2 ∧ csrRead t 0x01 = 7) = true := by decide

/-- L2.10: ACCEPT, E, `k` = 0. -/
theorem test_nv_done_failure : gives (exec (.nvDone 0) waiting)
    (fun t => t.fxOut = [0x33, 0x12, 0x20] ∧ t.qstate = .e ∧ t.qflags = 0x03 ∧ t.nvBusy = false ∧ t.resBuf[0] = 0x02) =
    true := by decide

/-- L2.10: COMPLETE, `k` = 1. -/
theorem test_nv_done_complete : gives (exec (.nvDone 1) { waiting with qNext := .complete, qKind := .complete })
    (fun t => t.fxOut = [0x17, 0x21] ∧ t.qstate = .complete) = true := by decide

/-! ### Shared operations -/

/-- L1.1: raw decoding of `Encode(SPK)`'s payload. -/
theorem test_raw_decode : packNibbles (permute Config.standard (nibbleExpand spk)) =
    #v[0x65, 0x87, 0x21, 0x43, 0x10, 0x20, 0x00, 0x10] := by decide

/-- R162's examples. -/
theorem test_derive : [0x00, 0x01, 0x03, 0x3F, 0x7F, 0x40, 0x02, 0x05, 0x81].map derive =
    [.attract, .d, .e, .n, .complete, .complete, .attract, .e, .d] := by decide

/-- L2.2: the seventeenth byte of a payload is counted and not kept; the eighteenth is not even counted. -/
theorem test_xfeed_saturates : (xfeed 0xD3 { State.reset with xs := .collect, xlen := 16 }).1.xlen = 17 ∧
    (xfeed 0xD3 { State.reset with xs := .collect, xlen := 17 }).1 =
      { State.reset with xs := .collect, xlen := 17 } := by decide

/-- L2.3: the rows `45 45 42 D1 45` and `42 D1 45 42 D2 45`, and the cut-off `42 D1 D2`. -/
theorem test_next_frame :
    nextFrame anyLength ⟨.hunt, []⟩ [0x45, 0x45, 0x42, 0xD1, 0x45] = some ([0xD1], []) ∧
    nextFrame anyLength ⟨.hunt, []⟩ [0x42, 0xD1, 0x45, 0x42, 0xD2, 0x45] = some ([0xD1], [0x42, 0xD2, 0x45]) ∧
    nextFrame anyLength ⟨.hunt, []⟩ [0x42, 0xD1, 0xD2] = none := by decide

/-- L2.11: the QSTATE CSR after reset, and an index that is not listed. -/
theorem test_csr_after_reset : csrRead State.reset 0x02 = 0x08 ∧ csrRead State.reset 0x80 = 0x00 := by decide

/-- R96, J0 §8 of L1.6: the store's bytes of 0x2A. -/
theorem test_store_bytes : storeBytes 0x2A = #v[0x00, 0x00, 0x00, 0x2A] := by decide

/-- R87: the bytes of `RXFRAME 0x11111111, Speaker, 1, 0x01` (`F11`). -/
theorem test_rxframe : rxFrameBytes 0x11111111 0x02 1 0x01 =
    #v[0x42, 0xD1, 0xD1, 0xD1, 0xD1, 0xD1, 0xD1, 0xD1, 0xD1, 0xD0, 0xD2, 0xD0, 0xD1, 0xD0, 0xD1, 0xD0, 0xD0, 0x45] := by
  decide

/-! ### The parts of the invariant at the small states -/

theorem fifo_small (rd wr : BitVec 8) (hr : rd.toNat < 8) (hw : wr.toNat < 8) : FifoWf (small rd wr) :=
  ⟨show 2 ≤ 8 by decide, show 8 ≤ 256 by decide, hw, hr, rfl, fun c h => by cases h⟩

theorem standard_legal : Config.standard.Legal := by decide

theorem fifo_received {s : State} {l : List Byte} (h : FifoWf s) : FifoWf (received l s) := by
  induction l generalizing s with
  | nil => exact h
  | cons d l ih => exact ih (h.write d)

theorem fifo_reset : FifoWf State.reset := ⟨by decide, by decide, by decide, by decide, rfl, fun c h => by cases h⟩

theorem booted_inv (f : Byte) (h : f.getLsbD 7 = false) : Inv (booted f) where
  config := standard_legal
  fifo := fifo_reset.congr rfl rfl rfl rfl
  extractor := ⟨by simp [booted, State.reset], fun i _ => by simp [booted, State.reset]⟩
  control := by constructor <;> simp [booted, State.reset, Phase.isEval]
  quest := by constructor <;> first | exact h | simp [booted, State.reset, Phase.isEval]
  mirrored := by simp [Mirrored, booted]
  results := by constructor <;> simp [booted, State.reset]

theorem received_eq (l : List Byte) (s : State) :
    received l s = { s with ring := (received l s).ring, wr := (received l s).wr } := by
  induction l generalizing s with
  | nil => rfl
  | cons d l ih => exact ih _

theorem received_inv {s : State} (l : List Byte) (h : Inv s) : Inv (received l s) := by
  have hf := fifo_received (l := l) h.fifo
  rw [received_eq] at hf ⊢
  exact ⟨h.config, hf, ⟨h.extractor.1, h.extractor.2⟩,
    ⟨h.control.1, h.control.2, h.control.3, h.control.4, h.control.5, h.control.6⟩,
    ⟨h.quest.1, h.quest.2, h.quest.3, h.quest.4, h.quest.5, h.quest.6, h.quest.7, h.quest.8⟩, h.mirrored,
    ⟨h.results.1, h.results.2⟩⟩

theorem queued_inv {s : State} (h : Inv s) (u : Supply Turn) (w : Supply CommandWord) (d : Supply Byte)
    (k : Supply (BitVec 1)) :
    Inv { s with turns := u, hostIn := w, rxIn := d, nvIn := k } :=
  ⟨h.config, h.fifo.congr rfl rfl rfl rfl, ⟨h.extractor.1, h.extractor.2⟩,
    ⟨h.control.1, h.control.2, h.control.3, h.control.4, h.control.5, h.control.6⟩,
    ⟨h.quest.1, h.quest.2, h.quest.3, h.quest.4, h.quest.5, h.quest.6, h.quest.7, h.quest.8⟩, h.mirrored,
    ⟨h.results.1, h.results.2⟩⟩

/-- The extractor of a state inside a frame of which nothing or one byte is consumed. -/
def inside (q : List Byte) : State :=
  { State.reset with
    xs := .collect, xlen := BitVec.ofNat 5 q.length, xbuf := Vector.ofFn fun i : Fin 16 => q.getD i.val 0x00 }

theorem collected_one : Collected (inside [0xD1]) [0xD1] := ⟨rfl, by decide, by decide⟩

/-- `B16` (L2.3). -/
def b16 : PayloadBytes :=
  #v[0xD0, 0xD1, 0xD2, 0xD3, 0xD4, 0xD5, 0xD6, 0xD7, 0xD8, 0xD9, 0xDA, 0xDB, 0xDC, 0xDD, 0xDE, 0xDF]

/-- The FIFO `67 42 B16 45 67` of L2.3. -/
def noisyFrame : List Byte := [0x67] ++ 0x42 :: (b16.toList ++ 0x45 :: [0x67])

theorem noisyFrame_received : fifoBytes (received noisyFrame State.reset) = noisyFrame := by decide +kernel

/-! ### Witnesses: states and operands that meet the hypotheses of each statement -/

theorem witness_DecodeOfEncodeIsIdentity : (Instr.illegal 0x09 5).wellFormed = true := by decide
theorem witness_NopReportsSuccess : State.reset.phase = .idle := rfl
theorem witness_IllegalOpReportsIllegal :
    0x09 ≤ (opOf (0x0900000000 : CommandWord)).toNat ∧ 0x09 ≤ (opOf (0xFF00000000 : CommandWord)).toNat ∧
      State.reset.phase = .idle := by decide
theorem witness_SetUidWritesUniqueId : spkSender.phase = .idle := rfl
theorem witness_SetTypeWritesTypeAndMagic : spkSender.phase = .idle := rfl
theorem witness_EncodeReturnsOutgoingFrame : spkSender.phase = .idle := rfl

/-- Both clauses: before and after a BOOT. -/
theorem witness_BootRestoresOnce : State.reset.phase = .idle ∧ State.reset.bootDone = false ∧
    (booted 0x01).phase = .idle ∧ (booted 0x01).bootDone = true := by decide

/-- Each clause, at the least and the most flags that fall under it. -/
theorem witness_DeriveCountsCategories : (0x40 : Byte).getLsbD 6 = true ∧ (0x3E : Byte).getLsbD 6 = false ∧
    (0x3E : Byte).getLsbD 0 = false ∧ (0x3F : Byte).getLsbD 6 = false ∧ (0x3F : Byte).getLsbD 0 = true := by decide

/-- Both clauses: seven bytes of at most seven, and six, where the next fills the ring. -/
theorem witness_PushWritesOrDrops : FifoWf (small 0 7) ∧ (small 0 7).nvBusy = false ∧
    ((small 0 7).wr.toNat + 1) % (small 0 7).cfg.ringSize = (small 0 7).rd.toNat ∧ FifoWf (small 0 6) ∧
    (small 0 6).nvBusy = false ∧ ((small 0 6).wr.toNat + 1) % (small 0 6).cfg.ringSize ≠ (small 0 6).rd.toNat :=
  ⟨fifo_small _ _ (by decide) (by decide), by decide, by decide, fifo_small _ _ (by decide) (by decide), by decide, by decide⟩

/-- A full and an empty FIFO. -/
theorem witness_FifoIsAQueue : FifoWf (small 3 2) ∧ (small 3 2).nvBusy = false ∧ (fifoBytes (small 3 2)).length = 7 ∧
    FifoWf (small 4 4) ∧ (small 4 4).nvBusy = false ∧ fifoBytes (small 4 4) = [] :=
  ⟨fifo_small _ _ (by decide) (by decide), by decide, by decide, fifo_small _ _ (by decide) (by decide), by decide, by decide⟩

/-- A byte added, a byte taken, and a reset. -/
theorem witness_StepsKeepFifoOrder :
    (∃ t, FifoWf { State.reset with rxIn := ⟨[1], []⟩, turns := ⟨[.rx], []⟩ } ∧
      step { State.reset with rxIn := ⟨[1], []⟩, turns := ⟨[.rx], []⟩ } = .next t ∧ fifoBytes t = [1]) ∧
    (∃ t, FifoWf (received [1, 2] { State.reset with phase := .hscan }) ∧
      step (received [1, 2] { State.reset with phase := .hscan }) = .next t ∧ fifoBytes t = [2]) ∧
    (∃ t, FifoWf (received [1, 2] { State.reset with turns := ⟨[.reset], []⟩ }) ∧
      step (received [1, 2] { State.reset with turns := ⟨[.reset], []⟩ }) = .next t ∧ fifoBytes t = []) :=
  ⟨⟨_, fifo_reset.congr rfl rfl rfl rfl, rfl, by decide⟩,
    ⟨_, fifo_received (fifo_reset.congr rfl rfl rfl rfl), rfl, by decide⟩,
    ⟨_, fifo_received (fifo_reset.congr rfl rfl rfl rfl), rfl, by decide⟩⟩

/-- Two states that differ, in a slot that holds no unread byte. -/
theorem witness_UnreadSlotsUnobservable : Inv (booted 0x01) ∧ Inv { booted 0x01 with ring := [(5, 0x42)] } ∧
    SameButUnread (booted 0x01) { booted 0x01 with ring := [(5, 0x42)] } ∧
    booted 0x01 ≠ { booted 0x01 with ring := [(5, 0x42)] } := by
  have h := booted_inv 0x01 (by decide)
  refine ⟨h, ⟨h.config, ⟨by decide, by decide, by decide, by decide, by decide, by decide⟩,
    ⟨h.extractor.1, h.extractor.2⟩,
    ⟨h.control.1, h.control.2, h.control.3, h.control.4, h.control.5, h.control.6⟩,
    ⟨h.quest.1, h.quest.2, h.quest.3, h.quest.4, h.quest.5, h.quest.6, h.quest.7, h.quest.8⟩, h.mirrored,
    ⟨h.results.1, h.results.2⟩⟩, ⟨rfl, by decide⟩, by decide⟩

/-- A step of the RX producer, one of another agent, and the reset. -/
theorem witness_SingleWriterPerRegister :
    (∃ t, step { State.reset with rxIn := ⟨[1], []⟩, turns := ⟨[.rx], []⟩ } = .next t ∧
      nextTurn { State.reset with rxIn := ⟨[1], []⟩, turns := ⟨[.rx], []⟩ } = .rx) ∧
    (∃ t, step State.reset = .next t ∧ nextTurn State.reset = .controller) ∧
    (∃ t, step { State.reset with turns := ⟨[.reset], []⟩ } = .next t ∧ nextTurn { State.reset with turns := ⟨[.reset], []⟩ } = .reset) :=
  ⟨⟨_, rfl, rfl⟩, ⟨_, rfl, rfl⟩, ⟨_, rfl, rfl⟩⟩

theorem witness_TryFrameReturnsWholeFrame : FifoWf (received noisyFrame State.reset) ∧
    (received noisyFrame State.reset).phase = .idle ∧ (received noisyFrame State.reset).turns = .nil ∧
    (received noisyFrame State.reset).xs = .hunt ∧ (0x42 : Byte) ∉ [(0x67 : Byte)] ∧ (0x45 : Byte) ∉ b16.toList ∧
    fifoBytes (received noisyFrame State.reset) = [0x67] ++ 0x42 :: (b16.toList ++ 0x45 :: [0x67]) :=
  ⟨fifo_received fifo_reset, by rw [received_eq]; rfl, by rw [received_eq]; rfl, by rw [received_eq]; rfl, by decide,
    by decide, noisyFrame_received⟩

theorem witness_TryFrameResumesPartialFrame : FifoWf (received [0xD2, 0x45, 0x67] (inside [0xD1])) ∧
    (received [0xD2, 0x45, 0x67] (inside [0xD1])).phase = .idle ∧
    (received [0xD2, 0x45, 0x67] (inside [0xD1])).turns = .nil ∧
    Collected (received [0xD2, 0x45, 0x67] (inside [0xD1])) [0xD1] ∧ (0x45 : Byte) ∉ [(0xD2 : Byte)] ∧
    fifoBytes (received [0xD2, 0x45, 0x67] (inside [0xD1])) = [0xD2] ++ 0x45 :: [0x67] :=
  ⟨fifo_received (fifo_reset.congr rfl rfl rfl rfl), rfl, rfl, ⟨rfl, by decide, by decide⟩, by decide, by decide⟩

/-- Both clauses: a frame that goes on, and one that opens after noise and is cut off (L2.3's last row). -/
theorem witness_TryFrameKeepsPartialFrame :
    (let s := received [0xD2] (inside [0xD1])
     FifoWf s ∧ s.phase = .idle ∧ s.turns = .nil ∧ (0x45 : Byte) ∉ [(0xD2 : Byte)] ∧ Collected s [0xD1] ∧
      fifoBytes s = [0xD2]) ∧
    (let s := received [0x67, 0x42, 0xD1] State.reset
     FifoWf s ∧ s.phase = .idle ∧ s.turns = .nil ∧ (0x45 : Byte) ∉ [(0xD1 : Byte)] ∧ s.xs = .hunt ∧
      (0x42 : Byte) ∉ [(0x67 : Byte)] ∧ fifoBytes s = [0x67] ++ 0x42 :: [0xD1]) :=
  ⟨⟨fifo_received (fifo_reset.congr rfl rfl rfl rfl), rfl, rfl, by decide, ⟨rfl, by decide, by decide⟩, by decide⟩,
    ⟨fifo_received fifo_reset, by decide⟩⟩

theorem witness_TryFrameSkipsNoise : FifoWf (received [0x45, 0x52] State.reset) ∧
    (received [0x45, 0x52] State.reset).phase = .idle ∧ (received [0x45, 0x52] State.reset).turns = .nil ∧
    (received [0x45, 0x52] State.reset).xs = .hunt ∧ (0x42 : Byte) ∉ fifoBytes (received [0x45, 0x52] State.reset) :=
  ⟨fifo_received fifo_reset, rfl, rfl, rfl, by decide⟩

theorem witness_FrameHuntsStartWithoutPop : State.reset.phase = .idle ∧ State.reset.inValid = false := ⟨rfl, rfl⟩

theorem witness_RecvKeepsFullMailbox : ({ State.reset with inValid := true } : State).phase = .idle ∧
    ({ State.reset with inValid := true } : State).inValid = true := ⟨rfl, rfl⟩

/-- From HUNT, over noise, and from inside a frame. -/
theorem witness_RecvDecodesIntoMailbox :
    (let s := received noisyFrame State.reset
     FifoWf s ∧ s.phase = .idle ∧ s.turns = .nil ∧ s.inValid = false ∧ Stands s ⟨.hunt, []⟩ ∧
      nextFrame anyLength ⟨.hunt, []⟩ (fifoBytes s) = some (b16.toList, [0x67]) ∧ b16.toList.length = 16) ∧
    (let s := received [0xDF, 0x45] (inside (b16.toList.take 15))
     FifoWf s ∧ s.phase = .idle ∧ s.turns = .nil ∧ s.inValid = false ∧ Stands s ⟨.collect, b16.toList.take 15⟩ ∧
      nextFrame anyLength ⟨.collect, b16.toList.take 15⟩ (fifoBytes s) = some (b16.toList, [])) :=
  ⟨⟨fifo_received fifo_reset, by rw [received_eq]; rfl, by rw [received_eq]; rfl, by rw [received_eq]; rfl,
      ⟨by rw [received_eq]; rfl, fun h => by cases h⟩,
      by rw [noisyFrame_received]; exact nextFrame_whole (by decide) (by decide), rfl⟩,
    ⟨fifo_received (fifo_reset.congr rfl rfl rfl rfl), rfl, rfl, rfl, Holds.stands ⟨rfl, by decide, by decide⟩, by decide⟩⟩

/-- Both clauses: a payload of one byte, and a FIFO that empties inside a frame. -/
theorem witness_RecvReportsFailure :
    (let s := received [0x42, 0xD1, 0x45] State.reset
     FifoWf s ∧ s.phase = .idle ∧ s.turns = .nil ∧ s.inValid = false ∧ Stands s ⟨.hunt, []⟩ ∧
      nextFrame anyLength ⟨.hunt, []⟩ (fifoBytes s) = some ([0xD1], []) ∧ [(0xD1 : Byte)].length ≠ 16) ∧
    (let s := received [0xD2] (inside [0xD1])
     FifoWf s ∧ s.phase = .idle ∧ s.turns = .nil ∧ s.inValid = false ∧ Stands s ⟨.collect, [0xD1]⟩ ∧
      nextFrame anyLength ⟨.collect, [0xD1]⟩ (fifoBytes s) = none) :=
  ⟨⟨fifo_received fifo_reset, rfl, rfl, rfl, ⟨rfl, fun h => by cases h⟩, by decide, by decide⟩,
    ⟨fifo_received (fifo_reset.congr rfl rfl rfl rfl), rfl, rfl, rfl, Holds.stands ⟨rfl, by decide, by decide⟩, by decide⟩⟩

/-- Both clauses: `52 67 4F 42` completes the handshake and leaves `42`, `4F 52` does not (L2.7). -/
theorem witness_SendNeedsHandshakeSubsequence :
    (FifoWf (received [0x52, 0x67, 0x4F, 0x42] State.reset) ∧ (received [0x52, 0x67, 0x4F, 0x42] State.reset).phase = .idle ∧
      (received [0x52, 0x67, 0x4F, 0x42] State.reset).turns = .nil ∧
      List.Sublist [0x52, 0x4F] (fifoBytes (received [0x52, 0x67, 0x4F, 0x42] State.reset)) ∧
      (0x52 : Byte) ∉ ([] : List Byte) ∧ (0x4F : Byte) ∉ [(0x67 : Byte)] ∧
      fifoBytes (received [0x52, 0x67, 0x4F, 0x42] State.reset) = [] ++ 0x52 :: ([0x67] ++ 0x4F :: [0x42])) ∧
    (FifoWf (received [0x4F, 0x52] State.reset) ∧ (received [0x4F, 0x52] State.reset).phase = .idle ∧
      (received [0x4F, 0x52] State.reset).turns = .nil ∧
      ¬ List.Sublist [0x52, 0x4F] (fifoBytes (received [0x4F, 0x52] State.reset))) :=
  ⟨⟨fifo_received fifo_reset, rfl, rfl, by decide⟩, ⟨fifo_received fifo_reset, rfl, rfl, by decide⟩⟩

/-- A step that sends, and one that does not. -/
theorem witness_OnlySendTransmits :
    (∃ t, step (received [0x4F] { spkSender with phase := .hscan, cmdOp := 0x07, hs := true }) = .next t ∧
      nextTurn (received [0x4F] { spkSender with phase := .hscan, cmdOp := 0x07, hs := true }) ≠ .reset ∧ t.txOut ≠ []) ∧
    (∃ t, step State.reset = .next t ∧ nextTurn State.reset ≠ .reset ∧ t.txOut = []) :=
  ⟨⟨_, rfl, by decide, by decide⟩, ⟨_, rfl, by decide, by decide⟩⟩

theorem witness_UnpermutedFrameDecodes : Config.standard.Legal ∧
    ∀ i : Fin 16, (nibbleExpand spk)[Config.standard.perm[i]] = (encodeFrame Config.standard spk)[i.val + 1] := by decide

theorem witness_EncodeIsInjective : Config.standard.Legal := by decide

/-- A record for each side of the equivalence: SPK is changed, `12 21 34 43 56 65 78 87` is not (L1.1). -/
theorem witness_RawDecodeIsAsymmetric :
    (∀ i : Fin 16, (permute Config.standard (nibbleExpand spk))[i] = (encodeFrame Config.standard spk)[i.val + 1]) ∧
    ¬ (∀ k : Fin 4, spk[2 * k.val] = (spk[2 * k.val + 1].extractLsb' 0 4 ++ spk[2 * k.val + 1].extractLsb' 4 4 : BitVec 8)) ∧
    (let r : RecordBytes := #v[0x12, 0x21, 0x34, 0x43, 0x56, 0x65, 0x78, 0x87]
     ∀ k : Fin 4, r[2 * k.val] = (r[2 * k.val + 1].extractLsb' 0 4 ++ r[2 * k.val + 1].extractLsb' 4 4 : BitVec 8)) := by
  decide

theorem witness_DecodeIgnoresHighNibbles :
    (⟨16, Vector.replicate 16 0x0F⟩ : Frame).len = (⟨16, Vector.replicate 16 0xFF⟩ : Frame).len ∧
    ∀ i : Fin 16, (⟨16, Vector.replicate 16 0x0F⟩ : Frame).payload[i] &&& 0x0F =
      (⟨16, Vector.replicate 16 0xFF⟩ : Frame).payload[i] &&& 0x0F := by decide

theorem witness_EvalBeforeBootRefuses : State.reset.phase = .idle ∧ State.reset.bootDone = false := ⟨rfl, rfl⟩

/-- All four clauses. -/
theorem witness_EvalStartsCycle :
    ((booted 0x7F).phase = .idle ∧ (booted 0x7F).bootDone = true ∧ (booted 0x7F).qstate = .complete) ∧
    ((booted 0x00).phase = .idle ∧ (booted 0x00).bootDone = true ∧ (booted 0x00).qstate ≠ .complete ∧
      (booted 0x00).inValid = false) ∧
    (let s : State := { booted 0x01 with inValid := true }
     s.phase = .idle ∧ s.bootDone = true ∧ s.qstate ≠ .complete ∧ s.qstate ≠ .attract ∧ s.inValid = true) ∧
    (let s : State := { booted 0x00 with inValid := true }
     s.phase = .idle ∧ s.bootDone = true ∧ s.qstate = .attract ∧ s.inValid = true) := by decide

theorem witness_AttractCyclesAnimation : Inv (booted 0x00) ∧ (booted 0x00).phase = .idle ∧ (booted 0x00).turns = .nil ∧
    (booted 0x00).bootDone = true ∧ (booted 0x00).qstate = .attract ∧ (booted 0x00).inValid = false ∧
    fifoBytes (booted 0x00) = [] := ⟨booted_inv _ (by decide), by decide⟩

/-- From HUNT, over noise; and from inside a frame of wrong length that ends before the frame. -/
theorem witness_AttractTakesFirstContact :
    (let s := received noisyFrame (booted 0x00)
     FifoWf s ∧ s.phase = .idle ∧ s.turns = .nil ∧ s.bootDone = true ∧ s.qstate = .attract ∧ s.inValid = false ∧
      Stands s ⟨.hunt, []⟩ ∧ nextFrame decodable ⟨.hunt, []⟩ (fifoBytes s) = some (b16.toList, [0x67])) ∧
    (let s := received (0x45 :: noisyFrame) { booted 0x00 with xs := .collect }
     FifoWf s ∧ s.phase = .idle ∧ s.turns = .nil ∧ s.bootDone = true ∧ s.qstate = .attract ∧ s.inValid = false ∧
      Stands s ⟨.collect, []⟩ ∧ nextFrame decodable ⟨.collect, []⟩ (fifoBytes s) = some (b16.toList, [0x67])) :=
  ⟨⟨fifo_received (fifo_reset.congr rfl rfl rfl rfl), rfl, rfl, rfl, rfl, rfl, ⟨rfl, fun h => by cases h⟩, by decide +kernel⟩,
    ⟨fifo_received (fifo_reset.congr rfl rfl rfl rfl), rfl, rfl, rfl, rfl, rfl, Holds.stands ⟨rfl, by decide +kernel, by decide +kernel⟩,
      by decide +kernel⟩⟩

/-- Both clauses: the required badge, and no packet at all. -/
theorem witness_LinearStateDecides :
    (let s : State := { booted 0x01 with phase := .qDrain, qS := .d, inValid := true, inRec := #v[0, 0, 0, 0, 2, 1, 0, 0] }
     s.phase = .qDrain ∧ s.rd = s.wr ∧ s.qS = .d ∧ (QState.d, (2 : Byte), 1, QState.e) ∈ categoryTable s.cfg ∧
      s.inValid = true ∧ s.inRec[5] ≠ 0x00 ∧ s.inRec[4] = 2 ∧ s.qflags.getLsbD 1 = false) ∧
    (let s : State := { booted 0x1F with phase := .qDrain, qS := .o }
     s.phase = .qDrain ∧ s.rd = s.wr ∧ s.qS = .o ∧ (QState.o, (1 : Byte), 5, QState.n) ∈ categoryTable s.cfg ∧
      s.inValid = false) := by decide

/-- Every clause: no packet, a packet without a bucket, a bucket that leaves one missing, the sixth bucket. -/
theorem witness_GroupQuestCollects :
    (let s : State := { booted 0x3F with phase := .qDrain, qS := .n }
     s.phase = .qDrain ∧ s.rd = s.wr ∧ s.qS = .n ∧ s.inValid = false) ∧
    (let s : State := { booted 0x3F with phase := .qDrain, qS := .n, inValid := true, inRec := #v[0, 0, 0, 0, 0x10, 0, 0, 0] }
     s.phase = .qDrain ∧ s.rd = s.wr ∧ s.qS = .n ∧ s.inValid = true ∧ s.cfg.groupOf.lookup s.inRec[4] = none) ∧
    (let s : State := { booted 0x3F with phase := .qDrain, qS := .n, inValid := true }
     s.phase = .qDrain ∧ s.rd = s.wr ∧ s.qS = .n ∧ s.inValid = true ∧ s.cfg.groupOf.lookup s.inRec[4] = some 5 ∧
      s.gflags ||| ((1 : BitVec 6) <<< 5) ≠ 0b111111) ∧
    (let s : State := { booted 0x3F with phase := .qDrain, qS := .n, inValid := true, gflags := 0b011111 }
     s.phase = .qDrain ∧ s.rd = s.wr ∧ s.qS = .n ∧ s.inValid = true ∧ s.cfg.groupOf.lookup s.inRec[4] = some 5 ∧
      s.gflags ||| ((1 : BitVec 6) <<< 5) = 0b111111) := by decide

theorem witness_NvDoneFinishesTransition : waiting.phase = .qWaitNv := rfl

theorem witness_RequiredBadgeAdvancesState :
    let s := received (rxFrameBytes 0x11111111 0x02 1 0x01).toList (booted 0x01)
    Inv s ∧ s.phase = .idle ∧ s.turns = .nil ∧ s.bootDone = true ∧ s.inValid = false ∧ s.xs = .hunt ∧ s.qstate = .d ∧
    (QState.d, (0x02 : Byte), 1, QState.e) ∈ categoryTable s.cfg ∧ s.qflags.getLsbD 1 = false ∧
    fifoBytes s = (rxFrameBytes 0x11111111 0x02 1 0x01).toList :=
  ⟨received_inv _ (booted_inv _ (by decide)), by decide +kernel⟩

/-- Every clause: a payload of one byte; one of sixteen, in D and in Attract; an empty FIFO, in D and in Attract. -/
theorem witness_FillTakesFirstDecodableFrame :
    (let s := received [0x45] { inside [0xD1] with phase := .qFill }
     FifoWf s ∧ s.phase = .qFill ∧ s.inValid = false ∧ Stands s ⟨.collect, [0xD1]⟩ ∧ fifoBytes s = 0x45 :: []) ∧
    (let s := received [0x45] { inside b16.toList with phase := .qFill, qS := .d }
     FifoWf s ∧ s.phase = .qFill ∧ s.inValid = false ∧ Stands s ⟨.collect, b16.toList⟩ ∧ fifoBytes s = 0x45 :: [] ∧
      b16.toList.length = 16 ∧ s.qS ≠ .attract ∧ Stands { s with qS := .attract } ⟨.collect, b16.toList⟩) ∧
    (let s : State := { booted 0x01 with phase := .qFill, qS := .d }
     FifoWf s ∧ s.phase = .qFill ∧ s.inValid = false ∧ Stands s ⟨.hunt, []⟩ ∧ fifoBytes s = [] ∧ s.qS ≠ .attract) ∧
    (let s : State := { booted 0x00 with phase := .qFill }
     FifoWf s ∧ s.phase = .qFill ∧ s.inValid = false ∧ Stands s ⟨.hunt, []⟩ ∧ fifoBytes s = [] ∧ s.qS = .attract ∧
      s.anim = .d) :=
  ⟨⟨fifo_received (fifo_reset.congr rfl rfl rfl rfl), rfl, rfl, Holds.stands ⟨rfl, by decide, by decide⟩, by decide⟩,
    ⟨fifo_received (fifo_reset.congr rfl rfl rfl rfl), rfl, rfl, Holds.stands ⟨rfl, by decide, by decide⟩, by decide, rfl,
      by decide, Holds.stands ⟨rfl, by decide, by decide⟩⟩,
    ⟨fifo_reset.congr rfl rfl rfl rfl, rfl, rfl, ⟨rfl, fun h => by cases h⟩, by decide, by decide⟩,
    ⟨fifo_reset.congr rfl rfl rfl rfl, rfl, rfl, ⟨rfl, fun h => by cases h⟩, by decide, rfl, rfl⟩⟩

theorem witness_CompleteDrainsAndDiscards :
    let s := received [0x42, 0xD1] (booted 0x7F)
    FifoWf s ∧ s.phase = .idle ∧ s.turns = .nil ∧ s.bootDone = true ∧ s.qstate = .complete :=
  ⟨fifo_received (fifo_reset.congr rfl rfl rfl rfl), by decide⟩

theorem witness_DrainEmptiesFifo :
    let s := received [0x42, 0xD1] { booted 0x01 with phase := .qDrain, qS := .d }
    FifoWf s ∧ s.phase = .qDrain ∧ s.turns = .nil :=
  ⟨fifo_received (fifo_reset.congr rfl rfl rfl rfl), by decide⟩

theorem witness_NoEffectBeforeStoreAnswers : ∃ t,
    step { booted 0x00 with inValid := true, hostIn := ⟨[0x0800000000], []⟩, turns := ⟨[.host], []⟩ } = .next t ∧
    t.phase = .qWaitNv := ⟨_, rfl, by decide⟩

theorem witness_CompleteIsTerminal : ∃ t,
    Inv { booted 0x7F with turns := ⟨[.host], []⟩, hostIn := ⟨[0x0800000000], []⟩, rxIn := .nil, nvIn := .nil } ∧
    (booted 0x7F).qstate = .complete ∧
    step { booted 0x7F with turns := ⟨[.host], []⟩, hostIn := ⟨[0x0800000000], []⟩, rxIn := .nil, nvIn := .nil } = .next t ∧
    nextTurn { booted 0x7F with turns := ⟨[.host], []⟩, hostIn := ⟨[0x0800000000], []⟩, rxIn := .nil, nvIn := .nil } ≠ .reset :=
  ⟨_, queued_inv (booted_inv _ (by decide)) _ _ _ _, by decide, rfl, by decide⟩

/-- A wait for the store meets the invariant. -/
theorem waiting_inv : Inv waiting where
  config := by decide
  fifo := fifo_reset.congr rfl rfl rfl rfl
  extractor := ⟨by decide, fun i _ => by simp [waiting, booted, State.reset]⟩
  control := ⟨by decide, by decide, by decide, by decide, by decide, by decide⟩
  quest := ⟨by decide, by decide, by decide, by decide, by decide, by decide, by decide,
    fun _ => ⟨by decide, .inr (.inl ⟨by decide, by decide⟩), by decide, by decide⟩⟩
  mirrored := by simp [Mirrored, waiting, booted]
  results := ⟨by decide, by decide⟩

/-- A step that moves the state, from D to E. -/
theorem witness_StateOnlyMovesForward : ∃ t, Inv { waiting with turns := ⟨[.nv], []⟩, hostIn := .nil, rxIn := .nil, nvIn := ⟨[1], []⟩ } ∧
    waiting.bootDone = true ∧ step { waiting with turns := ⟨[.nv], []⟩, hostIn := .nil, rxIn := .nil, nvIn := ⟨[1], []⟩ } = .next t ∧
    nextTurn { waiting with turns := ⟨[.nv], []⟩, hostIn := .nil, rxIn := .nil, nvIn := ⟨[1], []⟩ } ≠ .reset ∧ t.qstate = .e :=
  ⟨_, queued_inv waiting_inv _ _ _ _, by decide, rfl, by decide, by decide⟩

/-- A drain in D that is done, with this record in the mailbox. -/
def deciding (f : Byte) (r : RecordBytes) : State :=
  { booted f with phase := .qDrain, cmdOp := 0x08, qS := derive f, inValid := true, inRec := r }

theorem deciding_inv (f : Byte) (r : RecordBytes) (h : f.getLsbD 7 = false) (ha : derive f ≠ .attract)
    (hc : derive f ≠ .complete) : Inv (deciding f r) where
  config := standard_legal
  fifo := fifo_reset.congr rfl rfl rfl rfl
  extractor := ⟨by simp [deciding, booted, State.reset], fun i _ => by simp [deciding, booted, State.reset]⟩
  control := by constructor <;> simp [deciding, booted, State.reset, Phase.isEval]
  quest := by constructor <;> first | exact h | simp [deciding, booted, State.reset, Phase.isEval, ha, hc]
  mirrored := by simp [Mirrored, deciding, booted]
  results := by constructor <;> simp [deciding, booted, State.reset]

/-- A step that sets a flag. -/
theorem witness_FlagsOnlySetOneAtATime : ∃ t, Inv (deciding 0x01 spk) ∧ (deciding 0x01 spk).bootDone = true ∧
    step (deciding 0x01 spk) = .next t ∧ nextTurn (deciding 0x01 spk) ≠ .reset ∧ t.qflags = 0x03 :=
  ⟨_, deciding_inv _ _ (by decide) (by decide) (by decide), rfl, rfl, by decide, by decide⟩

/-- The first clause: E with bit 2 set (`BOOT 0x00000005`), a magic Village packet; the others: D with its bit clear. -/
theorem witness_StuckOnlyFromUnorderedFlags :
    (∃ t, Inv (deciding 0x05 #v[0, 0, 0, 0, 5, 1, 0, 0]) ∧ (deciding 0x05 #v[0, 0, 0, 0, 5, 1, 0, 0]).bootDone = true ∧
      step (deciding 0x05 #v[0, 0, 0, 0, 5, 1, 0, 0]) = .next t ∧
      nextTurn (deciding 0x05 #v[0, 0, 0, 0, 5, 1, 0, 0]) ≠ .reset ∧
      (deciding 0x05 #v[0, 0, 0, 0, 5, 1, 0, 0]).phase ≠ .qWaitNv ∧
      (deciding 0x05 #v[0, 0, 0, 0, 5, 1, 0, 0]).qstate ∈ [QState.d, .e, .f, .c, .o] ∧
      (deciding 0x05 #v[0, 0, 0, 0, 5, 1, 0, 0]).qflags.getLsbD
        (deciding 0x05 #v[0, 0, 0, 0, 5, 1, 0, 0]).qstate.code.toNat = true) ∧
    (∃ t, Inv (deciding 0x01 spk) ∧ (deciding 0x01 spk).bootDone = true ∧ step (deciding 0x01 spk) = .next t ∧
      nextTurn (deciding 0x01 spk) ≠ .reset ∧ InOrder (deciding 0x01 spk).qflags ∧
      (deciding 0x01 spk).phase ≠ .qWaitNv ∧ (deciding 0x01 spk).qstate ∈ [QState.d, .e, .f, .c, .o]) :=
  ⟨⟨_, deciding_inv _ _ (by decide) (by decide) (by decide), rfl, rfl, by decide, by decide, by decide, by decide⟩,
    ⟨_, deciding_inv _ _ (by decide) (by decide) (by decide), rfl, rfl, by decide, ⟨0, by decide, by decide⟩, by decide,
      by decide⟩⟩

theorem witness_StepsKeepInvariant : ∃ t, Inv (deciding 0x01 spk) ∧ step (deciding 0x01 spk) = .next t ∧ t ≠ deciding 0x01 spk :=
  ⟨_, deciding_inv _ _ (by decide) (by decide) (by decide), rfl, by decide⟩

theorem witness_StepsKeepFifoWellFormed : ∃ t, FifoWf { small 5 7 with rxIn := ⟨[0x11], []⟩, turns := ⟨[.rx], []⟩ } ∧
    step { small 5 7 with rxIn := ⟨[0x11], []⟩, turns := ⟨[.rx], []⟩ } = .next t ∧ t.wr = 0 :=
  ⟨_, (fifo_small _ _ (by decide) (by decide)).congr rfl rfl rfl rfl, rfl, by decide⟩

theorem witness_StepsKeepExtractorWellFormed : ∃ t,
    ExtractorWf (received [0xD2] { inside [0xD1] with phase := .xscan, cmdOp := 0x04 }) ∧
    step (received [0xD2] { inside [0xD1] with phase := .xscan, cmdOp := 0x04 }) = .next t ∧ t.xlen = 2 :=
  ⟨_, ⟨by decide, by decide⟩, rfl, by decide⟩

theorem witness_StepsKeepFlagsMirrored : ∃ t, Mirrored (deciding 0x01 spk) ∧ step (deciding 0x01 spk) = .next t ∧
    t.qflags = 0x03 := ⟨_, by simp [Mirrored, deciding, booted], rfl, by decide⟩

theorem witness_StepsKeepStateDerived : ∃ t, ControlWf waiting ∧ QuestWf waiting ∧ step waiting = .next t ∧
    t.phase = .qWaitNv := ⟨_, waiting_inv.control, waiting_inv.quest, rfl, rfl⟩

theorem witness_NothingStopsTheMachine : Inv waiting := waiting_inv

/-- A hunt that is fed: TRY_FRAME runs on an empty FIFO, and the RX producer pushes `67` before every `Pop`, for ever (R264). -/
def fed : State :=
  { booted 0x01 with phase := .xscan, cmdOp := 0x04, turns := ⟨[], [.rx, .controller]⟩, rxIn := ⟨[], [0x67]⟩ }

theorem fed_inv : Inv fed where
  config := standard_legal
  fifo := fifo_reset.congr rfl rfl rfl rfl
  extractor := ⟨by simp [fed, booted, State.reset], fun i _ => by simp [fed, booted, State.reset]⟩
  control := by constructor <;> simp [fed, booted, State.reset, Phase.isEval]
  quest := by constructor <;> first | decide | simp [fed, booted, State.reset]
  mirrored := by simp [Mirrored, fed, booted]
  results := by constructor <;> simp [fed, booted, State.reset]

/-- Both clauses: turns that end, a push among them; and a hunt that is fed for ever. -/
theorem witness_HuntsEndUnlessFedForever :
    (let s : State := { deciding 0x01 spk with turns := ⟨[.rx], []⟩, hostIn := .nil, rxIn := ⟨[0x42], []⟩, nvIn := .nil }
     Inv s ∧ s.turns.cycle = []) ∧
    (Inv fed ∧ fifoBytes fed = [] ∧ Fruitless 0x67 fed ∧ fed.turns = ⟨[], [.rx, .controller]⟩ ∧ fed.rxIn = ⟨[], [0x67]⟩) :=
  ⟨⟨queued_inv (deciding_inv _ _ (by decide) (by decide) (by decide)) _ _ _ _, rfl⟩,
    ⟨fed_inv, by decide, show (0x67 : Byte) ≠ 0x42 by decide, rfl, rfl⟩⟩

/-- The fed hunt's first two steps: the byte comes and goes, and the supplies begin again (U15). -/
theorem test_fed_hunt_goes_on : gives (runSteps 4 fed)
    (fun t => t.phase = .xscan ∧ t.rd = 2 ∧ t.wr = 2 ∧ t.rxIn.head? = some 0x67 ∧ nextTurn t = .rx) = true := by decide

/-- Every clause: an agent's turn with an input and no hold, the RX producer's from a supply without end; the controller's turn;
no turn left. -/
theorem witness_StepRunsDecodedInput :
    (let s : State := { State.reset with turns := ⟨[.host], []⟩, hostIn := ⟨[0], []⟩ }
     nextTurn s = .host ∧ s.hostIn.head? = some 0 ∧ s.phase = .idle) ∧
    (nextTurn fed = .rx ∧ fed.rxIn.head? = some 0x67 ∧ fed.nvBusy = false) ∧
    (let s : State := { waiting with turns := ⟨[.nv], []⟩, nvIn := ⟨[0], []⟩ }
     nextTurn s = .nv ∧ s.nvIn.head? = some 0 ∧ s.phase = .qWaitNv) ∧
    nextTurn { State.reset with turns := ⟨[.controller], []⟩ } = .controller ∧ State.reset.turns = .nil := by decide

theorem witness_PlacedWordRuns : State.reset.phase = .idle ∧ State.reset.nvBusy = false ∧ waiting.phase = .qWaitNv := by
  decide

/-- Every clause: a host's turn in a wait, an RX producer's turn in a wait, a store's turn with nothing asked. -/
theorem witness_HeldAgentsWait :
    (let s : State := { waiting with turns := ⟨[.host], []⟩, hostIn := ⟨[0], []⟩ }
     s.phase ≠ .idle ∧ nextTurn s = .host) ∧
    (let s : State := { waiting with turns := ⟨[.rx], []⟩, rxIn := ⟨[0], []⟩ }
     s.nvBusy = true ∧ nextTurn s = .rx) ∧
    (let s : State := { State.reset with turns := ⟨[.nv], []⟩, nvIn := ⟨[0], []⟩ }
     s.phase ≠ .qWaitNv ∧ nextTurn s = .nv) := by decide

theorem witness_SilentStoreHoldsForever :
    let s : State := { waiting with turns := ⟨[.host, .rx], []⟩, hostIn := ⟨[0], []⟩, rxIn := ⟨[0x42], []⟩ }
    s.phase = .qWaitNv ∧ s.nvBusy = true ∧ s.nvIn = .nil ∧ .reset ∉ s.turns.once ∧ .reset ∉ s.turns.cycle := by decide

theorem witness_ResultsChangeOnlyAtFinish : ∃ t,
    step { State.reset with turns := ⟨[.host], []⟩, hostIn := ⟨[0x0400000000], []⟩ } = .next t ∧ t.phase ≠ .idle :=
  ⟨_, rfl, by decide⟩

theorem witness_ResetClearsRegisters : nextTurn { waiting with turns := ⟨[.reset], []⟩ } = .reset := rfl

theorem witness_CsrWindowReadsRegisters : 0x2F ≤ (0x2F : Byte).toNat ∧ 0x2F ≤ (0xFF : Byte).toNat := by decide

end Sys2Proof.Tests
end

section
/-! PROOFS of family `00_scope.md`. R13's partition of the registers: a lemma per shared operation that the FIFO's writer side (the
parameters, the ring and `wr`) stays, for every operation but PUSH; then the frame of PUSH itself. -/

namespace Sys2Proof.Machine

/-- The parameters, the ring and the write cursor stay: what every step keeps but the RX producer's and, for `wr`, the reset (R13). -/
structure KeepsWriterSide (s t : State) : Prop where
  cfg : t.cfg = s.cfg
  ring : t.ring = s.ring
  wr : t.wr = s.wr

theorem KeepsWriterSide.refl (s : State) : KeepsWriterSide s s := ⟨rfl, rfl, rfl⟩

theorem KeepsWriterSide.congr_left {s u t : State} (h : KeepsWriterSide u t) (hc : u.cfg = s.cfg) (hr : u.ring = s.ring)
    (hw : u.wr = s.wr) : KeepsWriterSide s t := ⟨h.cfg.trans hc, h.ring.trans hr, h.wr.trans hw⟩

theorem finish_keepsWriterSide (st : Status) (len : BitVec 5) (buf : FrameBytes) (s : State) :
    KeepsWriterSide s (finish st len buf s) := ⟨rfl, rfl, rfl⟩

theorem evaluate_keepsWriterSide (s : State) : KeepsWriterSide s (evaluate s) := by
  rw [evaluate_frame]
  exact ⟨rfl, rfl, rfl⟩

theorem afterFill_keepsWriterSide (s : State) : KeepsWriterSide s (afterFill s) := by
  rcases afterFill_cases s with ⟨_, h⟩ | ⟨_, h⟩ <;> rw [h]
  · exact evaluate_keepsWriterSide s
  · exact ⟨rfl, rfl, rfl⟩

theorem fillFrame_keepsWriterSide (f : Frame) (s : State) : KeepsWriterSide s (fillFrame f s) := by
  rcases fillFrame_cases f s with ⟨_, h⟩ | ⟨r, _, h⟩ <;> rw [h]
  · exact .refl s
  · exact (afterFill_keepsWriterSide _).congr_left rfl rfl rfl

theorem recvFrame_keepsWriterSide (f : Frame) (s : State) : KeepsWriterSide s (recvFrame f s) := by
  rcases recvFrame_cases f s with ⟨_, h⟩ | ⟨r, _, h⟩ <;> rw [h] <;> exact ⟨rfl, rfl, rfl⟩

theorem evalStart_keepsWriterSide (s : State) : KeepsWriterSide s (evalStart s) := by
  rcases evalStart_cases s with ⟨_, h⟩ | ⟨_, _, h⟩ | ⟨_, _, _, h⟩ | ⟨_, _, _, _, h⟩ | ⟨_, _, _, h⟩ <;> rw [h]
  · exact finish_keepsWriterSide _ _ _ s
  · exact ⟨rfl, rfl, rfl⟩
  · exact ⟨rfl, rfl, rfl⟩
  · exact ⟨rfl, rfl, rfl⟩
  · exact (evaluate_keepsWriterSide _).congr_left rfl rfl rfl

/-- A hunt's step keeps the writer's side when its two continuations do: `Pop` moves `rd`, and `XFeed` writes the extractor. -/
theorem huntStep_keepsWriterSide {e : State → State} {g : Frame → State → State} {s t : State}
    (he : ∀ s, KeepsWriterSide s (e s)) (hg : ∀ f s, KeepsWriterSide s (g f s)) (h : huntStep e g s = .next t) :
    KeepsWriterSide s t := by
  rcases huntStep_cases h with ⟨_, rfl⟩ | ⟨_, _, ⟨_, rfl⟩ | ⟨f, _, rfl⟩⟩
  · exact he s
  · exact ⟨xfeed_cfg _ _, xfeed_ring _ _, xfeed_wr _ _⟩
  · exact (hg f _).congr_left (xfeed_cfg _ _) (xfeed_ring _ _) (xfeed_wr _ _)

theorem sendStep_keepsWriterSide {s t : State} (h : sendStep s = .next t) : KeepsWriterSide s t := by
  rcases sendStep_cases h with ⟨_, rfl⟩ | ⟨_, _, ⟨_, _, rfl⟩ | ⟨_, _, rfl⟩ | ⟨_, _, rfl⟩⟩ <;> exact ⟨rfl, rfl, rfl⟩

theorem controllerStep_keepsWriterSide {s t : State} (h : controllerStep s = .next t) : KeepsWriterSide s t := by
  rcases controllerStep_cases h with ⟨_, rfl⟩ | ⟨_, _, h⟩ | ⟨_, _, h⟩ | ⟨_, h⟩ | ⟨_, h⟩ | ⟨_, h⟩
  · exact .refl t
  · exact huntStep_keepsWriterSide (finish_keepsWriterSide .noFrame 0 noBytes)
      (fun f => finish_keepsWriterSide .ok f.len (payloadResult f.payload)) h
  · exact huntStep_keepsWriterSide (finish_keepsWriterSide .noFrame 0 noBytes) recvFrame_keepsWriterSide h
  · exact sendStep_keepsWriterSide h
  · exact huntStep_keepsWriterSide afterFill_keepsWriterSide fillFrame_keepsWriterSide h
  · exact huntStep_keepsWriterSide evaluate_keepsWriterSide (fun _ => .refl) h

/-- Of all the instructions PUSH alone writes the ring or `wr`. -/
theorem exec_keepsWriterSide {i : Instr} {s t : State} (hi : ∀ d, i ≠ .push d) (h : exec i s = .next t) :
    KeepsWriterSide s t := by
  rcases exec_cases h with ⟨st, op, a, len, buf, _, rfl, _⟩ | ⟨u, _, _, _, rfl⟩ | ⟨a, o, _, _, op, rfl⟩ | ⟨a, _, rfl⟩ |
    ⟨a, _, rfl⟩ | ⟨a, _, rfl⟩ | ⟨a, _, rfl⟩ | ⟨d, hd, _⟩ | ⟨k, _, _, rfl⟩
  · exact ⟨rfl, rfl, rfl⟩
  · rw [bootRestore_frame]
    exact ⟨rfl, rfl, rfl⟩
  · exact ⟨rfl, rfl, rfl⟩
  · exact ⟨rfl, rfl, rfl⟩
  · exact ⟨rfl, rfl, rfl⟩
  · exact ⟨rfl, rfl, rfl⟩
  · exact (evalStart_keepsWriterSide _).congr_left rfl rfl rfl
  · exact absurd hd (hi d)
  · rw [nvFinish_frame]
    exact ⟨rfl, rfl, rfl⟩

/-- No command word decodes to PUSH, which the RX port alone carries (R80). -/
theorem decode_command_ne_push (w : CommandWord) (d : Byte) : decode (.command w) ≠ .push d := by
  rw [decode, decodeCommand]
  split_ifs <;> exact Instr.noConfusion

/-- PUSH writes the ring and `wr` and nothing else (R111). -/
theorem pushByte_frame {d : Byte} {s t : State} (h : pushByte d s = .next t) : t = { s with ring := t.ring, wr := t.wr } := by
  rcases pushByte_cases h with ⟨_, rfl⟩ | ⟨_, _, rfl⟩ <;> rfl

/-- The RX producer's step writes the ring, `wr` and the producer's own pending bytes, and nothing else. -/
theorem step_rx_frame {s t : State} (hu : nextTurn s = .rx) (h : step s = .next t) :
    t = { s with ring := t.ring, wr := t.wr, rxIn := t.rxIn, turns := s.turns.rest } := by
  rcases step_cases h with rfl | ⟨_, hn, _⟩ | ⟨_, _, _, _, h⟩ | ⟨_, hn, _⟩ | ⟨hn, _⟩ | ⟨hn, _⟩
  · rfl
  · exact absurd (hu.symm.trans hn) (by decide)
  · rw [pushByte_frame (execPush_next.1 h).2]
  · exact absurd (hu.symm.trans hn) (by decide)
  · exact absurd (hu.symm.trans hn) (by decide)
  · exact absurd (hu.symm.trans hn) (by decide)

/-- A step of the host, the store or the controller keeps the writer's side. -/
theorem step_keepsWriterSide {s t : State} (hrx : nextTurn s ≠ .rx) (hreset : nextTurn s ≠ .reset) (h : step s = .next t) :
    KeepsWriterSide s t := by
  rcases step_cases h with rfl | ⟨w, _, _, _, h⟩ | ⟨_, hu, _⟩ | ⟨k, _, _, _, h⟩ | ⟨_, h⟩ | ⟨hu, _⟩
  · exact ⟨rfl, rfl, rfl⟩
  · exact (exec_keepsWriterSide (decode_command_ne_push w) h).congr_left rfl rfl rfl
  · exact absurd hu hrx
  · exact (exec_keepsWriterSide (i := .nvDone k) (by simp) h).congr_left rfl rfl rfl
  · exact (controllerStep_keepsWriterSide h).congr_left rfl rfl rfl
  · exact absurd hu hreset

/-- The reset event clears `wr` and keeps the parameters and the ring's bytes (R250, R251). -/
theorem step_reset {s t : State} (hu : nextTurn s = .reset) (h : step s = .next t) :
    t = resetEvent { s with turns := s.turns.rest } := by
  rw [step_eq, hu] at h
  cases h
  rfl

/-- Settles O15, by whose turn the step takes: the RX producer's (PUSH), the reset event's, or another agent's. -/
theorem singleWriterPerRegister : Obligations.SingleWriterPerRegister := by
  intro s t h
  by_cases hrx : nextTurn s = .rx
  · have ht := step_rx_frame hrx h
    exact ⟨by rw [ht], fun hn => absurd hrx hn, fun _ => ht⟩
  by_cases hreset : nextTurn s = .reset
  · -- of the writer's side the reset clears `wr` alone
    cases step_reset hreset h
    exact ⟨rfl, fun _ => ⟨rfl, fun hn => absurd hreset hn⟩, fun hu => absurd hu hrx⟩
  · have hk := step_keepsWriterSide hrx hreset h
    exact ⟨hk.cfg, fun _ => ⟨hk.ring, fun _ => hk.wr⟩, fun hu => absurd hu hrx⟩

end Sys2Proof.Machine
end

section
/-! PROOFS of family `10_state.md`, the receiving side: what every operation leaves of the read cursor and the extractor, and from
that the FIFO's and the extractor's well-formedness over every step. -/

namespace Sys2Proof.Machine

/-! ### The read cursor and the extractor -/

/-- The read cursor and the extractor's three registers stay: what every operation keeps but `Pop` and `XFeed`. -/
structure KeepsReceiver (s t : State) : Prop where
  rd : t.rd = s.rd
  xs : t.xs = s.xs
  xlen : t.xlen = s.xlen
  xbuf : t.xbuf = s.xbuf

theorem KeepsReceiver.refl (s : State) : KeepsReceiver s s := ⟨rfl, rfl, rfl, rfl⟩

theorem finish_keepsReceiver (st : Status) (len : BitVec 5) (buf : FrameBytes) (s : State) :
    KeepsReceiver s (finish st len buf s) := ⟨rfl, rfl, rfl, rfl⟩

theorem evaluate_keepsReceiver (s : State) : KeepsReceiver s (evaluate s) := by
  rw [evaluate_frame]
  exact ⟨rfl, rfl, rfl, rfl⟩

theorem afterFill_keepsReceiver (s : State) : KeepsReceiver s (afterFill s) := by
  rcases afterFill_cases s with ⟨_, h⟩ | ⟨_, h⟩ <;> rw [h]
  · exact evaluate_keepsReceiver s
  · exact ⟨rfl, rfl, rfl, rfl⟩

theorem fillFrame_keepsReceiver (f : Frame) (s : State) : KeepsReceiver s (fillFrame f s) := by
  rcases fillFrame_cases f s with ⟨_, h⟩ | ⟨r, _, h⟩ <;> rw [h]
  · exact .refl s
  · obtain ⟨hrd, hxs, hxlen, hxbuf⟩ := afterFill_keepsReceiver { s with inRec := r, inValid := true }
    exact ⟨hrd, hxs, hxlen, hxbuf⟩

theorem recvFrame_keepsReceiver (f : Frame) (s : State) : KeepsReceiver s (recvFrame f s) := by
  rcases recvFrame_cases f s with ⟨_, h⟩ | ⟨r, _, h⟩ <;> rw [h] <;> exact ⟨rfl, rfl, rfl, rfl⟩

theorem evalStart_keepsReceiver (s : State) : KeepsReceiver s (evalStart s) := by
  rcases evalStart_cases s with ⟨_, h⟩ | ⟨_, _, h⟩ | ⟨_, _, _, h⟩ | ⟨_, _, _, _, h⟩ | ⟨_, _, _, h⟩ <;> rw [h]
  · exact ⟨rfl, rfl, rfl, rfl⟩
  · exact ⟨rfl, rfl, rfl, rfl⟩
  · exact ⟨rfl, rfl, rfl, rfl⟩
  · exact ⟨rfl, rfl, rfl, rfl⟩
  · obtain ⟨hrd, hxs, hxlen, hxbuf⟩ := evaluate_keepsReceiver { s with qS := .attract, phase := .qFill }
    exact ⟨hrd, hxs, hxlen, hxbuf⟩

/-- No instruction takes a byte or feeds the extractor: the first `Pop()` of a hunt is a later step (R202). -/
theorem exec_keepsReceiver {i : Instr} {s t : State} (h : exec i s = .next t) : KeepsReceiver s t := by
  rcases exec_cases h with ⟨st, op, a, len, buf, _, rfl, _⟩ | ⟨u, _, _, _, rfl⟩ | ⟨a, o, _, _, op, rfl⟩ | ⟨a, _, rfl⟩ |
    ⟨a, _, rfl⟩ | ⟨a, _, rfl⟩ | ⟨a, _, rfl⟩ | ⟨d, _, _, h⟩ | ⟨k, _, _, rfl⟩
  · exact ⟨rfl, rfl, rfl, rfl⟩
  · rw [bootRestore_frame]
    exact ⟨rfl, rfl, rfl, rfl⟩
  · exact ⟨rfl, rfl, rfl, rfl⟩
  · exact ⟨rfl, rfl, rfl, rfl⟩
  · exact ⟨rfl, rfl, rfl, rfl⟩
  · exact ⟨rfl, rfl, rfl, rfl⟩
  · obtain ⟨hrd, hxs, hxlen, hxbuf⟩ := evalStart_keepsReceiver { s with cmdOp := 8, cmdArg := a }
    exact ⟨hrd, hxs, hxlen, hxbuf⟩
  · rw [pushByte_frame h]
    exact ⟨rfl, rfl, rfl, rfl⟩
  · rw [nvFinish_frame]
    exact ⟨rfl, rfl, rfl, rfl⟩

/-- What a hunt's step does to the read cursor and the extractor, when its two continuations leave them: nothing, or a byte is
taken and fed. -/
theorem huntStep_receiver {e : State → State} {g : Frame → State → State} {s t : State}
    (he : ∀ s, KeepsReceiver s (e s)) (hg : ∀ f s, KeepsReceiver s (g f s)) (h : huntStep e g s = .next t) :
    KeepsReceiver s t ∨ (s.rd ≠ s.wr ∧ ∃ b, KeepsReceiver (xfeed b { s with rd := nextCursor s s.rd }).1 t) := by
  rcases huntStep_cases h with ⟨_, rfl⟩ | ⟨hne, _, ⟨_, rfl⟩ | ⟨f, _, rfl⟩⟩
  · exact .inl (he s)
  · exact .inr ⟨hne, _, .refl _⟩
  · exact .inr ⟨hne, _, hg f _⟩

/-- What a controller's step does to the read cursor and the extractor: nothing; or a byte is taken, and fed or, by SEND, not
(R146). -/
theorem controllerStep_receiver {s t : State} (h : controllerStep s = .next t) :
    KeepsReceiver s t ∨ (s.rd ≠ s.wr ∧ ∃ b, KeepsReceiver (xfeed b { s with rd := nextCursor s s.rd }).1 t) ∨
      (s.rd ≠ s.wr ∧ KeepsReceiver { s with rd := nextCursor s s.rd } t) := by
  rcases controllerStep_cases h with ⟨_, rfl⟩ | ⟨_, _, h⟩ | ⟨_, _, h⟩ | ⟨_, h⟩ | ⟨_, h⟩ | ⟨_, h⟩
  · exact .inl (.refl t)
  · exact (huntStep_receiver (finish_keepsReceiver .noFrame 0 noBytes)
      (fun f => finish_keepsReceiver .ok f.len (payloadResult f.payload)) h).imp_right .inl
  · exact (huntStep_receiver (finish_keepsReceiver .noFrame 0 noBytes) recvFrame_keepsReceiver h).imp_right .inl
  · rcases sendStep_cases h with ⟨_, rfl⟩ | ⟨hne, _, ⟨_, _, rfl⟩ | ⟨_, _, rfl⟩ | ⟨_, _, rfl⟩⟩
    · exact .inl ⟨rfl, rfl, rfl, rfl⟩
    · exact .inr (.inr ⟨hne, rfl, rfl, rfl, rfl⟩)
    · exact .inr (.inr ⟨hne, rfl, rfl, rfl, rfl⟩)
    · exact .inr (.inr ⟨hne, rfl, rfl, rfl, rfl⟩)
  · exact (huntStep_receiver afterFill_keepsReceiver fillFrame_keepsReceiver h).imp_right .inl
  · exact (huntStep_receiver evaluate_keepsReceiver (fun _ => .refl) h).imp_right .inl

/-- A controller's step takes at most one byte (R202). -/
theorem controllerStep_rd {s t : State} (h : controllerStep s = .next t) :
    t.rd = s.rd ∨ (s.rd ≠ s.wr ∧ t.rd = nextCursor s s.rd) := by
  rcases controllerStep_receiver h with hk | ⟨hne, b, hk⟩ | ⟨hne, hk⟩
  · exact .inl hk.rd
  · exact .inr ⟨hne, hk.rd.trans (xfeed_rd _ _)⟩
  · exact .inr ⟨hne, hk.rd⟩

/-! ### The FIFO -/

theorem controllerStep_keeps_fifoWf {s t : State} (hw : FifoWf s) (h : controllerStep s = .next t) : FifoWf t := by
  have hk := controllerStep_keepsWriterSide h
  rcases controllerStep_rd h with hrd | ⟨_, hrd⟩
  · exact hw.congr hk.cfg hk.ring hk.wr hrd
  · exact hw.advance.congr hk.cfg hk.ring hk.wr hrd

theorem exec_keeps_fifoWf {i : Instr} {s t : State} (hw : FifoWf s) (h : exec i s = .next t) : FifoWf t := by
  have hr := exec_keepsReceiver h
  by_cases hi : ∃ d, i = .push d
  · obtain ⟨d, rfl⟩ := hi
    rcases pushByte_cases (execPush_next.1 h).2 with ⟨_, rfl⟩ | ⟨_, _, rfl⟩
    · exact hw
    · exact hw.write d
  · have hk := exec_keepsWriterSide (fun d hd => hi ⟨d, hd⟩) h
    exact hw.congr hk.cfg hk.ring hk.wr hr.rd

/-- The reset event puts both cursors at 0 and keeps the ring (R250, R251). -/
theorem resetEvent_keeps_fifoWf {s : State} (hw : FifoWf s) : FifoWf (resetEvent s) :=
  have hpos : 0 < s.cfg.ringSize := by have := hw.sizeLow; omega
  ⟨hw.sizeLow, hw.sizeHigh, hpos, hpos, hw.canonical, hw.inside⟩

/-- Settles O48: PUSH and `Pop` advance their cursor modulo N, the reset clears both, and nothing else writes them or the ring. -/
theorem stepsKeepFifoWellFormed : Obligations.StepsKeepFifoWellFormed := fun _ _ =>
  step_keeps (fun _ _ _ _ _ hw => hw.congr rfl rfl rfl rfl) (fun _ _ _ => exec_keeps_fifoWf)
    (fun _ _ => controllerStep_keeps_fifoWf) (fun _ => resetEvent_keeps_fifoWf)

/-! ### The extractor -/

/-- The extractor's well-formedness depends on its length and accumulator alone. -/
theorem ExtractorWf.congr {s t : State} (h : ExtractorWf s) (hl : t.xlen = s.xlen) (hb : t.xbuf = s.xbuf) : ExtractorWf t :=
  ⟨hl ▸ h.lengthAtMost, by rw [hl, hb]; exact h.clearBeyond⟩

/-- The cleared registers of a frame's start, and of reset (R28, R115). -/
theorem extractorWf_of_cleared {s : State} (hl : s.xlen = 0) (hb : s.xbuf = Vector.replicate 16 0x00) : ExtractorWf s :=
  ⟨by rw [hl]; decide, fun i _ => by rw [hb]; simp⟩

/-- A payload byte is stored at the length, which grows by 1 up to 17 (R115, R116). -/
theorem ExtractorWf.collect {s : State} (h : ExtractorWf s) (b : Byte) : ExtractorWf { s with
    xbuf := if s.xlen.toNat < 16 then s.xbuf.setIfInBounds s.xlen.toNat b else s.xbuf
    xlen := BitVec.ofNat 5 (min (s.xlen.toNat + 1) 17) } := by
  have hlen : (BitVec.ofNat 5 (min (s.xlen.toNat + 1) 17)).toNat = min (s.xlen.toNat + 1) 17 := by
    rw [BitVec.toNat_ofNat]
    omega
  refine ⟨hlen.trans_le (min_le_right _ _), fun i hi => ?_⟩
  dsimp only at hi ⊢
  rw [hlen] at hi
  have hi16 := i.isLt
  split_ifs with hlt
  · -- the byte went below the new length, so slot `i` is one that was clear
    rw [Fin.getElem_fin, Vector.getElem_setIfInBounds, if_neg (by omega)]
    exact h.clearBeyond i (by omega)
  · exact h.clearBeyond i (by omega)

theorem xfeed_keeps_extractorWf (b : Byte) {s : State} (h : ExtractorWf s) : ExtractorWf (xfeed b s).1 := by
  unfold xfeed
  split <;> split
  · exact extractorWf_of_cleared rfl rfl
  · exact h
  · exact h.congr rfl rfl
  · exact (h.collect b).congr rfl rfl

theorem controllerStep_keeps_extractorWf {s t : State} (hx : ExtractorWf s) (h : controllerStep s = .next t) :
    ExtractorWf t := by
  rcases controllerStep_receiver h with hk | ⟨_, b, hk⟩ | ⟨_, hk⟩
  · exact hx.congr hk.xlen hk.xbuf
  · have hu : ExtractorWf { s with rd := nextCursor s s.rd } := hx.congr rfl rfl
    exact (xfeed_keeps_extractorWf b hu).congr hk.xlen hk.xbuf
  · exact hx.congr hk.xlen hk.xbuf

theorem exec_keeps_extractorWf {i : Instr} {s t : State} (hx : ExtractorWf s) (h : exec i s = .next t) : ExtractorWf t :=
  have hk := exec_keepsReceiver h
  hx.congr hk.xlen hk.xbuf

/-- Settles O49: a start marker and the reset clear the extractor, a payload byte is stored below the new length, and nothing else
writes the registers. -/
theorem stepsKeepExtractorWellFormed : Obligations.StepsKeepExtractorWellFormed := fun _ _ =>
  step_keeps (fun _ _ _ _ _ hx => hx.congr rfl rfl) (fun _ _ _ => exec_keeps_extractorWf)
    (fun _ _ => controllerStep_keeps_extractorWf) (fun _ _ => extractorWf_of_cleared rfl rfl)

end Sys2Proof.Machine
end

section
/-! PROOFS of family `10_state.md`, the quest flags: what an operation leaves of a hunt's state in general, and that every operation
but BOOT and the reset sets at most one flag, which the outgoing record then carries. -/

namespace Sys2Proof.Machine

/-- A hunt's step ends in what its continuations give, or in the state with the read cursor and the extractor moved: what holds of
all of these, wherever cursor and extractor are, holds of its end. -/
theorem huntStep_ends {P : State → Prop} {e : State → State} {g : Frame → State → State} {s t : State}
    (h : huntStep e g s = .next t) (he : P (e s))
    (hfeed : ∀ d x l b, P { s with rd := d, xs := x, xlen := l, xbuf := b })
    (hframe : ∀ d x l b, P (g { len := s.xlen, payload := s.xbuf } { s with rd := d, xs := x, xlen := l, xbuf := b })) :
    P t := by
  rcases huntStep_cases h with ⟨_, rfl⟩ | ⟨_, _, ⟨_, rfl⟩ | ⟨f, hf, rfl⟩⟩
  · exact he
  · rw [xfeed_fst]
    exact hfeed _ _ _ _
  · obtain ⟨_, _, rfl, _⟩ := xfeed_frame hf
    rw [xfeed_fst]
    exact hframe _ _ _ _

/-- A byte of flags with one more bit set. -/
theorem getLsbD_setFlag (f : Byte) {i j : Nat} (hj : j < 8) : (setFlag f i).getLsbD j = (f.getLsbD j || decide (j = i)) := by
  rw [setFlag, BitVec.getLsbD_or, BitVec.getLsbD_shiftLeft, show (1 : Byte) = 1#8 from rfl, BitVec.getLsbD_one]
  rcases Nat.lt_trichotomy j i with h | h | h
  · simp [h, Nat.ne_of_lt h]
  · simp [h, h ▸ hj]
  · simp [hj, Nat.ne_of_gt h, show ¬j < i by omega, show j - i ≠ 0 by omega]

/-- From `s` to `t` the flags and their copy in the outgoing record stay, or one of bits 0..6 is set and the copy taken anew. -/
def FlagStep (s t : State) : Prop :=
  (t.qflags = s.qflags ∧ t.outRec[6] = s.outRec[6]) ∨
  ∃ i, i < 7 ∧ t.qflags = setFlag s.qflags i ∧ t.outRec[6] = t.qflags

theorem FlagStep.of_eq {s t : State} (hf : t.qflags = s.qflags) (ho : t.outRec = s.outRec) : FlagStep s t :=
  .inl ⟨hf, by rw [ho]⟩

theorem FlagStep.congr_left {s u t : State} (h : FlagStep u t) (hf : u.qflags = s.qflags) (ho : u.outRec = s.outRec) :
    FlagStep s t := by
  rwa [FlagStep, hf, ho] at h

/-- The flags stay mirrored (R165). -/
theorem FlagStep.mirrored {s t : State} (h : FlagStep s t) (hm : Mirrored s) : Mirrored t := by
  rcases h with ⟨hf, ho⟩ | ⟨i, _, _, ho⟩
  · exact (ho.trans hm).trans hf.symm
  · exact ho

/-- A transition that sets bit `i`, with other registers written before it (R171 to R176). -/
theorem transition_flagStep {s u : State} {i : Nat} (q : QState) (k : QKind) (hi : i < 7) :
    FlagStep s (transition (setFlag s.qflags i) q k u) :=
  .inr ⟨i, hi, rfl, by simp⟩

theorem catBit_lt_seven {q : QState} (h : q ∈ linearStates) : catBit q < 7 := by
  revert h
  cases q <;> decide

theorem finish_flagStep (st : Status) (len : BitVec 5) (buf : FrameBytes) (s : State) : FlagStep s (finish st len buf s) :=
  .of_eq rfl rfl

theorem evaluate_flagStep (s : State) : FlagStep s (evaluate s) := by
  rcases evaluate_cases s with ⟨_, _, h⟩ | ⟨_, _, h⟩ | ⟨hq, _, h⟩ | ⟨_, _, h⟩ | ⟨_, _, g, _, _, h⟩ | ⟨_, _, g, _, _, h⟩ |
    ⟨_, _, h⟩ | ⟨_, h⟩ <;> rw [h]
  · exact transition_flagStep _ _ (by decide)
  · exact .of_eq rfl rfl
  · exact transition_flagStep _ _ (catBit_lt_seven hq)
  · exact .of_eq rfl rfl
  · exact transition_flagStep _ _ (by decide)
  · exact .of_eq rfl rfl
  · exact .of_eq rfl rfl
  · exact .of_eq rfl rfl

theorem afterFill_flagStep (s : State) : FlagStep s (afterFill s) := by
  rcases afterFill_cases s with ⟨_, h⟩ | ⟨_, h⟩ <;> rw [h]
  · exact evaluate_flagStep s
  · exact .of_eq rfl rfl

theorem fillFrame_flagStep (f : Frame) (s : State) : FlagStep s (fillFrame f s) := by
  rcases fillFrame_cases f s with ⟨_, h⟩ | ⟨r, _, h⟩ <;> rw [h]
  · exact .of_eq rfl rfl
  · exact (afterFill_flagStep _).congr_left rfl rfl

theorem recvFrame_flagStep (f : Frame) (s : State) : FlagStep s (recvFrame f s) := by
  rcases recvFrame_cases f s with ⟨_, h⟩ | ⟨r, _, h⟩ <;> rw [h] <;> exact .of_eq rfl rfl

theorem evalStart_flagStep (s : State) : FlagStep s (evalStart s) := by
  rcases evalStart_cases s with ⟨_, h⟩ | ⟨_, _, h⟩ | ⟨_, _, _, h⟩ | ⟨_, _, _, _, h⟩ | ⟨_, _, _, h⟩ <;> rw [h]
  · exact .of_eq rfl rfl
  · exact .of_eq rfl rfl
  · exact .of_eq rfl rfl
  · exact .of_eq rfl rfl
  · exact (evaluate_flagStep _).congr_left rfl rfl

/-- A hunt's step sets at most one flag when its two continuations do. -/
theorem huntStep_flagStep {e : State → State} {g : Frame → State → State} {s t : State}
    (he : ∀ s, FlagStep s (e s)) (hg : ∀ f s, FlagStep s (g f s)) (h : huntStep e g s = .next t) : FlagStep s t :=
  huntStep_ends h (he s) (fun _ _ _ _ => .of_eq rfl rfl) fun _ _ _ _ => (hg _ _).congr_left rfl rfl

theorem controllerStep_flagStep {s t : State} (h : controllerStep s = .next t) : FlagStep s t := by
  rcases controllerStep_cases h with ⟨_, rfl⟩ | ⟨_, _, h⟩ | ⟨_, _, h⟩ | ⟨_, h⟩ | ⟨_, h⟩ | ⟨_, h⟩
  · exact .of_eq rfl rfl
  · exact huntStep_flagStep (finish_flagStep .noFrame 0 noBytes)
      (fun f => finish_flagStep .ok f.len (payloadResult f.payload)) h
  · exact huntStep_flagStep (finish_flagStep .noFrame 0 noBytes) recvFrame_flagStep h
  · rcases sendStep_cases h with ⟨_, rfl⟩ | ⟨_, _, ⟨_, _, rfl⟩ | ⟨_, _, rfl⟩ | ⟨_, _, rfl⟩⟩ <;> exact .of_eq rfl rfl
  · exact huntStep_flagStep afterFill_flagStep fillFrame_flagStep h
  · exact huntStep_flagStep evaluate_flagStep (fun _ _ => .of_eq rfl rfl) h

/-- The first BOOT alone replaces the flags, and mirrors them (R163). -/
theorem exec_flagStep {i : Instr} {s t : State} (h : exec i s = .next t) :
    FlagStep s t ∨ (s.bootDone = false ∧ Mirrored t) := by
  rcases exec_cases h with ⟨st, op, a, len, buf, _, rfl, _⟩ | ⟨u, _, _, hb, rfl⟩ | ⟨a, o, _, ho, op, rfl⟩ | ⟨a, _, rfl⟩ |
    ⟨a, _, rfl⟩ | ⟨a, _, rfl⟩ | ⟨a, _, rfl⟩ | ⟨d, _, _, h⟩ | ⟨k, _, _, rfl⟩
  · exact .inl (.of_eq rfl rfl)
  · refine .inr ⟨hb, ?_⟩
    rw [bootRestore_frame]
    simp [Mirrored]
  · exact .inl (.inl ⟨rfl, ho _⟩)
  · exact .inl (.of_eq rfl rfl)
  · exact .inl (.of_eq rfl rfl)
  · exact .inl (.of_eq rfl rfl)
  · exact .inl ((evalStart_flagStep _).congr_left rfl rfl)
  · rw [pushByte_frame h]
    exact .inl (.of_eq rfl rfl)
  · rw [nvFinish_frame]
    exact .inl (.of_eq rfl rfl)

/-- Every step but the reset sets at most one flag, or is the first BOOT. -/
theorem step_flagStep {s t : State} (hreset : nextTurn s ≠ .reset) (h : step s = .next t) :
    FlagStep s t ∨ (s.bootDone = false ∧ Mirrored t) := by
  rcases step_cases h with rfl | ⟨_, _, _, _, h⟩ | ⟨_, _, _, _, h⟩ | ⟨_, _, _, _, h⟩ | ⟨_, h⟩ | ⟨hu, _⟩
  · exact .inl (.of_eq rfl rfl)
  · exact (exec_flagStep h).imp_left fun hf => hf.congr_left rfl rfl
  · exact (exec_flagStep h).imp_left fun hf => hf.congr_left rfl rfl
  · exact (exec_flagStep h).imp_left fun hf => hf.congr_left rfl rfl
  · exact .inl ((controllerStep_flagStep h).congr_left rfl rfl)
  · exact absurd hu hreset

/-- The outgoing record keeps carrying the flags; the reset clears both (R165, R250). -/
theorem step_keeps_mirrored {s t : State} (hm : Mirrored s) (h : step s = .next t) : Mirrored t := by
  by_cases hreset : nextTurn s = .reset
  · cases step_reset hreset h
    exact (rfl : (State.reset).outRec[6] = State.reset.qflags)
  · rcases step_flagStep hreset h with hf | ⟨_, ht⟩
    · exact hf.mirrored hm
    · exact ht

/-- Settles O44: after BOOT only a transition writes the flags, and it sets one bit. -/
theorem flagsOnlySetOneAtATime : Obligations.FlagsOnlySetOneAtATime := by
  intro s t _ hboot h hreset
  rcases step_flagStep hreset h with (⟨hf, _⟩ | ⟨i, hi, hf, _⟩) | ⟨hnot, _⟩
  · exact .inl hf
  · exact .inr ⟨i, hi, hf⟩
  · exact absurd hboot (by simp [hnot])

end Sys2Proof.Machine
end

section
/-! PROOFS of family `10_state.md`, the invariant of the machine: the controller's and the quest machine's part, the results' part,
and the whole; and that a state which meets it has a next state. -/

namespace Sys2Proof.Machine

/-! ### Flags and states -/

/-- Setting a clear bit of the five category bits counts one more (R160). -/
theorem popcount_set_clear_bit : ∀ (v : BitVec 5) (i : Fin 5), v.getLsbD i = false →
    popcount (v ||| (1 : BitVec 5) <<< i.val) = popcount v + 1 := by decide

theorem popcount_le {w : Nat} (v : BitVec w) : popcount v ≤ w :=
  (List.countP_le_length ..).trans_eq (by simp)

/-- The category bits of a flags byte in which category bit `k + 1` is set. -/
theorem categoryBits_setFlag (f : Byte) {k : Nat} (hk : k < 5) :
    (setFlag f (k + 1)).extractLsb' 1 5 = f.extractLsb' 1 5 ||| (1 : BitVec 5) <<< k := by
  apply BitVec.eq_of_getLsbD_eq
  intro i hi
  rw [BitVec.getLsbD_extractLsb', getLsbD_setFlag f (by omega), BitVec.getLsbD_or, BitVec.getLsbD_extractLsb',
    BitVec.getLsbD_shiftLeft, show (1 : BitVec 5) = 1#5 from rfl, BitVec.getLsbD_one]
  rcases Nat.lt_trichotomy i k with h | h | h
  · simp [h, show 1 + i ≠ k + 1 by omega]
  · simp [h, hk, Nat.add_comm]
  · simp [hi, show 1 + i ≠ k + 1 by omega, show i - k ≠ 0 by omega]

theorem linear_succ : ∀ k < 6, (linear k).succ = linear (k + 1) := by decide

theorem catBit_linear : ∀ k < 6, catBit (linear k) = k + 1 := by decide

theorem linear_mem : ∀ k < 6, linear k ∈ [QState.d, .e, .f, .c, .o, .n] := by decide

theorem lt_five_of_linear_mem : ∀ k < 6, linear k ∈ linearStates → k < 5 := by decide

/-- With bit 6 clear and bit 0 set the state counts the categories (R161). -/
theorem derive_counting {f : Byte} (h6 : f.getLsbD 6 = false) (h0 : f.getLsbD 0 = true) :
    derive f = linear (popcount (f.extractLsb' 1 5)) := by
  rw [derive, h6, h0]
  rfl

theorem derive_complete {f : Byte} (h6 : f.getLsbD 6 = true) : derive f = .complete := by
  rw [derive, if_pos h6]

/-- A counted state is one of D..N (R160). -/
theorem derive_counting_mem {f : Byte} (h6 : f.getLsbD 6 = false) (h0 : f.getLsbD 0 = true) :
    derive f ∈ [QState.d, .e, .f, .c, .o, .n] := by
  rw [derive_counting h6 h0]
  exact linear_mem _ (Nat.lt_succ_of_le (popcount_le _))

/-- In Attract bits 0 and 6 are clear (R161). -/
theorem bits_of_derive_attract {f : Byte} (h : derive f = .attract) : f.getLsbD 6 = false ∧ f.getLsbD 0 = false := by
  cases h6 : f.getLsbD 6
  · cases h0 : f.getLsbD 0
    · exact ⟨rfl, rfl⟩
    · have hm := derive_counting_mem h6 h0
      rw [h] at hm
      exact absurd hm (by decide)
  · rw [derive_complete h6] at h
    cases h

/-- In a linear state bit 6 is clear and bit 0 is set (R161). -/
theorem bits_of_derive_linear {f : Byte} (h : derive f ∈ linearStates) : f.getLsbD 6 = false ∧ f.getLsbD 0 = true := by
  unfold derive at h
  split_ifs at h with h6 h0
  · exact absurd h (by decide)
  · exact ⟨by simpa using h6, h0⟩
  · exact absurd h (by decide)

/-- First contact moves Attract to a linear state or N (R171). -/
theorem forward_first {f : Byte} (h : derive f = .attract) : Forward .attract (derive (setFlag f 0)) := by
  obtain ⟨h6, _⟩ := bits_of_derive_attract h
  refine .inl ⟨rfl, derive_counting_mem ?_ ?_⟩
  · rw [getLsbD_setFlag f (by decide), h6]; rfl
  · rw [getLsbD_setFlag f (by decide)]; simp

/-- An acceptance moves a linear state to its successor (R172). -/
theorem derive_accept {f : Byte} (h : derive f ∈ linearStates) (hc : f.getLsbD (catBit (derive f)) = false) :
    derive (setFlag f (catBit (derive f))) = (derive f).succ := by
  obtain ⟨h6, h0⟩ := bits_of_derive_linear h
  have hd := derive_counting h6 h0
  generalize hv : f.extractLsb' 1 5 = v at hd
  have hk6 : popcount v < 6 := Nat.lt_succ_of_le (popcount_le v)
  have hk : popcount v < 5 := lt_five_of_linear_mem _ hk6 (hd ▸ h)
  rw [hd, catBit_linear _ hk6] at hc ⊢
  have hclear : v.getLsbD (popcount v) = false := by
    rw [← hv, BitVec.getLsbD_extractLsb', hv, Nat.add_comm, hc, Bool.and_false]
  rw [derive_counting, categoryBits_setFlag f hk, hv, popcount_set_clear_bit v ⟨_, hk⟩ hclear, linear_succ _ hk6]
  · rw [getLsbD_setFlag f (by decide), h6]
    simp; omega
  · rw [getLsbD_setFlag f (by decide), h0]; rfl

/-- The group quest's bit makes the state Complete (R175). -/
theorem derive_setFlag_six (f : Byte) : derive (setFlag f 6) = .complete :=
  derive_complete (by rw [getLsbD_setFlag f (by decide)]; simp)

/-- Bit 7 is no quest flag (R34). -/
theorem setFlag_bit7 {f : Byte} {i : Nat} (h : f.getLsbD 7 = false) (hi : i < 7) : (setFlag f i).getLsbD 7 = false := by
  rw [getLsbD_setFlag f (by decide), h]
  simp; omega

theorem bootFlags_bit7 (u : Word32) : (bootFlags u).getLsbD 7 = false := by
  unfold bootFlags
  split_ifs
  · rfl
  · rw [BitVec.getLsbD_and]
    exact Bool.and_false _

/-- The animation pointer goes round D..N (R171). -/
theorem nextAnim_mem {a : QState} (h : a ∈ [QState.d, .e, .f, .c, .o, .n]) :
    nextAnim a ∈ [QState.d, .e, .f, .c, .o, .n] := by
  revert h
  cases a <;> decide

/-- An accepted packet's category bit was clear (R172). -/
theorem clear_of_accepts {c : Config} {f : Byte} {q : QState} {v : Bool} {r : RecordBytes} (h : accepts c f q v r = true) :
    f.getLsbD (catBit q) = false := by
  unfold accepts at h
  simpa using (Bool.and_eq_true_iff.1 h).2

/-! ### The controller and the quest machine -/

/-- The controller's and the quest machine's parts of the invariant. -/
structure CommandWf (s : State) : Prop where
  control : ControlWf s
  quest : QuestWf s

/-- These parts depend on the registers of the controller and of the quest machine alone. -/
theorem CommandWf.congr {s t : State} (h : CommandWf s) (hphase : t.phase = s.phase := by rfl)
    (hop : t.cmdOp = s.cmdOp := by rfl) (hhs : t.hs = s.hs := by rfl) (hbusy : t.nvBusy = s.nvBusy := by rfl)
    (hkind : t.qKind = s.qKind := by rfl) (hboot : t.bootDone = s.bootDone := by rfl)
    (hf : t.qflags = s.qflags := by rfl) (hg : t.gflags = s.gflags := by rfl) (ha : t.anim = s.anim := by rfl)
    (hq : t.qstate = s.qstate := by rfl) (hqS : t.qS = s.qS := by rfl) (hqN : t.qNext = s.qNext := by rfl)
    (hv : t.inValid = s.inValid := by rfl) (hr : t.nvReq = s.nvReq := by rfl) : CommandWf t := by
  obtain ⟨⟨c1, c2, c3, c4, c5, c6⟩, ⟨q1, q2, q3, q4, q5, q6, q7, q8⟩⟩ := h
  refine ⟨⟨?_, ?_, ?_, ?_, ?_, ?_⟩, ⟨?_, ?_, ?_, ?_, ?_, ?_, ?_, ?_⟩⟩ <;>
    simp only [hphase, hop, hhs, hbusy, hkind, hboot, hf, hg, ha, hq, hqS, hqN, hv, hr] <;> assumption

/-- No transition is pending: what the invariant says of the quest machine then, whatever the phase. -/
structure Settled (s : State) : Prop where
  hold : s.nvBusy = false
  pending : s.qKind = .none
  beforeBoot : s.bootDone = false → s.qflags = 0 ∧ s.gflags = 0 ∧ s.anim = .d
  bit7Clear : s.qflags.getLsbD 7 = false
  animLinear : s.anim ∈ [QState.d, .e, .f, .c, .o, .n]
  derived : s.qstate = derive s.qflags

theorem CommandWf.settled {s : State} (h : CommandWf s) (hp : s.phase ≠ .qWaitNv) : Settled s where
  hold := by simpa using mt h.control.hold.1 hp
  pending := not_not.1 (mt h.control.pending.1 hp)
  beforeBoot hb :=
    have ⟨hf, hg, ha, _⟩ := h.quest.beforeBoot hb
    ⟨hf, hg, ha⟩
  bit7Clear := h.quest.bit7Clear
  animLinear := h.quest.animLinear
  derived := h.quest.derived hp

theorem CommandWf.hs_false {s : State} (h : CommandWf s) (hp : s.phase ≠ .hscan) : s.hs = false := by
  simpa using mt h.control.handshake hp

theorem Settled.congr {s t : State} (h : Settled s) (hbusy : t.nvBusy = s.nvBusy := by rfl)
    (hkind : t.qKind = s.qKind := by rfl) (hboot : t.bootDone = s.bootDone := by rfl)
    (hf : t.qflags = s.qflags := by rfl) (hg : t.gflags = s.gflags := by rfl) (ha : t.anim = s.anim := by rfl)
    (hq : t.qstate = s.qstate := by rfl) : Settled t := by
  obtain ⟨h1, h2, h3, h4, h5, h6⟩ := h
  refine ⟨?_, ?_, ?_, ?_, ?_, ?_⟩ <;> simp only [hbusy, hkind, hboot, hf, hg, ha, hq] <;> assumption

/-- With no EVAL under way, a settled state needs only the phase's own command and the handshake's phase. -/
theorem Settled.outsideEval {s : State} (h : Settled s) (he : s.phase.isEval = false)
    (hx : s.phase = .xscan → s.cmdOp = 0x04 ∨ s.cmdOp = 0x05) (hh : s.phase = .hscan → s.cmdOp = 0x07)
    (hs : s.hs = true → s.phase = .hscan) : CommandWf s := by
  have hwait : s.phase ≠ .qWaitNv := fun e => by rw [e] at he; cases he
  have hfill : s.phase ≠ .qFill := fun e => by rw [e] at he; cases he
  have hdrain : s.phase ≠ .qDrain := fun e => by rw [e] at he; cases he
  refine ⟨⟨hx, hh, fun e => ?_, hs, ?_, ?_⟩, ⟨fun hb => ?_, h.bit7Clear, h.animLinear, fun _ => h.derived, fun e => ?_,
    fun e => absurd e hfill, fun e => absurd e hdrain, fun e => absurd e hwait⟩⟩
  · rw [he] at e; cases e
  · simp [h.hold, hwait]
  · simp [h.pending, hwait]
  · obtain ⟨hf, hg, ha⟩ := h.beforeBoot hb
    exact ⟨hf, hg, ha, he⟩
  · rw [he] at e; cases e

theorem Settled.idle {s : State} (h : Settled s) (hp : s.phase = .idle) (hs : s.hs = false) : CommandWf s :=
  h.outsideEval (by rw [hp]; rfl) (fun e => by rw [hp] at e; cases e) (fun e => by rw [hp] at e; cases e)
    fun e => by rw [hs] at e; cases e

/-- A running EVAL that has requested nothing yet: what its fill, its drain and its evaluation rely on, whatever their phase. -/
structure EvalRunning (s : State) : Prop where
  settled : Settled s
  booted : s.bootDone = true
  command : s.cmdOp = 0x08
  handshake : s.hs = false
  latched : s.qS = s.qstate

theorem CommandWf.evalRunning {s : State} (h : CommandWf s) (hp : s.phase = .qFill ∨ s.phase = .qDrain) :
    EvalRunning s := by
  have hw : s.phase ≠ .qWaitNv := by rcases hp with hp | hp <;> simp [hp]
  have hh : s.phase ≠ .hscan := by rcases hp with hp | hp <;> simp [hp]
  have he : s.phase.isEval = true := by rcases hp with hp | hp <;> simp [hp, Phase.isEval]
  refine ⟨h.settled hw, ?_, h.control.evalCommand he, h.hs_false hh, h.quest.latched he⟩
  by_contra hb
  have hbefore := (h.quest.beforeBoot (by simpa using hb)).2.2.2
  rw [he] at hbefore
  cases hbefore

theorem EvalRunning.congr {s t : State} (h : EvalRunning s) (hs : Settled t) (hboot : t.bootDone = s.bootDone := by rfl)
    (hop : t.cmdOp = s.cmdOp := by rfl) (hhs : t.hs = s.hs := by rfl) (hqS : t.qS = s.qS := by rfl)
    (hq : t.qstate = s.qstate := by rfl) : EvalRunning t :=
  ⟨hs, hboot.trans h.booted, hop.trans h.command, hhs.trans h.handshake, by rw [hqS, hq]; exact h.latched⟩

theorem EvalRunning.fill {s : State} (h : EvalRunning s) (hp : s.phase = .qFill) (hq : s.qS ≠ .complete)
    (hv : s.inValid = false) : CommandWf s := by
  have hs := h.settled
  refine ⟨⟨?_, ?_, fun _ => h.command, ?_, ?_, ?_⟩, ⟨?_, hs.bit7Clear, hs.animLinear, fun _ => hs.derived,
    fun _ => h.latched, fun _ => ⟨hq, hv⟩, ?_, ?_⟩⟩ <;> simp [hp, h.handshake, hs.hold, hs.pending, h.booted]

theorem EvalRunning.drain {s : State} (h : EvalRunning s) (hp : s.phase = .qDrain) (hq : s.qS ≠ .attract)
    (hv : s.qS = .complete → s.inValid = false) : CommandWf s := by
  have hs := h.settled
  refine ⟨⟨?_, ?_, fun _ => h.command, ?_, ?_, ?_⟩, ⟨?_, hs.bit7Clear, hs.animLinear, fun _ => hs.derived,
    fun _ => h.latched, ?_, fun _ => ⟨hq, hv⟩, ?_⟩⟩ <;> simp [hp, h.handshake, hs.hold, hs.pending, h.booted]

/-- A transition that the flags make and the quest machine may make, while the store is awaited (R176). -/
theorem EvalRunning.transition {s : State} (h : EvalRunning s) {f : Byte} {q : QState} {k : QKind} (hk : k ≠ .none)
    (h7 : f.getLsbD 7 = false) (hq : q = derive f) (hf : Forward s.qstate q) (hc : k = .complete → q = .complete) :
    CommandWf (transition f q k s) := by
  refine ⟨⟨?_, ?_, fun _ => h.command, ?_, ?_, ?_⟩, ⟨?_, h7, h.settled.animLinear, ?_, fun _ => h.latched, ?_, ?_,
    fun _ => ⟨hq, hf, rfl, hc⟩⟩⟩ <;> simp [h.handshake, h.booted, hk]

/-- An evaluation keeps the controller and the quest machine well formed: it ends the EVAL in a settled state, or starts a
transition that its flags make (R170 to R176). -/
theorem EvalRunning.evaluate {s : State} (h : EvalRunning s) : CommandWf (evaluate s) := by
  have hs := h.settled
  have htaken : EvalRunning { s with inValid := false } := h.congr hs.congr
  have hq : s.qS = derive s.qflags := h.latched.trans hs.derived
  rcases evaluate_cases s with ⟨ha, _, he⟩ | ⟨_, _, he⟩ | ⟨hl, hacc, he⟩ | ⟨_, _, he⟩ | ⟨hn, _, g, _, _, he⟩ |
    ⟨_, _, g, _, _, he⟩ | ⟨_, _, he⟩ | ⟨_, he⟩ <;> rw [he]
  · refine htaken.transition (by simp) (setFlag_bit7 hs.bit7Clear (by decide)) rfl ?_ (by simp)
    rw [show ({ s with inValid := false } : State).qstate = .attract from h.latched.symm.trans ha]
    exact forward_first (hq.symm.trans ha)
  · exact Settled.idle ⟨hs.hold, hs.pending, fun hb => absurd hb (by simp [h.booted]), hs.bit7Clear,
      nextAnim_mem hs.animLinear, hs.derived⟩ rfl h.handshake
  · refine htaken.transition (by simp) (setFlag_bit7 hs.bit7Clear (catBit_lt_seven hl)) ?_ ?_ (by simp)
    · rw [hq] at hl hacc ⊢
      exact (derive_accept hl (clear_of_accepts hacc)).symm
    · exact .inr (.inl ⟨by rw [← h.latched]; exact hl, by rw [h.latched]⟩)
  · exact hs.congr.idle rfl h.handshake
  · have hcollected : EvalRunning { s with inValid := false, gflags := setGroup s.gflags g } :=
      h.congr ⟨hs.hold, hs.pending, fun hb => absurd hb (by simp [h.booted]), hs.bit7Clear, hs.animLinear, hs.derived⟩
    exact hcollected.transition (by simp) (setFlag_bit7 hs.bit7Clear (by decide)) (derive_setFlag_six _).symm
      (.inr (.inr ⟨h.latched.symm.trans hn, rfl⟩)) fun _ => rfl
  · exact Settled.idle ⟨hs.hold, hs.pending, fun hb => absurd hb (by simp [h.booted]), hs.bit7Clear, hs.animLinear,
      hs.derived⟩ rfl h.handshake
  · exact hs.congr.idle rfl h.handshake
  · exact hs.congr.idle rfl h.handshake

/-- What follows the fill keeps them too: the latched state is not Complete there (R166). -/
theorem EvalRunning.afterFill {s : State} (h : EvalRunning s) (hq : s.qS ≠ .complete) : CommandWf (afterFill s) := by
  rcases afterFill_cases s with ⟨_, he⟩ | ⟨ha, he⟩ <;> rw [he]
  · exact h.evaluate
  · exact (h.congr h.settled.congr).drain rfl ha fun e => absurd e hq

theorem EvalRunning.fillFrame {s : State} (h : EvalRunning s) (hp : s.phase = .qFill) (hq : s.qS ≠ .complete)
    (hv : s.inValid = false) (f : Frame) : CommandWf (fillFrame f s) := by
  rcases fillFrame_cases f s with ⟨_, he⟩ | ⟨r, _, he⟩ <;> rw [he]
  · exact h.fill hp hq hv
  · exact (h.congr h.settled.congr).afterFill hq

/-- The start of an EVAL in a settled state (R166 to R168). -/
theorem Settled.evalStart {s : State} (h : Settled s) (hop : s.cmdOp = 0x08) (hs : s.hs = false) :
    CommandWf (evalStart s) := by
  rcases evalStart_cases s with ⟨_, he⟩ | ⟨hb, hc, he⟩ | ⟨hb, hc, hv, he⟩ | ⟨hb, hc, ha, _, he⟩ | ⟨hb, ha, _, he⟩ <;> rw [he]
  · exact h.congr.idle rfl hs
  · exact EvalRunning.drain ⟨h.congr, hb, hop, hs, hc.symm⟩ rfl (by simp) fun _ => rfl
  · exact EvalRunning.fill ⟨h.congr, hb, hop, hs, rfl⟩ rfl hc hv
  · exact EvalRunning.drain ⟨h.congr, hb, hop, hs, rfl⟩ rfl ha fun e => absurd e hc
  · exact EvalRunning.evaluate ⟨h.congr, hb, hop, hs, ha.symm⟩

/-- SEND's step stays in the handshake hunt or ends it with no progress left (R146). -/
theorem sendStep_keeps_commandWf {s t : State} (h : CommandWf s) (hp : s.phase = .hscan) (hstep : sendStep s = .next t) :
    CommandWf t := by
  have hs := h.settled (by simp [hp])
  rcases sendStep_cases hstep with ⟨_, rfl⟩ | ⟨_, _, ⟨_, _, rfl⟩ | ⟨_, _, rfl⟩ | ⟨_, _, rfl⟩⟩
  · exact hs.congr.idle rfl rfl
  · exact hs.congr.outsideEval (by simp [hp, Phase.isEval]) (by simp [hp]) (fun _ => h.control.hscanCommand hp) fun _ => hp
  · exact hs.congr.idle rfl rfl
  · exact h.congr

/-- A hunt of TRY_FRAME or RECV goes on in XSCAN, or its continuation ends the command. -/
theorem controllerStep_keeps_commandWf {s t : State} (h : CommandWf s) (hstep : controllerStep s = .next t) :
    CommandWf t := by
  rcases controllerStep_cases hstep with ⟨_, rfl⟩ | ⟨hp, _, hstep⟩ | ⟨hp, _, hstep⟩ | ⟨hp, hstep⟩ | ⟨hp, hstep⟩ | ⟨hp, hstep⟩
  · exact h
  · have hs := h.settled (by simp [hp])
    have hhs := h.hs_false (by simp [hp])
    exact huntStep_ends hstep (hs.congr.idle rfl hhs) (fun _ _ _ _ => h.congr) fun _ _ _ _ => hs.congr.idle rfl hhs
  · have hs := h.settled (by simp [hp])
    have hhs := h.hs_false (by simp [hp])
    refine huntStep_ends hstep (hs.congr.idle rfl hhs) (fun _ _ _ _ => h.congr) fun d x l b => ?_
    rcases recvFrame_cases { len := s.xlen, payload := s.xbuf } { s with rd := d, xs := x, xlen := l, xbuf := b } with
      ⟨_, he⟩ | ⟨r, _, he⟩ <;> rw [he] <;> exact hs.congr.idle rfl hhs
  · exact sendStep_keeps_commandWf h hp hstep
  · have hr := h.evalRunning (.inl hp)
    obtain ⟨hq, hv⟩ := h.quest.filling hp
    refine huntStep_ends hstep (hr.afterFill hq) (fun _ _ _ _ => h.congr) fun d x l b => ?_
    exact EvalRunning.fillFrame (s := { s with rd := d, xs := x, xlen := l, xbuf := b }) (hr.congr hr.settled.congr)
      hp hq hv _
  · exact huntStep_ends hstep (h.evalRunning (.inr hp)).evaluate (fun _ _ _ _ => h.congr) fun _ _ _ _ => h.congr

/-- The store's answer settles the pending transition (R177). -/
theorem CommandWf.nvFinish {s : State} (h : CommandWf s) (hp : s.phase = .qWaitNv) (k : BitVec 1) :
    CommandWf (nvFinish k s) := by
  obtain ⟨hnext, _⟩ := h.quest.waiting hp
  have hb : s.bootDone ≠ false := fun hb => by
    have hbefore := (h.quest.beforeBoot hb).2.2.2
    rw [hp] at hbefore
    cases hbefore
  rw [nvFinish_frame]
  exact Settled.idle ⟨rfl, rfl, fun e => absurd e hb, h.quest.bit7Clear, h.quest.animLinear, hnext⟩ rfl
    (h.hs_false (by simp [hp]))

theorem exec_keeps_commandWf {i : Instr} {s t : State} (h : CommandWf s) (hstep : exec i s = .next t) : CommandWf t := by
  have hsettled (hp : s.phase = .idle) : Settled s := h.settled (by simp [hp])
  have hhs (hp : s.phase = .idle) : s.hs = false := h.hs_false (by simp [hp])
  rcases exec_cases hstep with ⟨st, op, a, len, buf, hp, rfl, _⟩ | ⟨u, hp, _, _, rfl⟩ | ⟨a, o, hp, _, op, rfl⟩ | ⟨a, hp, rfl⟩ |
    ⟨a, hp, rfl⟩ | ⟨a, hp, rfl⟩ | ⟨a, hp, rfl⟩ | ⟨d, _, _, hstep⟩ | ⟨k, _, hp, rfl⟩
  · exact (hsettled hp).congr.idle rfl (hhs hp)
  · rw [bootRestore_frame]
    exact Settled.idle ⟨(hsettled hp).hold, (hsettled hp).pending, by simp, bootFlags_bit7 u, by simp, rfl⟩ rfl (hhs hp)
  · exact (hsettled hp).congr.idle rfl (hhs hp)
  · exact (hsettled hp).congr.outsideEval rfl (fun _ => .inl rfl) (by simp) (by simp [hhs hp])
  · exact (hsettled hp).congr.outsideEval rfl (fun _ => .inr rfl) (by simp) (by simp [hhs hp])
  · exact (hsettled hp).congr.outsideEval rfl (by simp) (fun _ => rfl) (by simp)
  · exact (hsettled hp).congr.evalStart rfl (hhs hp)
  · rw [pushByte_frame hstep]
    exact h.congr
  · exact h.nvFinish hp k

theorem resetEvent_commandWf (s : State) : CommandWf (resetEvent s) :=
  Settled.idle ⟨rfl, rfl, fun _ => ⟨rfl, rfl, rfl⟩, (by decide : (0 : Byte).getLsbD 7 = false), List.mem_cons_self,
    (by decide : QState.attract = derive 0)⟩ rfl rfl

theorem step_keeps_commandWf {s t : State} (h : CommandWf s) (hstep : step s = .next t) : CommandWf t :=
  step_keeps (fun _ _ _ _ _ h => h.congr) (fun _ _ _ => exec_keeps_commandWf) (fun _ _ => controllerStep_keeps_commandWf)
    (fun _ _ => resetEvent_commandWf _) h hstep

/-! ### The results -/

theorem ResultsWf.congr {s t : State} (h : ResultsWf s) (hst : t.resStatus = s.resStatus := by rfl)
    (hl : t.resLen = s.resLen := by rfl) : ResultsWf t :=
  ⟨hst ▸ h.statusAtMost, hl ▸ h.lengthAtMost⟩

theorem statusCode_le (st : Status) : (statusCode st).toNat ≤ 7 := by
  cases st <;> decide

theorem finish_resultsWf (st : Status) {len : BitVec 5} (buf : FrameBytes) (s : State) (h : len.toNat ≤ 18) :
    ResultsWf (finish st len buf s) := ⟨statusCode_le st, h⟩

theorem finishState_resultsWf (q : QState) (s : State) : ResultsWf (finishState q s) :=
  finish_resultsWf .ok _ s (by decide)

theorem evaluate_keeps_resultsWf {s : State} (h : ResultsWf s) : ResultsWf (evaluate s) := by
  rcases evaluate_cases s with ⟨_, _, he⟩ | ⟨_, _, he⟩ | ⟨_, _, he⟩ | ⟨_, _, he⟩ | ⟨_, _, g, _, _, he⟩ |
    ⟨_, _, g, _, _, he⟩ | ⟨_, _, he⟩ | ⟨_, he⟩ <;> rw [he]
  · exact h.congr
  · exact finishState_resultsWf _ _
  · exact h.congr
  · exact finishState_resultsWf _ _
  · exact h.congr
  · exact finishState_resultsWf _ _
  · exact finishState_resultsWf _ _
  · exact finishState_resultsWf _ _

theorem afterFill_keeps_resultsWf {s : State} (h : ResultsWf s) : ResultsWf (afterFill s) := by
  rcases afterFill_cases s with ⟨_, he⟩ | ⟨_, he⟩ <;> rw [he]
  · exact evaluate_keeps_resultsWf h
  · exact h.congr

theorem fillFrame_keeps_resultsWf (f : Frame) {s : State} (h : ResultsWf s) : ResultsWf (fillFrame f s) := by
  rcases fillFrame_cases f s with ⟨_, he⟩ | ⟨r, _, he⟩ <;> rw [he]
  · exact h
  · exact afterFill_keeps_resultsWf h.congr

theorem recvFrame_resultsWf {f : Frame} (s : State) (h : f.len.toNat ≤ 17) : ResultsWf (recvFrame f s) := by
  rcases recvFrame_cases f s with ⟨_, he⟩ | ⟨r, _, he⟩ <;> rw [he]
  · exact finish_resultsWf _ _ _ (h.trans (by decide))
  · exact finish_resultsWf _ _ _ (by decide)

theorem evalStart_keeps_resultsWf {s : State} (h : ResultsWf s) : ResultsWf (evalStart s) := by
  rcases evalStart_cases s with ⟨_, he⟩ | ⟨_, _, he⟩ | ⟨_, _, _, he⟩ | ⟨_, _, _, _, he⟩ | ⟨_, _, _, he⟩ <;> rw [he]
  · exact finish_resultsWf _ _ _ (by decide)
  · exact h.congr
  · exact h.congr
  · exact h.congr
  · exact evaluate_keeps_resultsWf h.congr

/-- The length that TRY_FRAME and RECV report is the extractor's, at most 17 (R117). -/
theorem controllerStep_keeps_resultsWf {s t : State} (h : ResultsWf s) (hx : ExtractorWf s)
    (hstep : controllerStep s = .next t) : ResultsWf t := by
  have hlen := hx.lengthAtMost
  rcases controllerStep_cases hstep with ⟨_, rfl⟩ | ⟨_, _, hstep⟩ | ⟨_, _, hstep⟩ | ⟨_, hstep⟩ | ⟨_, hstep⟩ | ⟨_, hstep⟩
  · exact h
  · exact huntStep_ends hstep (finish_resultsWf _ _ _ (by decide)) (fun _ _ _ _ => h.congr)
      fun _ _ _ _ => finish_resultsWf _ _ _ (hlen.trans (by decide))
  · exact huntStep_ends hstep (finish_resultsWf _ _ _ (by decide)) (fun _ _ _ _ => h.congr)
      fun _ _ _ _ => recvFrame_resultsWf _ hlen
  · rcases sendStep_cases hstep with ⟨_, rfl⟩ | ⟨_, _, ⟨_, _, rfl⟩ | ⟨_, _, rfl⟩ | ⟨_, _, rfl⟩⟩
    · exact finish_resultsWf _ _ _ (by decide)
    · exact h.congr
    · exact finish_resultsWf _ _ _ (by decide)
    · exact h.congr
  · exact huntStep_ends hstep (afterFill_keeps_resultsWf h) (fun _ _ _ _ => h.congr)
      fun _ _ _ _ => fillFrame_keeps_resultsWf _ h.congr
  · exact huntStep_ends hstep (evaluate_keeps_resultsWf h) (fun _ _ _ _ => h.congr) fun _ _ _ _ => h.congr

theorem exec_keeps_resultsWf {i : Instr} {s t : State} (h : ResultsWf s) (hstep : exec i s = .next t) : ResultsWf t := by
  rcases exec_cases hstep with ⟨st, op, a, len, buf, _, rfl, hlen⟩ | ⟨u, _, _, _, rfl⟩ | ⟨a, o, _, _, op, rfl⟩ |
    ⟨a, _, rfl⟩ | ⟨a, _, rfl⟩ | ⟨a, _, rfl⟩ | ⟨a, _, rfl⟩ | ⟨d, _, _, hstep⟩ | ⟨k, _, _, rfl⟩
  · exact finish_resultsWf _ _ _ (by rcases hlen with rfl | rfl <;> decide)
  · rw [bootRestore_frame]
    exact ⟨Nat.zero_le 7, (by decide : 1 ≤ 18)⟩
  · exact finish_resultsWf _ _ _ (by decide)
  · exact h.congr
  · exact h.congr
  · exact h.congr
  · exact evalStart_keeps_resultsWf h.congr
  · rw [pushByte_frame hstep]
    exact h.congr
  · exact finishState_resultsWf _ _

theorem resetEvent_resultsWf (s : State) : ResultsWf (resetEvent s) := ⟨Nat.zero_le 7, Nat.zero_le 18⟩

/-- With the extractor well formed, from which two commands report their length. -/
theorem step_keeps_resultsWf {s t : State} (h : ResultsWf s) (hx : ExtractorWf s) (hstep : step s = .next t) :
    ResultsWf t :=
  (step_keeps (P := fun s => ResultsWf s ∧ ExtractorWf s) (fun _ _ _ _ _ h => ⟨h.1.congr, h.2.congr rfl rfl⟩)
    (fun _ _ _ h hstep => ⟨exec_keeps_resultsWf h.1 hstep, exec_keeps_extractorWf h.2 hstep⟩)
    (fun _ _ h hstep =>
      ⟨controllerStep_keeps_resultsWf h.1 h.2 hstep, controllerStep_keeps_extractorWf h.2 hstep⟩)
    (fun s _ => ⟨resetEvent_resultsWf s, extractorWf_of_cleared rfl rfl⟩) ⟨h, hx⟩ hstep).1

/-! ### The whole invariant -/

/-- Settles O46: every part at the reset values; the default parameters are legal. -/
theorem resetMeetsInvariant : Obligations.ResetMeetsInvariant where
  config := by decide
  fifo := ⟨by decide, by decide, by decide, by decide, reset_ring_wf, fun _ hc => by cases hc⟩
  extractor := extractorWf_of_cleared rfl rfl
  control := (resetEvent_commandWf State.reset).control
  quest := (resetEvent_commandWf State.reset).quest
  mirrored := (rfl : State.reset.outRec[6] = State.reset.qflags)
  results := resetEvent_resultsWf State.reset

/-- Settles O47, part by part. -/
theorem stepsKeepInvariant : Obligations.StepsKeepInvariant := by
  intro s t h hstep
  have hcommand := step_keeps_commandWf ⟨h.control, h.quest⟩ hstep
  exact {
    config := by
      rw [(singleWriterPerRegister s t hstep).1]
      exact h.config
    fifo := stepsKeepFifoWellFormed s t h.fifo hstep
    extractor := stepsKeepExtractorWellFormed s t h.extractor hstep
    control := hcommand.control
    quest := hcommand.quest
    mirrored := step_keeps_mirrored h.mirrored hstep
    results := step_keeps_resultsWf h.results h.extractor hstep }

/-! ### A next state -/

/-- The controller stops only where a cursor is outside the ring or XSCAN runs no hunt. -/
theorem controllerStep_answers {s : State} (hw : FifoWf s) (hc : ControlWf s) : ∃ t, controllerStep s = .next t := by
  unfold controllerStep
  split
  · exact ⟨_, rfl⟩
  · rename_i hp
    split_ifs with h4 h5
    · exact huntStep_answers _ _ hw.rdInside
    · exact huntStep_answers _ _ hw.rdInside
    · exact absurd (hc.xscanCommand hp) (not_or.2 ⟨h4, h5⟩)
  · exact sendStep_answers hw.rdInside
  · exact huntStep_answers _ _ hw.rdInside
  · exact huntStep_answers _ _ hw.rdInside
  · exact ⟨_, rfl⟩

end Sys2Proof.Machine
end

section
/-! PROOFS of family `10_state.md`, the ring's unread slots: every operation but PUSH and `Pop` commutes with a change of the ring's
contents, and those two see a slot only while it holds an unread byte. -/

namespace Sys2Proof.Machine

/-! ### A next state -/

/-- An idle controller accepts every command word (R84, R201). -/
theorem exec_command_answers (w : CommandWord) {s : State} (hp : s.phase = .idle) :
    ∃ t, exec (decode (.command w)) s = .next t := by
  rw [decode, decodeCommand]
  split_ifs <;> simp only [exec, execNop, execBoot, execSetUid, execSetType, execTryFrame, execRecv, execEncode, execSend,
    execEval, execIllegal] <;> exact ⟨_, accept_idle hp⟩

/-! ### The turns of the three ports -/

/-- A turn of an agent with an input of a port and the hold's condition: it waits or it acts. -/
theorem waits_or_acts {α : Type} (q : Supply α) (enabled : Prop) :
    (q.head? = none ∨ ¬enabled) ∨ ∃ x, q.head? = some x ∧ enabled := by
  cases q.head? with
  | none => exact .inl (.inl rfl)
  | some x =>
    by_cases h : enabled
    · exact .inr ⟨x, rfl, h⟩
    · exact .inl (.inr h)

theorem hostTurn_waits {s : State} (h : s.hostIn.head? = none ∨ s.phase ≠ .idle) : hostTurn s = .next s := by
  unfold hostTurn
  split
  · rfl
  · rename_i w hw
    exact if_neg (h.resolve_left (by simp [hw]))

theorem hostTurn_issues {s : State} {w : CommandWord} (hw : s.hostIn.head? = some w) (hp : s.phase = .idle) :
    hostTurn s = exec (decode (.command w)) { s with hostIn := s.hostIn.rest } := by
  unfold hostTurn
  rw [hw]
  exact if_pos hp

theorem rxTurn_waits {s : State} (h : s.rxIn.head? = none ∨ ¬s.nvBusy = false) : rxTurn s = .next s := by
  unfold rxTurn
  split
  · rfl
  · rename_i d hd
    exact if_pos (by simpa [hd] using h)

theorem rxTurn_pushes {s : State} {d : Byte} (hd : s.rxIn.head? = some d) (hb : s.nvBusy = false) :
    rxTurn s = pushByte d { s with rxIn := s.rxIn.rest } := by
  have hfree : ¬s.nvBusy = true := by simp [hb]
  unfold rxTurn
  rw [hd]
  exact (if_neg hfree).trans (if_neg hfree)

theorem nvTurn_waits {s : State} (h : s.nvIn.head? = none ∨ s.phase ≠ .qWaitNv) : nvTurn s = .next s := by
  unfold nvTurn
  split
  · rfl
  · rename_i k hk
    exact if_neg (h.resolve_left (by simp [hk]))

theorem nvTurn_answers {s : State} {k : BitVec 1} (hk : s.nvIn.head? = some k) (hp : s.phase = .qWaitNv) :
    nvTurn s = .next (nvFinish k { s with nvIn := s.nvIn.rest }) := by
  unfold nvTurn
  rw [hk]
  exact (if_pos hp).trans (if_pos hp)

/-- With both cursors inside the ring and the controller well formed, every turn has a next state. -/
theorem takeTurn_answers (u : Turn) {s : State} (hw : FifoWf s) (hc : ControlWf s) : ∃ t, takeTurn u s = .next t := by
  cases u with
  | host =>
    rcases waits_or_acts s.hostIn (s.phase = .idle) with h | ⟨w, hword, hp⟩
    · exact ⟨s, hostTurn_waits h⟩
    · rw [takeTurn, hostTurn_issues hword hp]
      exact exec_command_answers w hp
  | rx =>
    rcases waits_or_acts s.rxIn (s.nvBusy = false) with h | ⟨d, hd, hb⟩
    · exact ⟨s, rxTurn_waits h⟩
    · rw [takeTurn, rxTurn_pushes hd hb]
      exact pushByte_answers d hw.wrInside
  | nv =>
    rcases waits_or_acts s.nvIn (s.phase = .qWaitNv) with h | ⟨k, hk, hp⟩
    · exact ⟨s, nvTurn_waits h⟩
    · exact ⟨_, nvTurn_answers hk hp⟩
  | controller => exact controllerStep_answers hw hc
  | reset => exact ⟨_, rfl⟩

/-- Every step has one too (R220). -/
theorem step_answers {s : State} (hw : FifoWf s) (hc : ControlWf s) : ∃ t, step s = .next t :=
  takeTurn_answers _ (s := { s with turns := s.turns.rest }) (hw.congr rfl rfl rfl rfl)
    ⟨hc.xscanCommand, hc.hscanCommand, hc.evalCommand, hc.handshake, hc.hold, hc.pending⟩

/-! ### Another ring under the same registers -/

/-- The state with other ring contents. -/
def State.withRing (r : List Host.Cell) (s : State) : State := { s with ring := r }

section
variable {r : List Host.Cell}

theorem evalAttract_withRing (v : Bool) (s : State) : evalAttract v (s.withRing r) = (evalAttract v s).withRing r := by
  cases v <;> rfl

theorem evalLinear_withRing (q : QState) (v : Bool) (p : RecordBytes) (s : State) :
    evalLinear q v p (s.withRing r) = (evalLinear q v p s).withRing r := by
  unfold evalLinear
  change (if accepts s.cfg s.qflags q v p = true then _ else _) = _
  split_ifs <;> rfl

theorem evalN_withRing (v : Bool) (p : RecordBytes) (s : State) :
    evalN v p (s.withRing r) = (evalN v p s).withRing r := by
  unfold evalN
  simp only [State.withRing]
  split
  · rename_i g _
    change (if setGroup s.gflags g = 0b111111 then _ else _) =
      State.withRing r (if setGroup s.gflags g = 0b111111 then _ else _)
    split_ifs <;> rfl
  · rfl

theorem evaluate_withRing (s : State) : evaluate (s.withRing r) = (evaluate s).withRing r := by
  by_cases hm : s.qS ∈ linearStates
  · rw [evaluate_linear hm, evaluate_linear (s := s.withRing r) hm]
    exact evalLinear_withRing _ _ _ { s with inValid := false }
  cases hq : s.qS with
  | attract =>
    rw [evaluate_attract hq, evaluate_attract (s := s.withRing r) hq]
    exact evalAttract_withRing _ { s with inValid := false }
  | n =>
    rw [evaluate_n hq, evaluate_n (s := s.withRing r) hq]
    exact evalN_withRing _ _ { s with inValid := false }
  | complete =>
    rw [evaluate_complete hq, evaluate_complete (s := s.withRing r) hq]
    rfl
  | d | e | f | c | o => exact absurd (by rw [hq]; decide) hm

theorem afterFill_withRing (s : State) : afterFill (s.withRing r) = (afterFill s).withRing r := by
  unfold afterFill
  rw [evaluate_withRing]
  change (if s.qS = .attract then _ else _) = _
  split_ifs <;> rfl

theorem fillFrame_withRing (f : Frame) (s : State) : fillFrame f (s.withRing r) = (fillFrame f s).withRing r := by
  unfold fillFrame
  split
  · rfl
  · rename_i p _
    exact afterFill_withRing { s with inRec := p, inValid := true }

theorem recvFrame_withRing (f : Frame) (s : State) : recvFrame f (s.withRing r) = (recvFrame f s).withRing r := by
  unfold recvFrame
  split <;> rfl

theorem evalStart_withRing (s : State) : evalStart (s.withRing r) = (evalStart s).withRing r := by
  unfold evalStart
  change (if s.bootDone = false then _ else if s.qstate = .complete then _ else if s.inValid = true then _ else _) = _
  split_ifs
  · rfl
  · rfl
  · exact afterFill_withRing { s with qS := s.qstate, phase := .qFill }
  · rfl

theorem transitionEffects_withRing (s : State) :
    transitionEffects (s.withRing r) = (transitionEffects s).withRing r := by
  unfold transitionEffects
  simp only [State.withRing]
  split <;> rfl

theorem nvFinish_withRing (k : BitVec 1) (s : State) : nvFinish k (s.withRing r) = (nvFinish k s).withRing r := by
  unfold nvFinish
  dsimp only
  split_ifs
  · have h := transitionEffects_withRing (r := r) (emit (.error true true) { s with nvBusy := false })
    exact congrArg (fun t : State => finishState t.qNext { t with qstate := t.qNext, qKind := .none }) h
  · have h := transitionEffects_withRing (r := r) { s with nvBusy := false }
    exact congrArg (fun t : State => finishState t.qNext { t with qstate := t.qNext, qKind := .none }) h

theorem bootRestore_withRing (u : Word32) (s : State) : bootRestore u (s.withRing r) = (bootRestore u s).withRing r := by
  unfold bootRestore
  dsimp only
  split_ifs <;> rfl

theorem accept_withRing {op : Byte} {arg : Word32} {run : State → State} {s t : State}
    (hrun : ∀ s, run (s.withRing r) = (run s).withRing r) (h : accept op arg run s = .next t) :
    accept op arg run (s.withRing r) = .next (t.withRing r) := by
  obtain ⟨hp, rfl⟩ := accept_next.1 h
  exact accept_next.2 ⟨hp, hrun { s with cmdOp := op, cmdArg := arg }⟩

/-- No instruction but PUSH reads or writes the ring. -/
theorem exec_withRing {i : Instr} {s t : State} (hi : ∀ d, i ≠ .push d) (h : exec i s = .next t) :
    exec i (s.withRing r) = .next (t.withRing r) := by
  cases i with
  | nop a =>
    rw [exec, execNop] at h ⊢
    exact accept_withRing (fun _ => rfl) h
  | boot u =>
    rw [exec, execBoot] at h ⊢
    refine accept_withRing (fun s => ?_) h
    rw [bootRestore_withRing]
    change (if s.bootDone = true then _ else _) = _
    split_ifs <;> rfl
  | setUid u =>
    rw [exec, execSetUid] at h ⊢
    exact accept_withRing (fun _ => rfl) h
  | setType ty m g =>
    rw [exec, execSetType] at h ⊢
    exact accept_withRing (fun _ => rfl) h
  | tryFrame a =>
    rw [exec, execTryFrame] at h ⊢
    exact accept_withRing (fun _ => rfl) h
  | recv a =>
    rw [exec, execRecv] at h ⊢
    refine accept_withRing (fun s => ?_) h
    change (if s.inValid = true then _ else _) = _
    split_ifs <;> rfl
  | encode a =>
    rw [exec, execEncode] at h ⊢
    exact accept_withRing (fun _ => rfl) h
  | send a =>
    rw [exec, execSend] at h ⊢
    exact accept_withRing (fun _ => rfl) h
  | eval a =>
    rw [exec, execEval] at h ⊢
    exact accept_withRing evalStart_withRing h
  | illegal op a =>
    rw [exec, execIllegal] at h ⊢
    exact accept_withRing (fun _ => rfl) h
  | push d => exact absurd rfl (hi d)
  | nvDone k =>
    rw [exec] at h ⊢
    obtain ⟨hp, rfl⟩ := execNvDone_next.1 h
    exact execNvDone_next.2 ⟨hp, nvFinish_withRing k s⟩

theorem xfeed_withRing (b : Byte) (s : State) :
    xfeed b (s.withRing r) = ((xfeed b s).1.withRing r, (xfeed b s).2) := by
  unfold xfeed
  simp only [State.withRing]
  split <;> split <;> rfl

/-- The byte that the next `Pop` takes, if there is one, is the same in both rings. -/
def SameNext (r : List Host.Cell) (s : State) : Prop :=
  s.rd ≠ s.wr → ringRead r s.rd.toNat = ringRead s.ring s.rd.toNat

theorem pop_withRing {s t : State} {o : Option Byte} (hn : SameNext r s) (h : pop s = .next (o, t)) :
    pop (s.withRing r) = .next (o, t.withRing r) := by
  rcases pop_cases h with ⟨hempty, rfl, rfl⟩ | ⟨hne, hrd, rfl, rfl⟩
  · exact pop_empty hempty
  · rw [← hn hne]
    exact pop_byte (s := s.withRing r) hne hrd

theorem huntStep_withRing {e : State → State} {g : Frame → State → State} {s t : State}
    (he : ∀ s, e (s.withRing r) = (e s).withRing r) (hg : ∀ f s, g f (s.withRing r) = (g f s).withRing r)
    (hn : SameNext r s) (h : huntStep e g s = .next t) : huntStep e g (s.withRing r) = .next (t.withRing r) := by
  unfold huntStep at h ⊢
  split at h
  · rename_i u hp
    cases h
    rw [pop_withRing hn hp]
    exact congrArg _ (he u)
  · rename_i b u hp
    rw [pop_withRing hn hp]
    dsimp only
    rw [xfeed_withRing]
    generalize xfeed b u = p at h ⊢
    rcases p with ⟨v, _ | f⟩
    · cases h
      rfl
    · cases h
      exact congrArg _ (hg f v)
  · cases h
  · cases h

theorem sendStep_withRing {s t : State} (hn : SameNext r s) (h : sendStep s = .next t) :
    sendStep (s.withRing r) = .next (t.withRing r) := by
  unfold sendStep at h ⊢
  split at h
  · rename_i u hp
    cases h
    rw [pop_withRing hn hp]
    rfl
  · rename_i b u hp
    rw [pop_withRing hn hp]
    change (if u.hs = false ∧ b = byteR then _ else if u.hs = true ∧ b = byteO then _ else _) = _
    split_ifs at h ⊢ <;> cases h <;> rfl
  · cases h
  · cases h

theorem HuntsBy.withRing {e : State → State} {g : Frame → State → State} {s t : State} (hh : HuntsBy e g s)
    (he : ∀ s, e (s.withRing r) = (e s).withRing r) (hg : ∀ f s, g f (s.withRing r) = (g f s).withRing r)
    (hn : SameNext r s) (h : controllerStep s = .next t) : controllerStep (s.withRing r) = .next (t.withRing r) := by
  rw [hh s rfl rfl] at h
  rw [hh (s.withRing r) rfl rfl]
  exact huntStep_withRing he hg hn h

/-- The controller reads of the ring only the byte that its `Pop` takes. -/
theorem controllerStep_withRing {s t : State} (hn : SameNext r s) (h : controllerStep s = .next t) :
    controllerStep (s.withRing r) = .next (t.withRing r) := by
  rcases controllerStep_cases h with ⟨hp, rfl⟩ | ⟨hp, hc, _⟩ | ⟨hp, hc, _⟩ | ⟨hp, hsend⟩ | ⟨hp, _⟩ | ⟨hp, _⟩
  · rcases hp with hp | hp <;> simp only [controllerStep, State.withRing, hp]
  · exact (huntsBy_tryFrame hp hc).withRing (fun _ => rfl) (fun _ _ => rfl) hn h
  · exact (huntsBy_recv hp hc).withRing (fun _ => rfl) recvFrame_withRing hn h
  · have hs := sendStep_withRing hn hsend
    simpa only [controllerStep, State.withRing, hp] using hs
  · exact (huntsBy_fill hp).withRing afterFill_withRing fillFrame_withRing hn h
  · exact (huntsBy_drain hp).withRing evaluate_withRing (fun _ _ => rfl) hn h

/-- Of all the turns the RX producer's alone meets the ring otherwise than by the controller's `Pop`. -/
theorem takeTurn_withRing {u : Turn} {s t : State} (hu : u ≠ .rx) (hn : SameNext r s) (h : takeTurn u s = .next t) :
    takeTurn u (s.withRing r) = .next (t.withRing r) := by
  cases u with
  | host =>
    rw [takeTurn] at h ⊢
    rcases waits_or_acts s.hostIn (s.phase = .idle) with hwait | ⟨w, hw, hp⟩
    · rw [hostTurn_waits hwait] at h
      cases h
      exact hostTurn_waits hwait
    · rw [hostTurn_issues hw hp] at h
      exact (hostTurn_issues (s := s.withRing r) hw hp).trans (exec_withRing (decode_command_ne_push w) h)
  | rx => exact absurd rfl hu
  | nv =>
    rw [takeTurn] at h ⊢
    rcases waits_or_acts s.nvIn (s.phase = .qWaitNv) with hwait | ⟨k, hk, hp⟩
    · rw [nvTurn_waits hwait] at h
      cases h
      exact nvTurn_waits hwait
    · rw [nvTurn_answers hk hp] at h
      cases h
      rw [nvTurn_answers (s := s.withRing r) hk hp]
      exact congrArg _ (nvFinish_withRing k { s with nvIn := s.nvIn.rest })
  | controller => exact controllerStep_withRing hn h
  | reset =>
    cases h
    rfl

/-! ### The unread bytes -/

theorem fifoBytes_advance {s : State} (h : FifoWf s) (hne : s.rd ≠ s.wr) :
    fifoBytes { s with rd := nextCursor s s.rd } = (fifoBytes s).tail := by
  rw [fifoBytes_cons h hne, List.tail_cons]

/-- The same unread bytes in both rings: `Pop` takes the same byte. -/
theorem sameNext_of_fifoBytes {s : State} (hs : FifoWf s) (ht : FifoWf (s.withRing r))
    (hb : fifoBytes (s.withRing r) = fifoBytes s) : SameNext r s := by
  intro hne
  rw [fifoBytes_cons hs hne, fifoBytes_cons ht hne] at hb
  exact (List.cons.inj hb).1

/-- PUSH on both rings drops the byte or adds it to the same unread bytes. -/
theorem pushByte_sameButUnread {d : Byte} {s u : State} (hs : FifoWf s) (ht : FifoWf (s.withRing r))
    (hb : fifoBytes (s.withRing r) = fifoBytes s) (h : pushByte d s = .next u) :
    ∃ v, pushByte d (s.withRing r) = .next v ∧ SameButUnread u v := by
  obtain ⟨v, hv⟩ := pushByte_answers d (s := s.withRing r) hs.wrInside
  refine ⟨v, hv, ?_⟩
  have hfull : fifoFull (s.withRing r) = fifoFull s := rfl
  rcases pushByte_cases h with ⟨hf, rfl⟩ | ⟨hf, _, rfl⟩ <;> rcases pushByte_cases hv with ⟨hf', rfl⟩ | ⟨hf', _, rfl⟩
  · exact ⟨rfl, hb⟩
  · rw [hfull, hf] at hf'
    cases hf'
  · rw [hfull, hf] at hf'
    cases hf'
  · exact ⟨rfl, by rw [fifoBytes_write ht hf', fifoBytes_write hs hf, hb]⟩

/-- The RX producer's turn on both rings. -/
theorem rxTurn_sameButUnread {s u : State} (hs : FifoWf s) (ht : FifoWf (s.withRing r))
    (hb : fifoBytes (s.withRing r) = fifoBytes s) (h : rxTurn s = .next u) :
    ∃ v, rxTurn (s.withRing r) = .next v ∧ SameButUnread u v := by
  rcases waits_or_acts s.rxIn (s.nvBusy = false) with hwait | ⟨d, hd, hfree⟩
  · rw [rxTurn_waits hwait] at h
    cases h
    exact ⟨_, rxTurn_waits hwait, rfl, hb⟩
  · rw [rxTurn_pushes hd hfree] at h
    rw [rxTurn_pushes (s := s.withRing r) hd hfree]
    exact pushByte_sameButUnread (s := { s with rxIn := s.rxIn.rest }) (hs.congr rfl rfl rfl rfl)
      (ht.congr rfl rfl rfl rfl) hb h

/-- Equal cursors at 0 leave no byte unread (R25). -/
theorem fifoBytes_of_cleared {s : State} (hr : s.rd = 0) (hw : s.wr = 0) : fifoBytes s = [] := by
  simp [fifoBytes, level, hr, hw]

/-- Every step but the RX producer's and the reset leaves the writer's side and takes at most one byte. -/
theorem step_rd {s t : State} (hrx : nextTurn s ≠ .rx) (hreset : nextTurn s ≠ .reset) (h : step s = .next t) :
    t.rd = s.rd ∨ (s.rd ≠ s.wr ∧ t.rd = nextCursor s s.rd) := by
  rcases step_cases h with rfl | ⟨_, _, _, _, h⟩ | ⟨_, hu, _⟩ | ⟨_, _, _, _, h⟩ | ⟨_, h⟩ | ⟨hu, _⟩
  · exact .inl rfl
  · exact .inl (exec_keepsReceiver h).rd
  · exact absurd hu hrx
  · exact .inl (exec_keepsReceiver h).rd
  · have hrd := controllerStep_rd h
    exact hrd
  · exact absurd hu hreset

/-- After any step but the RX producer's the unread bytes are the same in both rings. -/
theorem fifoBytes_withRing_step {s u : State} (hs : FifoWf s) (ht : FifoWf (s.withRing r))
    (hb : fifoBytes (s.withRing r) = fifoBytes s) (hrx : nextTurn s ≠ .rx) (h : step s = .next u) :
    fifoBytes (u.withRing r) = fifoBytes u := by
  by_cases hreset : nextTurn s = .reset
  · cases step_reset hreset h
    rw [fifoBytes_of_cleared rfl rfl, fifoBytes_of_cleared rfl rfl]
  · obtain ⟨hc, hr, hw⟩ := step_keepsWriterSide hrx hreset h
    rcases step_rd hrx hreset h with hrd | ⟨hne, hrd⟩
    · exact calc fifoBytes (u.withRing r) = fifoBytes (s.withRing r) := fifoBytes_congr hc rfl hw hrd
        _ = fifoBytes s := hb
        _ = fifoBytes u := (fifoBytes_congr hc hr hw hrd).symm
    · exact calc fifoBytes (u.withRing r) = fifoBytes { s.withRing r with rd := nextCursor s s.rd } :=
            fifoBytes_congr (s := { s.withRing r with rd := nextCursor s s.rd }) hc rfl hw hrd
        _ = (fifoBytes (s.withRing r)).tail := fifoBytes_advance ht hne
        _ = (fifoBytes s).tail := by rw [hb]
        _ = fifoBytes { s with rd := nextCursor s s.rd } := (fifoBytes_advance hs hne).symm
        _ = fifoBytes u := (fifoBytes_congr (s := { s with rd := nextCursor s s.rd }) hc hr hw hrd).symm

end

/-- Settles O14: the second state is the first with another ring; PUSH adds the same byte to both, and every other step commutes
with the change of ring, as the byte that a `Pop` takes is the same in both. -/
theorem unreadSlotsUnobservable : Obligations.UnreadSlotsUnobservable := by
  intro s t hs ht ⟨hring, hb⟩
  obtain ⟨u, hu⟩ := step_answers hs.fifo hs.control
  have heq : t = s.withRing t.ring := hring
  generalize t.ring = r at heq
  subst heq
  have hs' : FifoWf { s with turns := s.turns.rest } := hs.fifo.congr rfl rfl rfl rfl
  have ht' : FifoWf (State.withRing r { s with turns := s.turns.rest }) := ht.fifo.congr rfl rfl rfl rfl
  by_cases hrx : nextTurn s = .rx
  · rw [step_eq, hrx] at hu
    obtain ⟨v, hv, huv⟩ := rxTurn_sameButUnread hs' ht' hb hu
    refine ⟨u, v, ?_, ?_, huv⟩
    · rw [step_eq, hrx]
      exact hu
    · rw [step_eq, show nextTurn (s.withRing r) = .rx from hrx]
      exact hv
  · refine ⟨u, u.withRing r, hu, ?_, rfl, fifoBytes_withRing_step hs.fifo ht.fifo hb hrx hu⟩
    exact takeTurn_withRing hrx (sameNext_of_fifoBytes hs' ht' hb) (step_eq s ▸ hu)

end Sys2Proof.Machine
end

section
/-! PROOFS of family `10_state.md`, the observations: the FIFO as a queue, a resumed frame, who transmits, the idle animation and the
CSR window. -/

namespace Sys2Proof.Machine

/-! ### The FIFO as a queue -/

/-- PUSH on a well-formed FIFO adds its byte unless N-1 bytes are unread (R111). -/
theorem exec_push_fifoBytes (d : Byte) {s : State} (hw : FifoWf s) (hfree : s.nvBusy = false) : ∃ t,
    exec (.push d) s = .next t ∧
    fifoBytes t = if (fifoBytes s).length = s.cfg.ringSize - 1 then fifoBytes s else fifoBytes s ++ [d] := by
  obtain ⟨t, ht⟩ := pushByte_answers d hw.wrInside
  refine ⟨t, execPush_next.2 ⟨hfree, ht⟩, ?_⟩
  rw [fifoBytes_length]
  rcases pushByte_cases ht with ⟨hf, rfl⟩ | ⟨hf, _, rfl⟩
  · rw [if_pos ((fifoFull_iff hw).1 hf)]
  · rw [fifoBytes_write hw hf, if_neg fun h => absurd ((fifoFull_iff hw).2 h) (by simp [hf])]

/-- `Pop` on a well-formed FIFO takes the first unread byte, if there is one (R113). -/
theorem pop_fifoBytes {s : State} (hw : FifoWf s) : ∃ o t,
    pop s = .next (o, t) ∧ o = (fifoBytes s).head? ∧ fifoBytes t = (fifoBytes s).tail ∧ t = { s with rd := t.rd } := by
  by_cases hne : s.rd = s.wr
  · refine ⟨none, s, pop_empty hne, ?_, ?_, rfl⟩ <;> rw [(fifoBytes_eq_nil hw).2 hne] <;> rfl
  · refine ⟨_, _, pop_byte hne hw.rdInside, ?_, fifoBytes_advance hw hne, rfl⟩
    rw [fifoBytes_cons hw hne, List.head?_cons]

/-- Settles O12. -/
theorem fifoIsAQueue : Obligations.FifoIsAQueue := by
  intro d s hw hfree
  refine ⟨?_, exec_push_fifoBytes d hw hfree, pop_fifoBytes hw⟩
  rw [fifoBytes_length]
  exact Nat.le_sub_one_of_lt (level_lt hw)

/-! ### A resumed frame -/

/-- The frame result of a payload that the extractor holds (R117, R120). -/
theorem carries_of_holds {s : State} {p : List Byte} (h : Holds s ⟨.hunt, p⟩) : Carries s.xlen (payloadResult s.xbuf) p where
  length := h.length
  bytes i := by
    rw [Fin.getElem_fin, payloadResult, Vector.getElem_ofFn]
    dsimp only
    split_ifs with hi
    · exact h.bytes ⟨i.val, hi⟩
    · rfl

/-- Inside a frame, the payload bytes up to the end marker complete it (R115). -/
theorem nextFrame_rest {q p rest : List Byte} (hp : byteE ∉ p) :
    nextFrame anyLength ⟨.collect, q⟩ (p ++ byteE :: rest) = some (q ++ p, rest) := by
  rw [nextFrame_payload _ _ hp, nextFrame, if_pos ⟨rfl, rfl, rfl⟩]

/-- Settles O17: the hunt that TRY_FRAME starts stands inside the frame, and the first frame it completes is the whole one. -/
theorem tryFrameResumesPartialFrame : Obligations.TryFrameResumesPartialFrame := by
  intro arg s q p rest hw hp ht hq hpE hb
  let u : State := { s with cmdOp := 0x04, cmdArg := arg, phase := .xscan }
  have hu : exec (.tryFrame arg) s = .next u := by rw [exec, execTryFrame, accept_idle hp]
  have hub : fifoBytes u = p ++ byteE :: rest := hb
  have hstands : Stands u ⟨.collect, q⟩ := hq.stands.congr rfl rfl rfl
  obtain ⟨v, _, hvb, hv, hvheld, hrun⟩ := hunt_frame (huntsBy_tryFrame (s := u) rfl rfl) (passes_anyLength _)
    (hw.congr rfl rfl rfl rfl) ht hstands (by rw [hub]; exact nextFrame_rest hpE)
  have hlen : (p ++ byteE :: rest).length - rest.length = p.length + 1 := by
    rw [List.length_append, List.length_cons]
    omega
  rw [hub, hlen] at hrun
  refine ⟨u, finish .ok v.xlen (payloadResult v.xbuf) v, hu, hrun, carries_of_holds hvheld, hvb, hvheld.congr rfl rfl rfl, ?_⟩
  rw [hv, hp]
  rfl

/-! ### Who transmits -/

theorem evaluate_txOut (s : State) : (evaluate s).txOut = s.txOut := by
  rw [evaluate_frame]

theorem afterFill_txOut (s : State) : (afterFill s).txOut = s.txOut := by
  rcases afterFill_cases s with ⟨_, h⟩ | ⟨_, h⟩ <;> rw [h]
  exact evaluate_txOut s

theorem fillFrame_txOut (f : Frame) (s : State) : (fillFrame f s).txOut = s.txOut := by
  rcases fillFrame_cases f s with ⟨_, h⟩ | ⟨r, _, h⟩ <;> rw [h]
  exact afterFill_txOut _

theorem recvFrame_txOut (f : Frame) (s : State) : (recvFrame f s).txOut = s.txOut := by
  rcases recvFrame_cases f s with ⟨_, h⟩ | ⟨r, _, h⟩ <;> rw [h] <;> rfl

theorem evalStart_txOut (s : State) : (evalStart s).txOut = s.txOut := by
  rcases evalStart_cases s with ⟨_, h⟩ | ⟨_, _, h⟩ | ⟨_, _, _, h⟩ | ⟨_, _, _, _, h⟩ | ⟨_, _, _, h⟩ <;> rw [h]
  · rfl
  · exact evaluate_txOut _

/-- No instruction transmits: SEND's frame goes out in a later step (R146). -/
theorem exec_txOut {i : Instr} {s t : State} (h : exec i s = .next t) : t.txOut = s.txOut := by
  rcases exec_cases h with ⟨st, op, a, len, buf, _, rfl, _⟩ | ⟨u, _, _, _, rfl⟩ | ⟨a, o, _, _, op, rfl⟩ | ⟨a, _, rfl⟩ |
    ⟨a, _, rfl⟩ | ⟨a, _, rfl⟩ | ⟨a, _, rfl⟩ | ⟨d, _, _, h⟩ | ⟨k, _, _, rfl⟩
  · rfl
  · rw [bootRestore_frame]
  · rfl
  · rfl
  · rfl
  · rfl
  · exact evalStart_txOut _
  · rw [pushByte_frame h]
  · rw [nvFinish_frame]

/-- A frame hunt transmits nothing when its continuations do not. -/
theorem huntStep_txOut {e : State → State} {g : Frame → State → State} {s t : State}
    (he : ∀ s, (e s).txOut = s.txOut) (hg : ∀ f s, (g f s).txOut = s.txOut) (h : huntStep e g s = .next t) :
    t.txOut = s.txOut :=
  huntStep_ends (P := fun t => t.txOut = s.txOut) h (he s) (fun _ _ _ _ => rfl) fun _ _ _ _ => hg _ _

/-- The controller transmits only where SEND's handshake takes `'O'` after `'R'` (R147). -/
theorem controllerStep_txOut {s t : State} (h : controllerStep s = .next t) :
    t.txOut = s.txOut ∨
    (s.phase = .hscan ∧ s.hs = true ∧ (∃ u, pop s = .next (some byteO, u)) ∧ t.phase = .idle ∧
      t.txOut = s.txOut ++ (encodeFrame s.cfg (outBytes s)).toList) := by
  rcases controllerStep_cases h with ⟨_, rfl⟩ | ⟨_, _, h⟩ | ⟨_, _, h⟩ | ⟨hp, h⟩ | ⟨_, h⟩ | ⟨_, h⟩
  · exact .inl rfl
  · exact .inl (huntStep_txOut (finish_txOut .noFrame 0 noBytes)
      (fun f => finish_txOut .ok f.len (payloadResult f.payload)) h)
  · exact .inl (huntStep_txOut (finish_txOut .noFrame 0 noBytes) recvFrame_txOut h)
  · rcases sendStep_cases h with ⟨_, rfl⟩ | ⟨hne, hrd, ⟨_, _, rfl⟩ | ⟨hs, hO, rfl⟩ | ⟨_, _, rfl⟩⟩
    · exact .inl rfl
    · exact .inl rfl
    · have hpop := pop_byte hne hrd
      rw [hO] at hpop
      exact .inr ⟨hp, hs, ⟨_, hpop⟩, rfl, rfl⟩
    · exact .inl rfl
  · exact .inl (huntStep_txOut afterFill_txOut fillFrame_txOut h)
  · exact .inl (huntStep_txOut evaluate_txOut (fun _ _ => rfl) h)

/-- Taking a turn leaves what `Pop` finds. -/
theorem pop_turns {s u : State} {o : Option Byte} (q : Supply Turn) (h : pop { s with turns := q } = .next (o, u)) :
    ∃ v, pop s = .next (o, v) := by
  rcases pop_cases h with ⟨hempty, rfl, _⟩ | ⟨hne, hrd, rfl, _⟩
  · exact ⟨s, pop_empty hempty⟩
  · exact ⟨_, pop_byte hne hrd⟩

/-- Settles O25: no instruction transmits, and of the controller's steps only the end of SEND's handshake does. -/
theorem onlySendTransmits : Obligations.OnlySendTransmits := by
  intro s t h hreset
  rcases step_cases h with rfl | ⟨_, _, _, _, h⟩ | ⟨_, _, _, _, h⟩ | ⟨_, _, _, _, h⟩ | ⟨hu, h⟩ | ⟨hu, _⟩
  · exact .inl rfl
  · have htx := exec_txOut h
    exact .inl htx
  · have htx := exec_txOut h
    exact .inl htx
  · have htx := exec_txOut h
    exact .inl htx
  · rcases controllerStep_txOut h with htx | ⟨hp, hs, ⟨u, hpop⟩, hidle, htx⟩
    · exact .inl htx
    · exact .inr ⟨hu, hp, hs, pop_turns _ hpop, hidle, htx⟩
  · exact absurd hu hreset

/-! ### The idle animation -/

/-- The animation pointer's cycle (R171). -/
theorem nextAnim_cycle {a : QState} (h : a ∈ [QState.d, .e, .f, .c, .o, .n]) :
    (a, nextAnim a) ∈ [(QState.d, QState.e), (.e, .f), (.f, .c), (.c, .o), (.o, .n), (.n, .d)] := by
  revert h
  cases a <;> decide

/-- The result of an EVAL that ends in Attract, whose code is 0. -/
theorem stateResult_attract : stateResult .attract = Vector.replicate 18 0x00 := by decide

/-- Settles O32: the ISSUE step starts the fill, whose first `Pop` finds the FIFO empty; the evaluation in Attract follows in the
same step. -/
theorem attractCyclesAnimation : Obligations.AttractCyclesAnimation := by
  intro arg s hinv hp ht hboot hq hv hb
  let u : State := { s with cmdOp := 0x08, cmdArg := arg, qS := .attract, phase := .qFill }
  have hu : exec (.eval arg) s = .next u := by
    rw [exec, execEval, accept_idle hp, evalStart, if_neg (by simp [hboot]), if_neg (by simp [hq]), if_neg (by simp [hv])]
    simp only [hq, u]
  have hstep : step u = .next (afterFill u) :=
    hunt_end (huntsBy_fill rfl) (hinv.fifo.congr rfl rfl rfl rfl) ht hb
  have hend : afterFill u = finishState .attract { emit (.display s.anim) u with inValid := false, anim := nextAnim s.anim } := by
    rw [afterFill, if_pos rfl, evaluate_attract rfl, show u.inValid = false from hv]
    rfl
  refine ⟨u, nextAnim s.anim, hu, nextAnim_cycle hinv.quest.animLinear, ?_⟩
  rw [runSteps_succ hstep, runSteps_zero, hend, hp, ← stateResult_attract]
  simp only [finishState, finish, emit, u, hv]
  rfl

/-! ### The CSR window -/

/-- The CSRs in order, from the block that holds index `n + k` on (R49). -/
theorem csrRead_eq {s : State} {a l c : List Byte} {n k : Nat} (hw : csrWindow s = a ++ l ++ c) (hn : a.length = n)
    (hk : k < l.length) (h8 : n + k < 256) : csrRead s (BitVec.ofNat 8 (n + k)) = l[k] := by
  rw [csrRead, hw, BitVec.toNat_ofNat, Nat.mod_eq_of_lt h8, List.getD_append _ _ _ _ (by simp; omega),
    List.getD_append_right _ _ _ _ (by omega), hn, Nat.add_sub_cancel_left, List.getD_eq_getElem _ _ hk]

theorem csrWindow_length (s : State) : (csrWindow s).length = 0x2F := by simp [csrWindow]

/-- No CSR is listed from 0x2F on (R48). -/
theorem csrRead_unlisted (s : State) {i : Byte} (h : 0x2F ≤ i.toNat) : csrRead s i = 0x00 :=
  List.getD_eq_default _ _ (by rw [csrWindow_length]; exact h)

/-- The CSRs of single registers below the records (R49). -/
def lowCsrs (s : State) : List Byte :=
  [csrStatus s, BitVec.ofNat 8 (level s), csrQState s, s.qflags, s.gflags.zeroExtend 8, s.resStatus,
    s.resLen.zeroExtend 8, s.xlen.zeroExtend 8]

/-- The CSRs of single registers above the records (R49). -/
def highCsrs (s : State) : List Byte :=
  [s.rd, s.wr, s.nvReq.extractLsb' 0 8, (phaseCode s.phase).zeroExtend 8, s.cmdOp]

theorem csrWindow_eq (s : State) :
    csrWindow s = lowCsrs s ++ (outBytes s).toList ++ s.inRec.toList ++ s.resBuf.toList ++ highCsrs s := rfl

theorem csrRead_low (s : State) {k : Nat} (hk : k < 8) : csrRead s (BitVec.ofNat 8 k) = (lowCsrs s)[k]'hk := by
  have h := csrRead_eq (s := s) (a := []) (l := lowCsrs s) (n := 0) (k := k)
    (c := (outBytes s).toList ++ s.inRec.toList ++ s.resBuf.toList ++ highCsrs s) (by simp [csrWindow_eq]) rfl hk (by omega)
  rwa [Nat.zero_add] at h

theorem csrRead_outRec (s : State) (i : Fin 8) : csrRead s (BitVec.ofNat 8 (0x08 + i.val)) = (outBytes s)[i] :=
  csrRead_eq (a := lowCsrs s) (l := (outBytes s).toList) (c := s.inRec.toList ++ s.resBuf.toList ++ highCsrs s)
    (n := 0x08) (by simp [csrWindow_eq]) rfl (by simp) (by omega)

theorem csrRead_inRec (s : State) (i : Fin 8) : csrRead s (BitVec.ofNat 8 (0x10 + i.val)) = s.inRec[i] :=
  csrRead_eq (a := lowCsrs s ++ (outBytes s).toList) (l := s.inRec.toList) (c := s.resBuf.toList ++ highCsrs s)
    (by simp [csrWindow_eq]) (by simp [lowCsrs]) (by simp) (by omega)

theorem csrRead_resBuf (s : State) (i : Fin 18) : csrRead s (BitVec.ofNat 8 (0x18 + i.val)) = s.resBuf[i] :=
  csrRead_eq (a := lowCsrs s ++ (outBytes s).toList ++ s.inRec.toList) (l := s.resBuf.toList) (c := highCsrs s)
    (by simp [csrWindow_eq]) (by simp [lowCsrs]) (by simp) (by omega)

theorem csrRead_high (s : State) {k : Nat} (hk : k < 5) :
    csrRead s (BitVec.ofNat 8 (0x2A + k)) = (highCsrs s)[k]'hk :=
  csrRead_eq (a := lowCsrs s ++ (outBytes s).toList ++ s.inRec.toList ++ s.resBuf.toList) (c := [])
    (by simp [csrWindow_eq]) (by simp [lowCsrs]) hk (by omega)

/-- One flag in its bit of a byte. -/
theorem getLsbD_bitByte_shift (b : Bool) {k : Nat} (hk : k < 8) (i : Nat) :
    (bitByte b <<< k).getLsbD i = (b && decide (i = k)) := by
  cases b
  · simp [bitByte]
  · rw [bitByte, if_pos rfl, Bool.true_and, ← BitVec.zero_or (x := (1 : Byte) <<< k)]
    by_cases hi : i < 8
    · have h := getLsbD_setFlag 0 (i := k) hi
      simpa [setFlag] using h
    · rw [BitVec.getLsbD_of_ge _ _ (by omega), decide_eq_false (by omega)]

/-- The STATUS CSR, bit by bit (R49). -/
theorem getLsbD_csrStatus (s : State) (i : Nat) : (csrStatus s).getLsbD i =
    ([busy s, s.bootDone, s.inValid, s.xs == .collect, s.hs, s.nvBusy].getD i false) := by
  have hbusy : (bitByte (busy s)).getLsbD i = (busy s && decide (i = 0)) := by
    rw [← getLsbD_bitByte_shift (busy s) (by decide) i]
    simp
  simp only [csrStatus, BitVec.getLsbD_or, hbusy]
  rw [getLsbD_bitByte_shift _ (by decide), getLsbD_bitByte_shift _ (by decide), getLsbD_bitByte_shift _ (by decide),
    getLsbD_bitByte_shift _ (by decide), getLsbD_bitByte_shift _ (by decide)]
  match i with
  | 0 | 1 | 2 | 3 | 4 | 5 => simp
  | n + 6 => simp

/-- Two 3-bit codes side by side. -/
theorem codes_side_by_side : ∀ a q : BitVec 3,
    (q.zeroExtend 8 ||| a.zeroExtend 8 <<< 3 : Byte) = (0 : BitVec 2) ++ (a ++ q) := by decide

/-- A shorter register's CSR has zeros above it. -/
theorem zeroExtend_eq_append {m n : Nat} (x : BitVec n) : x.zeroExtend (m + n) = (0 : BitVec m) ++ x :=
  BitVec.eq_of_toNat_eq
    (by simpa using Nat.mod_eq_of_lt (x.isLt.trans_le (Nat.pow_le_pow_right two_pos (Nat.le_add_left n m))))

theorem phaseCode_idxOf (p : Phase) : ((phaseCode p).zeroExtend 8).toNat =
    [Phase.idle, .xscan, .hscan, .qFill, .qDrain, .qWaitNv].idxOf p := by
  cases p <;> decide

/-- The CSRs after reset: `anim` at D, in bits 5:3 of QSTATE, and nothing else (R49). -/
theorem csrRead_reset_listed : ∀ k < 0x2F,
    csrRead State.reset (BitVec.ofNat 8 k) = if BitVec.ofNat 8 k = 0x02 then 0x08 else 0x00 := by decide

theorem csrRead_reset (i : Byte) : csrRead State.reset i = if i = 0x02 then 0x08 else 0x00 := by
  by_cases hi : i.toNat < 0x2F
  · have h := csrRead_reset_listed i.toNat hi
    rwa [BitVec.ofNat_toNat, BitVec.setWidth_eq] at h
  · rw [csrRead_unlisted _ (by omega), if_neg]
    rintro rfl
    exact hi (by decide)

/-- Settles O60. -/
theorem csrWindowReadsRegisters : Obligations.CsrWindowReadsRegisters := fun s =>
  ⟨fun i => (congrArg (·.getLsbD i) (csrRead_low s (k := 0) (by decide))).trans (getLsbD_csrStatus s i),
    csrRead_low s (k := 1) (by decide),
    (csrRead_low s (k := 2) (by decide)).trans (codes_side_by_side s.anim.code s.qstate.code),
    csrRead_low s (k := 3) (by decide),
    (csrRead_low s (k := 4) (by decide)).trans (zeroExtend_eq_append (m := 2) s.gflags),
    csrRead_low s (k := 5) (by decide),
    (csrRead_low s (k := 6) (by decide)).trans (zeroExtend_eq_append (m := 3) s.resLen),
    (csrRead_low s (k := 7) (by decide)).trans (zeroExtend_eq_append (m := 3) s.xlen),
    csrRead_outRec s, csrRead_inRec s, csrRead_resBuf s,
    csrRead_high s (k := 0) (by decide), csrRead_high s (k := 1) (by decide), csrRead_high s (k := 2) (by decide),
    (congrArg BitVec.toNat (csrRead_high s (k := 3) (by decide))).trans (phaseCode_idxOf s.phase),
    csrRead_high s (k := 4) (by decide), fun _ => csrRead_unlisted s, csrRead_reset⟩

end Sys2Proof.Machine
end

section
/-! PROOFS of family `20_memory.md`: a step runs the decoded input of the agent whose turn it is, and over any step bytes enter the
FIFO only at its end and leave it only at its front. -/

namespace Sys2Proof.Machine

/-! ### A step of each agent -/

/-- While the store is not awaited, the RX producer's turn runs the instruction its byte decodes to (R111). -/
theorem rxTurn_runs {s : State} {d : Byte} (hd : s.rxIn.head? = some d) (hfree : s.nvBusy = false) :
    rxTurn s = exec (decode (.rx d)) { s with rxIn := s.rxIn.rest } := by
  have hrun : ¬s.nvBusy = true := by simp [hfree]
  unfold rxTurn
  rw [hd]
  exact if_neg hrun

/-- While an answer is awaited, the store's turn runs the instruction its bit decodes to (R177). -/
theorem nvTurn_runs {s : State} {k : BitVec 1} (hk : s.nvIn.head? = some k) (hp : s.phase = .qWaitNv) :
    nvTurn s = exec (decode (.nv k)) { s with nvIn := s.nvIn.rest } := by
  unfold nvTurn
  rw [hk]
  exact if_pos hp

/-- Settles O54, by each agent's turn: its hold lifted, its answer is `exec` of the first pending input. -/
theorem stepRunsDecodedInput : Obligations.StepRunsDecodedInput := by
  intro s
  refine ⟨fun w hu hw hp => ?_, fun d hu hd hfree => ?_, fun k hu hk hp => ?_, fun hu => ?_, step_controller⟩
  · rw [step_eq, hu]
    exact hostTurn_issues hw hp
  · rw [step_eq, hu]
    exact rxTurn_runs hd hfree
  · rw [step_eq, hu]
    exact nvTurn_runs hk hp
  · rw [step_eq, hu]
    rfl

/-! ### The order of the FIFO -/

/-- Every instruction but PUSH leaves the unread bytes: no hunt's first `Pop()` is in the ISSUE step (R202). -/
theorem exec_fifoBytes {i : Instr} {s t : State} (hi : ∀ d, i ≠ .push d) (h : exec i s = .next t) :
    fifoBytes t = fifoBytes s := by
  obtain ⟨hcfg, hring, hwr⟩ := exec_keepsWriterSide hi h
  exact fifoBytes_congr hcfg hring hwr (exec_keepsReceiver h).rd

/-- A PUSH that has a step adds its byte at the end or drops it (R111). -/
theorem exec_push_fifoBytes_cases {d : Byte} {s t : State} (hw : FifoWf s) (h : exec (.push d) s = .next t) :
    fifoBytes t = fifoBytes s ∨ fifoBytes t = fifoBytes s ++ [d] := by
  rcases pushByte_cases (execPush_next.1 h).2 with ⟨_, rfl⟩ | ⟨hroom, _, rfl⟩
  · exact .inl rfl
  · exact .inr (fifoBytes_write hw hroom d)

/-- A controller's step leaves the unread bytes or takes the first (R113, R202). -/
theorem controllerStep_fifoBytes {s t : State} (hw : FifoWf s) (h : controllerStep s = .next t) :
    fifoBytes t = fifoBytes s ∨ (fifoBytes s ≠ [] ∧ fifoBytes t = (fifoBytes s).tail) := by
  obtain ⟨hcfg, hring, hwr⟩ := controllerStep_keepsWriterSide h
  rcases controllerStep_rd h with hrd | ⟨hne, hrd⟩
  · exact .inl (fifoBytes_congr hcfg hring hwr hrd)
  · refine .inr ⟨fun hempty => hne ((fifoBytes_eq_nil hw).1 hempty), ?_⟩
    exact (fifoBytes_congr (s := { s with rd := nextCursor s s.rd }) hcfg hring hwr hrd).trans (fifoBytes_advance hw hne)

/-- Settles O13, by whose turn the step takes: PUSH alone adds a byte, the controller's `Pop` alone takes one, and the reset event
clears both cursors. -/
theorem stepsKeepFifoOrder : Obligations.StepsKeepFifoOrder := by
  intro s t hw h
  have hw' : ∀ u r, FifoWf { s with turns := u, rxIn := r } := fun _ _ => hw.congr rfl rfl rfl rfl
  rcases step_cases h with rfl | ⟨w, _, _, _, h⟩ | ⟨d, hu, hd, hfree, h⟩ | ⟨k, _, _, _, h⟩ | ⟨hu, h⟩ | ⟨hu, rfl⟩
  · exact .inl rfl
  · have hb := exec_fifoBytes (decode_command_ne_push w) h
    exact .inl hb
  · rcases exec_push_fifoBytes_cases (hw' _ _) h with hb | hb
    · exact .inl hb
    · exact .inr (.inl ⟨hu, hfree, d, hd, hb⟩)
  · have hb := exec_fifoBytes (i := .nvDone k) (by simp) h
    exact .inl hb
  · rcases controllerStep_fifoBytes (hw' _ _) h with hb | ⟨hne, hb⟩
    · exact .inl hb
    · exact .inr (.inr (.inl ⟨hu, hne, hb⟩))
  · exact .inr (.inr (.inr ⟨hu, fifoBytes_of_cleared rfl rfl⟩))

end Sys2Proof.Machine
end

section
/-! PROOFS of family `30_encoding.md`: a command word and format CT's argument taken apart and put together, the decoder on a
command word, the two round trips, the sample words, and a word placed for the next step. -/

namespace Sys2Proof.Machine

open Laws.OpByte (opOf_commandWord)

/-! ### The fields of a command word and of format CT -/

/-- The argument of an assembled command word (R80). -/
theorem argOf_commandWord (op : Byte) (arg : Word32) : argOf (commandWord op arg) = arg := BitVec.extractLsb'_append_eq_right

/-- A command word is its op over its argument (R80). -/
theorem commandWord_opOf_argOf (w : CommandWord) : commandWord (opOf w) (argOf w) = w :=
  BitVec.extractLsb'_append_extractLsb'

/-- `t = arg[7:0]` (R81). -/
theorem typeArg_bits_0_8 (t : Byte) (m : BitVec 1) (ign : BitVec 23) : (typeArg t m ign).extractLsb' 0 8 = t :=
  (BitVec.extractLsb'_append_eq_of_add_le (by decide)).trans BitVec.extractLsb'_append_eq_right

/-- `m = arg[8]` (R81). -/
theorem typeArg_bits_8_1 (t : Byte) (m : BitVec 1) (ign : BitVec 23) : (typeArg t m ign).extractLsb' 8 1 = m :=
  (BitVec.extractLsb'_append_eq_of_add_le (by decide)).trans BitVec.extractLsb'_append_eq_left

/-- The ignored bits are `arg[31:9]` (R81). -/
theorem typeArg_bits_9_23 (t : Byte) (m : BitVec 1) (ign : BitVec 23) : (typeArg t m ign).extractLsb' 9 23 = ign :=
  BitVec.extractLsb'_append_eq_left

/-- An argument is format CT's three fields put together: none of its bits is dropped (R81, R82). -/
theorem typeArg_bits (arg : Word32) :
    typeArg (arg.extractLsb' 0 8) (arg.extractLsb' 8 1) (arg.extractLsb' 9 23) = arg := by
  have hlow : arg.extractLsb' 8 1 ++ arg.extractLsb' 0 8 = arg.extractLsb' 0 9 :=
    BitVec.extractLsb'_append_extractLsb'_eq_extractLsb' rfl
  rw [typeArg, hlow]
  exact BitVec.extractLsb'_append_extractLsb'

/-! ### The decoder on a command word -/

/-- An assembled command word decodes by its op and argument. -/
theorem decode_commandWord (op : Byte) (arg : Word32) : decode (.command (commandWord op arg)) = decodeCommand op arg := by
  rw [decode, opOf_commandWord, argOf_commandWord]

/-- Op 0x03 takes format CT apart as it was put together. -/
theorem decodeCommand_typeArg (t : Byte) (m : BitVec 1) (ign : BitVec 23) :
    decodeCommand 0x03 (typeArg t m ign) = .setType t m ign := by
  change Instr.setType _ _ _ = _
  rw [typeArg_bits_0_8, typeArg_bits_8_1, typeArg_bits_9_23]

/-- Every op from 0x09 on is illegal (R84). -/
theorem decodeCommand_illegal {op : Byte} (h : 0x09 ≤ op.toNat) (arg : Word32) : decodeCommand op arg = .illegal op arg := by
  have hne : ∀ c : Byte, c.toNat < 0x09 → op ≠ c := by
    rintro c hc rfl
    omega
  simp [decodeCommand, hne]

/-- The opcode map leaves to `illegal` only the ops from 0x09 on (R83, R84). -/
theorem decodeCommand_wellFormed (op : Byte) (arg : Word32) : (decodeCommand op arg).wellFormed = true := by
  unfold decodeCommand
  split_ifs
  case neg => exact decide_eq_true (by bv_omega)
  all_goals rfl

/-- The instruction an op and argument decode to is encoded with that op and argument (R83). -/
theorem encode_decodeCommand (op : Byte) (arg : Word32) :
    encode (decodeCommand op arg) = .command (commandWord op arg) := by
  by_cases htype : op = 0x03
  · subst htype
    exact congrArg (fun a => PortValue.command (commandWord 0x03 a)) (typeArg_bits arg)
  · unfold decodeCommand
    split_ifs <;> simp only [encode, *]

/-! ### The round trips and the sample words -/

/-- Settles O1, by the instruction's constructors: a command's op selects its own arm of the opcode map. -/
theorem decodeOfEncodeIsIdentity : Obligations.DecodeOfEncodeIsIdentity := by
  intro i hwf
  cases i with
  | setType t m ign => exact (decode_commandWord _ _).trans (decodeCommand_typeArg t m ign)
  | illegal op arg => exact (decode_commandWord _ _).trans (decodeCommand_illegal (of_decide_eq_true hwf) arg)
  | push d => rfl
  | nvDone k => rfl
  | nop | boot | setUid | tryFrame | recv | encode | send | eval => exact decode_commandWord _ _

/-- Settles O2, by the port: a command word is its op over its argument, and the other two ports carry their operand bare. -/
theorem encodeOfDecodeIsIdentity : Obligations.EncodeOfDecodeIsIdentity := by
  intro v
  cases v with
  | command w =>
    refine ⟨decodeCommand_wellFormed _ _, ?_⟩
    rw [decode, encode_decodeCommand, commandWord_opOf_argOf]
  | rx d => exact ⟨rfl, rfl⟩
  | nv k => exact ⟨rfl, rfl⟩

/-- Settles O3, by evaluating the decoder on the eight words. -/
theorem sampleWordsDecode : Obligations.SampleWordsDecode := by
  unfold Obligations.SampleWordsDecode
  decide

/-! ### A word placed for the next step -/

/-- Settles O55: the placed word is its port's next input and its agent has the next turn; using both up gives the state before
the placing. -/
theorem placedWordRuns : Obligations.PlacedWordRuns := by
  intro s w
  obtain ⟨hhost, -⟩ := stepRunsDecodedInput (s.withFetchWord 40 w)
  obtain ⟨-, hrx, -⟩ := stepRunsDecodedInput (s.withFetchWord 8 w)
  obtain ⟨-, -, hnv, -⟩ := stepRunsDecodedInput (s.withFetchWord 1 w)
  exact ⟨hhost _ rfl rfl, hrx _ rfl rfl, hnv _ rfl rfl⟩

end Sys2Proof.Machine
end

section
/-! PROOFS of family `40_fifo_extractor.md`, the ports and the frame hunts: PUSH, the start of a hunt, the agents' holds, and what
TRY_FRAME, RECV, EVAL's fill and its drain make of the unread bytes. -/

namespace Sys2Proof.Machine

/-! ### PUSH -/

/-- Settles O11: `full` is the successor of `wr` at `rd`, and PUSH writes the slot at `wr` alone. -/
theorem pushWritesOrDrops : Obligations.PushWritesOrDrops := by
  intro d s hw hfree
  have hsize := hw.sizeLow
  obtain ⟨t, ht⟩ := pushByte_answers d hw.wrInside
  have hexec : exec (.push d) s = .next t := execPush_next.2 ⟨hfree, ht⟩
  rw [hexec]
  rcases pushByte_cases ht with ⟨hfull, rfl⟩ | ⟨hroom, _, rfl⟩
  · exact ⟨fun _ => rfl, fun hne => absurd (beq_iff_eq.1 hfull) hne⟩
  · refine ⟨fun he => absurd he (beq_eq_false_iff_ne.1 hroom), fun _ => ⟨_, rfl, ?_, fun a ha => ?_, ?_, rfl⟩⟩
    · exact (ringRead_ringWrite hw.canonical ..).trans (if_pos rfl)
    · exact (ringRead_ringWrite hw.canonical ..).trans (if_neg ha)
    · exact nextCursor_toNat s.wr (by omega) hw.sizeHigh

/-! ### The start of a hunt, and the holds -/

/-- Settles O20. -/
theorem frameHuntsStartWithoutPop : Obligations.FrameHuntsStartWithoutPop := by
  intro arg s hp
  refine ⟨?_, fun hempty => ?_⟩
  · rw [exec, execTryFrame, accept_idle hp]
  · have hroom : ¬s.inValid = true := by simp [hempty]
    rw [exec, execRecv, accept_idle hp, if_neg hroom]

/-- A busy controller refuses every command word (R201). -/
theorem exec_command_refused (w : CommandWord) {s : State} (hp : s.phase ≠ .idle) :
    exec (decode (.command w)) s = .refused .issueWhileBusy := by
  rw [decode, decodeCommand]
  split_ifs <;> simp only [exec, execNop, execBoot, execSetUid, execSetType, execTryFrame, execRecv, execEncode, execSend,
    execEval, execIllegal] <;> exact accept_busy hp

/-- Settles O56, hold by hold: the agent's turn waits, and `exec` meets the hold's own test. -/
theorem heldAgentsWait : Obligations.HeldAgentsWait := by
  intro s
  refine ⟨fun hbusy => ⟨fun hu => ?_, fun w => exec_command_refused w hbusy⟩,
    fun hheld => ⟨fun hu => ?_, fun d => if_pos hheld⟩, fun hp => ⟨fun hu => ?_, fun k => if_neg hp⟩⟩
  · rw [step_eq, hu]
    exact hostTurn_waits (.inr hbusy)
  · rw [step_eq, hu]
    exact rxTurn_waits (.inr (by simp [hheld]))
  · rw [step_eq, hu]
    exact nvTurn_waits (.inr hp)

/-! ### A hunt that finds the FIFO empty -/

/-- Which hunt the controller runs depends on the phase and the command alone. -/
theorem HuntsBy.congr {e : State → State} {g : Frame → State → State} {s t : State} (h : HuntsBy e g s)
    (hp : t.phase = s.phase) (hc : t.cmdOp = s.cmdOp) : HuntsBy e g t :=
  fun u hup huc => h u (hup.trans hp) (huc.trans hc)

/-- A hunt whose bytes are used up ends with one step more. -/
theorem runSteps_hunt_end {e : State → State} {g : Frame → State → State} {s t : State} {n : Nat}
    (hrun : runSteps n s = .next t) (hh : HuntsBy e g t) (hw : FifoWf t) (ht : t.turns = .nil) (hb : fifoBytes t = []) :
    runSteps (n + 1) s = .next (e t) := by
  rw [runSteps_add hrun, runSteps_succ (hunt_end hh hw ht hb), runSteps_zero]

/-- A hunt over unread bytes that complete no wanted frame consumes them all and finds the FIFO empty (R118, R119). -/
theorem hunt_exhausts {e : State → State} {g : Frame → State → State} {want : List Byte → Bool} {s : State} {p : Progress}
    (hh : HuntsBy e g s) (hg : Passes want g) (hw : FifoWf s) (ht : s.turns = .nil) (hs : Stands s p)
    (hn : nextFrame want p (fifoBytes s) = none) : ∃ t : State,
      fifoBytes t = [] ∧ Follows s t (fifoBytes s) ∧ t = { s with rd := t.rd, xs := t.xs, xlen := t.xlen, xbuf := t.xbuf } ∧
      runSteps ((fifoBytes s).length + 1) s = .next (e t) := by
  obtain ⟨t, hrun, hwt, hbt, hfollows, heq⟩ := hunt_scan (fifoBytes s) [] hh hg hw ht hs hn (List.append_nil _).symm
  exact ⟨t, hbt, hfollows, heq,
    runSteps_hunt_end hrun (hh.congr (by rw [heq]) (by rw [heq])) hwt (by rw [heq]; exact ht) hbt⟩

/-- What the extractor follows depends, at either end, on its three registers alone. -/
theorem Follows.congr {s s' t t' : State} {l : List Byte} (h : Follows s t l) (hxs : s'.xs = s.xs := by rfl)
    (hxlen : s'.xlen = s.xlen := by rfl) (hxbuf : s'.xbuf = s.xbuf := by rfl) (hxs' : t'.xs = t.xs := by rfl)
    (hxlen' : t'.xlen = t.xlen := by rfl) (hxbuf' : t'.xbuf = t.xbuf := by rfl) : Follows s' t' l :=
  fun e => ⟨fun hs => ((h e).1 (hs.congr hxs.symm hxlen.symm hxbuf.symm)).congr hxs' hxlen' hxbuf',
    fun hs => ((h e).2 (hs.congr hxs.symm hxlen.symm hxbuf.symm)).congr hxs' hxlen' hxbuf'⟩

/-- Noise leaves the place in HUNT (R115). -/
theorem scan_noise {noise : List Byte} (q : List Byte) (h : byteB ∉ noise) :
    Progress.scan ⟨.hunt, q⟩ noise = ⟨.hunt, q⟩ := by
  induction noise with
  | nil => rfl
  | cons b l ih =>
    have hb : ¬b = 0x42 := fun hb => h (hb ▸ List.mem_cons_self)
    have hfeed : Progress.feed ⟨.hunt, q⟩ b = ⟨.hunt, q⟩ := if_neg hb
    rw [Progress.scan, List.foldl_cons, hfeed]
    exact ih fun hl => h (List.mem_cons_of_mem _ hl)

/-- Inside a frame every byte but the end marker is payload (R115). -/
theorem scan_payload {p : List Byte} (q : List Byte) (h : byteE ∉ p) :
    Progress.scan ⟨.collect, q⟩ p = ⟨.collect, q ++ p⟩ := by
  induction p generalizing q with
  | nil => rw [List.append_nil]; rfl
  | cons b l ih =>
    have hb : ¬b = 0x45 := fun hb => h (hb ▸ List.mem_cons_self)
    have hfeed : Progress.feed ⟨.collect, q⟩ b = ⟨.collect, q ++ [b]⟩ := if_neg hb
    rw [Progress.scan, List.foldl_cons, hfeed]
    exact (ih _ fun hl => h (List.mem_cons_of_mem _ hl)).trans (by rw [List.append_assoc, List.singleton_append])

/-- Noise and the start marker open a frame (R115). -/
theorem scan_opened {noise p : List Byte} (q : List Byte) (hnoise : byteB ∉ noise) (hp : byteE ∉ p) :
    Progress.scan ⟨.hunt, q⟩ (noise ++ byteB :: p) = ⟨.collect, p⟩ := by
  have hskip : noise.foldl Progress.feed ⟨.hunt, q⟩ = ⟨.hunt, q⟩ := scan_noise q hnoise
  rw [Progress.scan, List.foldl_append, hskip]
  exact scan_payload [] hp

/-- Payload bytes alone complete no frame. -/
theorem nextFrame_cut {want : List Byte → Bool} {p : List Byte} (q : List Byte) (h : byteE ∉ p) :
    nextFrame want ⟨.collect, q⟩ p = none := by
  have hcut := nextFrame_payload (want := want) [] q h
  rwa [List.append_nil] at hcut

/-- Neither does a frame that opens after noise and is cut off. -/
theorem nextFrame_opened {want : List Byte → Bool} {noise p : List Byte} (q : List Byte) (hnoise : byteB ∉ noise)
    (hp : byteE ∉ p) : nextFrame want ⟨.hunt, q⟩ (noise ++ byteB :: p) = none := by
  rw [nextFrame_noise _ _ hnoise, nextFrame, if_neg (by simp)]
  exact nextFrame_cut [] hp

/-! ### TRY_FRAME -/

/-- Settles O16: the whole frame is the first that the hunt completes. -/
theorem tryFrameReturnsWholeFrame : Obligations.TryFrameReturnsWholeFrame := by
  intro arg s noise p rest hw hp ht hx hnoise hpE hb
  let u : State := { s with cmdOp := 0x04, cmdArg := arg, phase := .xscan }
  have hstands : Stands u ⟨.hunt, []⟩ := ⟨hx, fun h => by cases h⟩
  have hub : fifoBytes u = noise ++ byteB :: (p ++ byteE :: rest) := hb
  obtain ⟨v, _, hvb, hv, hheld, hrun⟩ := hunt_frame (huntsBy_tryFrame (s := u) rfl rfl) (passes_anyLength _)
    (hw.congr rfl rfl rfl rfl) ht hstands (by rw [hub]; exact nextFrame_whole hnoise hpE)
  have hlen : (noise ++ byteB :: (p ++ byteE :: rest)).length - rest.length = noise.length + p.length + 2 := by
    simp only [List.length_append, List.length_cons]
    omega
  rw [hub, hlen] at hrun
  refine ⟨u, finish .ok v.xlen (payloadResult v.xbuf) v, (frameHuntsStartWithoutPop arg s hp).1, hrun,
    carries_of_holds hheld, hvb, hheld.congr rfl rfl rfl, ?_⟩
  rw [hv, hp, hx]
  rfl

/-- Settles O18: from either start the unread bytes complete no frame and leave the extractor inside one. -/
theorem tryFrameKeepsPartialFrame : Obligations.TryFrameKeepsPartialFrame := by
  intro arg s q p hw hp ht hpE hstart
  let u : State := { s with cmdOp := 0x04, cmdArg := arg, phase := .xscan }
  have hplace : ∃ e, Stands u e ∧ nextFrame anyLength e (fifoBytes s) = none ∧
      e.scan (fifoBytes s) = ⟨.collect, q ++ p⟩ := by
    rcases hstart with ⟨hq, hb⟩ | ⟨hx, rfl, noise, hnoise, hb⟩ <;> rw [hb]
    · exact ⟨_, hq.stands.congr rfl rfl rfl, nextFrame_cut q hpE, scan_payload q hpE⟩
    · exact ⟨⟨.hunt, []⟩, ⟨hx, fun h => by cases h⟩, nextFrame_opened [] hnoise hpE, scan_opened [] hnoise hpE⟩
  obtain ⟨e, hstands, hnone, hscan⟩ := hplace
  obtain ⟨v, hvb, hfollows, hv, hrun⟩ := hunt_exhausts (huntsBy_tryFrame (s := u) rfl rfl) (passes_anyLength _)
    (hw.congr rfl rfl rfl rfl) ht hstands hnone
  have hend : Stands v (e.scan (fifoBytes s)) := (hfollows e).1 hstands
  rw [hscan] at hend
  refine ⟨u, finish .noFrame 0 noBytes v, (frameHuntsStartWithoutPop arg s hp).1, hrun,
    (hend.2 rfl).congr rfl rfl rfl, hvb, ?_⟩
  have hx : v.xs = .collect := hend.1
  rw [hx] at hv
  rw [hv, hp]
  rfl

/-- Settles O19: noise is skipped with the extractor's registers as they were. -/
theorem tryFrameSkipsNoise : Obligations.TryFrameSkipsNoise := by
  intro arg s hw hp ht hx hnoise
  let u : State := { s with cmdOp := 0x04, cmdArg := arg, phase := .xscan }
  have hh := huntsBy_tryFrame (s := u) rfl rfl
  obtain ⟨v, hrun, hwv, hvb, hv⟩ := hunt_noise (s := u) (fifoBytes s) [] hh (hw.congr rfl rfl rfl rfl) ht hx hnoise
    (List.append_nil _).symm
  refine ⟨u, finish .noFrame 0 noBytes v, (frameHuntsStartWithoutPop arg s hp).1,
    runSteps_hunt_end hrun (hh.congr (by rw [hv]) (by rw [hv])) hwv (by rw [hv]; exact ht) hvb, hvb, ?_⟩
  rw [hv, hp]
  rfl

/-! ### The frame that decodes -/

/-- The extractor's frame decodes exactly when its payload has 16 bytes (R136). -/
theorem decodeRecord_of_holds {s : State} {x : XSync} {p : List Byte} (h : Holds s ⟨x, p⟩) :
    decodeRecord { len := s.xlen, payload := s.xbuf } = if p.length = 16 then some (packNibbles s.xbuf) else none := by
  have hiff : s.xlen = 16 ↔ p.length = 16 := by
    have hlen : s.xlen.toNat = min p.length 17 := h.length
    rw [← BitVec.toNat_inj, show (16 : BitVec 5).toNat = 16 from rfl]
    omega
  exact if_congr hiff rfl rfl

theorem lowNibble_zeroExtend : ∀ x : Byte, (lowNibble x).zeroExtend 8 = x &&& 0x0F := by decide

theorem append_nibbles : ∀ x y : BitVec 4, (x ++ y : Byte) = x.zeroExtend 8 <<< 4 ||| y.zeroExtend 8 := by decide

/-- The packing of the accumulator is the record that decoding reads from the payload (R136). -/
theorem decodes_of_holds {s : State} {x : XSync} {p : List Byte} (h : Holds s ⟨x, p⟩) :
    Decodes p (packNibbles s.xbuf) := by
  intro i
  have heven := h.bytes ⟨2 * i.val, by omega⟩
  have hodd := h.bytes ⟨2 * i.val + 1, by omega⟩
  rw [Fin.getElem_fin] at heven hodd
  rw [Fin.getElem_fin, packNibbles, Vector.getElem_ofFn, append_nibbles, lowNibble_zeroExtend, lowNibble_zeroExtend, heven,
    hodd]

/-- The result buffer of a received record (R144). -/
theorem recordResult_getElem (r : RecordBytes) (i : Fin 18) :
    (recordResult r)[i] = if h : i.val < 8 then r[i.val] else 0x00 := by
  rw [Fin.getElem_fin, recordResult, Vector.getElem_ofFn]

/-! ### RECV -/

/-- Settles O22: the first frame's payload is held when its end marker hands it over, and has the length that decodes. -/
theorem recvDecodesIntoMailbox : Obligations.RecvDecodesIntoMailbox := by
  intro arg s e p rest hw hp ht hempty hs hn hlen
  let u : State := { s with cmdOp := 0x05, cmdArg := arg, phase := .xscan }
  obtain ⟨v, _, hvb, hv, hheld, hrun⟩ := hunt_frame (huntsBy_recv (s := u) rfl rfl) (passes_anyLength _)
    (hw.congr rfl rfl rfl rfl) ht (hs.congr rfl rfl rfl) hn
  rw [recvFrame, decodeRecord_of_holds hheld, if_pos hlen] at hrun
  refine ⟨u, _, (frameHuntsStartWithoutPop arg s hp).2 hempty, hrun, decodes_of_holds hheld, recordResult_getElem _, hvb,
    hheld.congr rfl rfl rfl, ?_⟩
  rw [hv, hp]
  rfl

/-- Settles O23: a first frame of another length is handed over and does not decode; with none the FIFO empties. -/
theorem recvReportsFailure : Obligations.RecvReportsFailure := by
  intro arg s e hw hp ht hempty hs
  let u : State := { s with cmdOp := 0x05, cmdArg := arg, phase := .xscan }
  have hu : exec (.recv arg) s = .next u := (frameHuntsStartWithoutPop arg s hp).2 hempty
  have hh := huntsBy_recv (s := u) rfl rfl
  have hwu : FifoWf u := hw.congr rfl rfl rfl rfl
  have hsu : Stands u e := hs.congr rfl rfl rfl
  refine ⟨fun p rest hn hlen => ?_, fun hn => ?_⟩
  · obtain ⟨v, _, hvb, hv, hheld, hrun⟩ := hunt_frame hh (passes_anyLength _) hwu ht hsu hn
    rw [recvFrame, decodeRecord_of_holds hheld, if_neg hlen] at hrun
    refine ⟨u, _, hu, hrun, carries_of_holds hheld, hvb, hheld.congr rfl rfl rfl, ?_⟩
    rw [hv, hp]
    rfl
  · obtain ⟨v, hvb, hfollows, hv, hrun⟩ := hunt_exhausts hh (passes_anyLength _) hwu ht hsu hn
    refine ⟨u, _, hu, hrun, hvb, hfollows.congr, ?_⟩
    rw [hv, hp]
    rfl

/-! ### EVAL's fill -/

/-- The fill takes a frame of 16 payload bytes into the mailbox (R168). -/
theorem fillFrame_of_holds {s : State} {x : XSync} {p : List Byte} (h : Holds s ⟨x, p⟩) (hlen : p.length = 16) :
    fillFrame { len := s.xlen, payload := s.xbuf } s =
      afterFill { s with inRec := packNibbles s.xbuf, inValid := true } := by
  rw [fillFrame, decodeRecord_of_holds h, if_pos hlen]

/-- In Attract a filled mailbox is first contact, whatever it carries (R171, R176). -/
theorem afterFill_firstContact {s : State} (hq : s.qS = .attract) (hv : s.inValid = true) : afterFill s = { s with
    inValid := false, qflags := s.qflags ||| 0x01, qNext := derive (s.qflags ||| 0x01), qKind := .first,
    outRec := s.outRec.set 6 (s.qflags ||| 0x01), nvReq := (s.qflags ||| 0x01).zeroExtend 32, nvBusy := true,
    phase := .qWaitNv } := by
  rw [afterFill, if_pos hq, evaluate_attract hq, hv]
  rfl

/-- In Attract an empty mailbox is one tick of the idle animation (R171). -/
theorem afterFill_idleTick {s : State} (hq : s.qS = .attract) (hv : s.inValid = false) : afterFill s = { s with
    anim := nextAnim s.anim, fxOut := s.fxOut ++ [0x10 + s.anim.code.zeroExtend 8], phase := .idle, resStatus := 0x00,
    resLen := 1, resBuf := Vector.replicate 18 0x00 } := by
  rw [afterFill, if_pos hq, evaluate_attract hq, hv, ← stateResult_attract]
  simp only [evalAttract, finishState, finish, emit]
  rfl

/-- EVAL in Attract with an empty mailbox starts the fill (R166). -/
theorem exec_eval_attract (arg : Word32) {s : State} (hp : s.phase = .idle) (hboot : s.bootDone = true)
    (hq : s.qstate = .attract) (hempty : s.inValid = false) :
    exec (.eval arg) s = .next { s with cmdOp := 0x08, cmdArg := arg, qS := .attract, phase := .qFill } := by
  rw [exec, execEval, accept_idle hp, evalStart, if_neg (by simp [hboot]), if_neg (by simp [hq]),
    if_neg (by simp [hempty]), hq]

/-- Settles O33: the fill hands over the first frame that decodes, and the evaluation in Attract follows in the same step. -/
theorem attractTakesFirstContact : Obligations.AttractTakesFirstContact := by
  intro arg s e p rest hw hp ht hboot hq hempty hs hn
  let u : State := { s with cmdOp := 0x08, cmdArg := arg, qS := .attract, phase := .qFill }
  obtain ⟨_, _, _, _, hwant⟩ := nextFrame_split hn
  have hlen : p.length = 16 := beq_iff_eq.1 hwant
  obtain ⟨v, _, hvb, hv, hheld, hrun⟩ := hunt_frame (huntsBy_fill (s := u) rfl) passes_fill (hw.congr rfl rfl rfl rfl) ht
    (hs.congr rfl rfl rfl) hn
  have hvq : ({ v with inRec := packNibbles v.xbuf, inValid := true } : State).qS = .attract := by rw [hv]
  rw [fillFrame_of_holds hheld hlen, afterFill_firstContact hvq rfl] at hrun
  refine ⟨u, _, exec_eval_attract arg hp hboot hq hempty, hrun, hlen, decodes_of_holds hheld, hvb,
    hheld.congr rfl rfl rfl, ?_⟩
  rw [hv]
  simp only [u, hempty]

/-- The first unread byte is the one at `rd`, and the cursors differ. -/
theorem front_of_fifoBytes {s : State} {b : Byte} {l : List Byte} (hw : FifoWf s) (hb : fifoBytes s = b :: l) :
    s.rd ≠ s.wr ∧ ringRead s.ring s.rd.toNat = b ∧ fifoBytes { s with rd := nextCursor s s.rd } = l := by
  have hne : s.rd ≠ s.wr := fun h => by rw [(fifoBytes_eq_nil hw).2 h] at hb; cases hb
  rw [fifoBytes_cons hw hne] at hb
  exact ⟨hne, List.cons.inj hb⟩

/-- A hunt's step on a first unread byte that ends no frame, whatever turns are listed. -/
theorem huntStep_feeds {e : State → State} {g : Frame → State → State} {s : State} {b : Byte} {l : List Byte} (hw : FifoWf s)
    (hb : fifoBytes s = b :: l) (hn : (xfeed b { s with rd := nextCursor s s.rd }).2 = none) :
    huntStep e g s = .next (xfeed b { s with rd := nextCursor s s.rd }).1 := by
  obtain ⟨hne, hfront, _⟩ := front_of_fifoBytes hw hb
  rw [huntStep_byte hne hw.rdInside, hfront]
  simp only [hn]

/-- A hunt's step on a first unread byte that ends a frame. -/
theorem huntStep_hands {e : State → State} {g : Frame → State → State} {s : State} {b : Byte} {l : List Byte} {f : Frame}
    (hw : FifoWf s) (hb : fifoBytes s = b :: l) (hf : (xfeed b { s with rd := nextCursor s s.rd }).2 = some f) :
    huntStep e g s = .next (g f (xfeed b { s with rd := nextCursor s s.rd }).1) := by
  obtain ⟨hne, hfront, _⟩ := front_of_fifoBytes hw hb
  rw [huntStep_byte hne hw.rdInside, hfront]
  simp only [hf]

/-- A byte fed is followed, wherever the cursors are. -/
theorem follows_xfeed (b : Byte) (s : State) : Follows s (xfeed b { s with rd := nextCursor s s.rd }).1 [b] :=
  Follows.cons (s := { s with rd := nextCursor s s.rd }) fun _ => ⟨id, id⟩

/-- The fill's step on a byte that ends no frame of 16 payload bytes. -/
theorem fill_passes {s : State} {e : Progress} {b : Byte} {l : List Byte} (hw : FifoWf s) (hp : s.phase = .qFill)
    (hs : Stands s e) (hb : fifoBytes s = b :: l) (hn : ¬(e.sync = .collect ∧ b = byteE ∧ e.payload.length = 16)) :
    controllerStep s = .next (xfeed b { s with rd := nextCursor s s.rd }).1 := by
  have hs' : Stands { s with rd := nextCursor s s.rd } e := hs.congr rfl rfl rfl
  have hsnd := xfeed_snd hs'.1 b
  rw [huntsBy_fill hp s rfl rfl]
  by_cases hend : e.sync = .collect ∧ b = byteE
  · obtain ⟨hc, rfl⟩ := hend
    obtain ⟨x, q⟩ := e
    cases hc
    rw [if_pos ⟨rfl, rfl⟩] at hsnd
    have hheld := hs'.2 rfl
    rw [huntStep_hands hw hb hsnd, xfeed_end hheld]
    have hother : decodable q = false := beq_eq_false_iff_ne.2 fun hlen => hn ⟨rfl, rfl, hlen⟩
    exact congrArg _ (passes_fill q { s with rd := nextCursor s s.rd, xs := .hunt } hother ⟨rfl, hheld.length, hheld.bytes⟩)
  · rw [if_neg hend] at hsnd
    exact huntStep_feeds hw hb hsnd

/-- The fill's step on the end marker of a frame of 16 payload bytes. -/
theorem fill_takes {s : State} {q l : List Byte} (hw : FifoWf s) (hp : s.phase = .qFill) (hs : Collected s q)
    (hb : fifoBytes s = byteE :: l) (hlen : q.length = 16) :
    controllerStep s = .next (afterFill { s with
      rd := nextCursor s s.rd, xs := .hunt, inRec := packNibbles s.xbuf, inValid := true }) := by
  have hs' : Collected { s with rd := nextCursor s s.rd } q := hs.congr rfl rfl rfl
  have hsnd := xfeed_snd hs'.sync byteE
  rw [if_pos ⟨rfl, rfl⟩] at hsnd
  have hheld : Holds { s with rd := nextCursor s s.rd, xs := .hunt } ⟨.hunt, q⟩ := ⟨rfl, hs.length, hs.bytes⟩
  rw [huntsBy_fill hp s rfl rfl, huntStep_hands hw hb hsnd, xfeed_end hs']
  exact congrArg _ (fillFrame_of_holds hheld hlen)

/-- The animation pointer's cycle is a function (R171). -/
theorem nextAnim_of_cycle {a b : QState}
    (h : (a, b) ∈ [(QState.d, QState.e), (.e, .f), (.f, .c), (.c, .o), (.o, .n), (.n, .d)]) : b = nextAnim a := by
  revert h
  cases a <;> cases b <;> decide

/-- Settles O38, by the first unread byte: it ends a frame of 16 payload bytes or it does not; or there is none. -/
theorem fillTakesFirstDecodableFrame : Obligations.FillTakesFirstDecodableFrame := by
  intro s e hw hp hempty hs
  refine ⟨fun b rest hb => ?_, fun hb => ?_⟩
  · obtain ⟨_, _, hrest⟩ := front_of_fifoBytes hw hb
    by_cases hend : e.sync = .collect ∧ b = 0x45 ∧ e.payload.length = 16
    · obtain ⟨hc, rfl, hlen⟩ := hend
      obtain ⟨x, q⟩ := e
      cases hc
      have hheld : Collected s q := hs.2 rfl
      have htakes := fill_takes hw hp hheld hb hlen
      rcases afterFill_cases { s with rd := nextCursor s s.rd, xs := .hunt, inRec := packNibbles s.xbuf, inValid := true }
        with ⟨hq, _⟩ | ⟨hq, hafter⟩
      · rw [afterFill_firstContact hq rfl] at htakes
        refine ⟨_, htakes, hrest, fun hn => absurd ⟨rfl, rfl, hlen⟩ hn, fun _ _ _ => ⟨decodes_of_holds hheld,
          fun hq' => absurd hq hq', fun _ => ?_⟩⟩
        rw [hempty]
      · rw [hafter] at htakes
        exact ⟨_, htakes, hrest, fun hn => absurd ⟨rfl, rfl, hlen⟩ hn, fun _ _ _ => ⟨decodes_of_holds hheld, fun _ => rfl,
          fun hq' => absurd hq' hq⟩⟩
    · refine ⟨_, fill_passes hw hp hs hb hend, ?_, fun _ => ⟨follows_xfeed b s, ?_⟩,
        fun hc hE hlen => absurd ⟨hc, hE, hlen⟩ hend⟩
      · rw [← hrest]
        exact fifoBytes_congr (xfeed_cfg _ _) (xfeed_ring _ _) (xfeed_wr _ _) (xfeed_rd _ _)
      · rw [xfeed_fst]
  · have hstep : controllerStep s = .next (afterFill s) :=
      (huntsBy_fill hp s rfl rfl).trans (huntStep_empty ((fifoBytes_eq_nil hw).1 hb))
    refine ⟨fun hq => ?_, fun a hq ha => ?_⟩
    · rw [hstep, afterFill, if_neg hq]
    · rw [hstep, afterFill_idleTick hq hempty, nextAnim_of_cycle ha]

/-! ### EVAL's drain -/

/-- Settles O40: the drain runs over every unread byte; on the empty FIFO the evaluation ends the phase. -/
theorem drainEmptiesFifo : Obligations.DrainEmptiesFifo := by
  intro s hw hp ht
  obtain ⟨t, hrun, hwt, hbt, hfollows, heq⟩ := drain_scan (fifoBytes s) [] hp hw ht (List.append_nil _).symm
  have hpt : t.phase = .qDrain := by rw [heq, ← hp]
  have hend : controllerStep t = .next (evaluate t) :=
    (huntsBy_drain hpt t rfl rfl).trans (huntStep_empty ((fifoBytes_eq_nil hwt).1 hbt))
  refine ⟨t, evaluate t, hrun, hbt, hpt, hfollows, heq, hend, ?_⟩
  rcases evaluate_phase t with hidle | hwait
  · simp [hidle]
  · simp [hwait]

/-- EVAL in Complete empties the mailbox and starts the drain (R167). -/
theorem exec_eval_complete (arg : Word32) {s : State} (hp : s.phase = .idle) (hboot : s.bootDone = true)
    (hq : s.qstate = .complete) : exec (.eval arg) s = .next { s with
      cmdOp := 0x08, cmdArg := arg, qS := .complete, inValid := false, phase := .qDrain } := by
  rw [exec, execEval, accept_idle hp, evalStart, if_neg (by simp [hboot]), if_pos hq]

/-- Settles O39: the drain of a Complete cycle, and one tick of the animation at its end. -/
theorem completeDrainsAndDiscards : Obligations.CompleteDrainsAndDiscards := by
  intro arg s hw hp ht hboot hq
  let u : State := { s with cmdOp := 0x08, cmdArg := arg, qS := .complete, inValid := false, phase := .qDrain }
  obtain ⟨t, hrun, hwt, hbt, hfollows, heq⟩ := drain_scan (s := u) (fifoBytes s) [] rfl (hw.congr rfl rfl rfl rfl) ht
    (List.append_nil _).symm
  have hqt : t.qS = .complete := by rw [heq]
  have hend := runSteps_hunt_end hrun (huntsBy_drain (by rw [heq])) hwt (by rw [heq]; exact ht) hbt
  rw [evaluate_complete hqt] at hend
  refine ⟨u, completeTick t, exec_eval_complete arg hp hboot hq, hend, hbt, hfollows.congr, ?_⟩
  rw [heq, hp]
  rfl

end Sys2Proof.Machine
end

section
/-! PROOFS of family `40_fifo_extractor.md`, when the loops end: every step of a running command brings its end nearer, but for the
byte that a PUSH may add; and a byte that completes nothing, pushed before every `Pop`, keeps a loop running. -/

namespace Sys2Proof.Machine

/-! ### The work a running command has left -/

/-- The loops over `Pop` that a command in this phase may still run to an empty FIFO (R37, R166). -/
def Phase.loopsLeft : Phase → Nat
  | .idle | .qWaitNv => 0
  | .xscan | .hscan | .qDrain => 1
  | .qFill => 2

theorem Phase.loopsLeft_eq_zero {p : Phase} : p.loopsLeft = 0 ↔ p = .idle ∨ p = .qWaitNv := by
  cases p <;> simp [loopsLeft]

theorem Phase.loopsLeft_le (p : Phase) : p.loopsLeft ≤ 2 := by
  cases p <;> decide

/-- The controller's steps that are left to the end of the running command while nothing is pushed. -/
def workLeft (s : State) : Nat := level s + s.phase.loopsLeft

theorem afterFill_loopsLeft (s : State) : (afterFill s).phase.loopsLeft ≤ 1 := by
  rcases afterFill_cases s with ⟨_, h⟩ | ⟨_, h⟩ <;> rw [h]
  · exact (Phase.loopsLeft_eq_zero.2 (evaluate_phase s)).trans_le (Nat.zero_le 1)
  · exact le_rfl

/-- From `s` to `t` a loop has ended, or the same loop has taken a byte. -/
def LoopAdvances (s t : State) : Prop :=
  t.phase.loopsLeft < s.phase.loopsLeft ∨ (t.phase = s.phase ∧ s.rd ≠ s.wr ∧ t.rd = nextCursor s s.rd)

/-- A hunt's step advances its loop when the two continuations end the loop or do nothing. -/
theorem huntStep_advances {e : State → State} {g : Frame → State → State} {s t : State} (h : huntStep e g s = .next t)
    (he : (e s).phase.loopsLeft < s.phase.loopsLeft)
    (hg : ∀ f u, (g f u).phase.loopsLeft < s.phase.loopsLeft ∨ g f u = u) : LoopAdvances s t := by
  rcases huntStep_cases h with ⟨_, rfl⟩ | ⟨hne, _, ⟨_, rfl⟩ | ⟨f, _, rfl⟩⟩
  · exact .inl he
  · exact .inr ⟨xfeed_phase _ _, hne, xfeed_rd _ _⟩
  · rcases hg f (xfeed (ringRead s.ring s.rd.toNat) { s with rd := nextCursor s s.rd }).1 with hlt | heq
    · exact .inl hlt
    · rw [heq]
      exact .inr ⟨xfeed_phase _ _, hne, xfeed_rd _ _⟩

/-- Every step of a running command advances its loop (R202). -/
theorem controllerStep_advances {s t : State} (hbusy : s.phase ≠ .idle ∧ s.phase ≠ .qWaitNv)
    (h : controllerStep s = .next t) : LoopAdvances s t := by
  rcases controllerStep_cases h with ⟨hp, _⟩ | ⟨hp, _, h⟩ | ⟨hp, _, h⟩ | ⟨hp, h⟩ | ⟨hp, h⟩ | ⟨hp, h⟩
  · exact absurd hp (not_or.2 hbusy)
  · refine huntStep_advances h ?_ fun _ _ => .inl ?_ <;> rw [hp] <;> exact Nat.zero_lt_one
  · refine huntStep_advances h ?_ fun f u => .inl ?_
    · rw [hp]
      exact Nat.zero_lt_one
    · rcases recvFrame_cases f u with ⟨_, he⟩ | ⟨r, _, he⟩ <;> rw [he, hp] <;> exact Nat.zero_lt_one
  · rcases sendStep_cases h with ⟨_, rfl⟩ | ⟨hne, _, ⟨_, _, rfl⟩ | ⟨_, _, rfl⟩ | ⟨_, _, rfl⟩⟩
    · exact .inl (by rw [hp]; exact Nat.zero_lt_one)
    · exact .inr ⟨rfl, hne, rfl⟩
    · exact .inl (by rw [hp]; exact Nat.zero_lt_one)
    · exact .inr ⟨rfl, hne, rfl⟩
  · refine huntStep_advances h ?_ fun f u => ?_
    · rw [hp]
      exact Nat.lt_succ_of_le (afterFill_loopsLeft s)
    · rcases fillFrame_cases f u with ⟨_, he⟩ | ⟨r, _, he⟩ <;> rw [he]
      · exact .inr rfl
      · rw [hp]
        exact .inl (Nat.lt_succ_of_le (afterFill_loopsLeft _))
  · refine huntStep_advances h ?_ fun _ _ => .inr rfl
    rw [hp, Phase.loopsLeft_eq_zero.2 (evaluate_phase s)]
    exact Nat.zero_lt_one

/-- A controller's step that advances `rd` has taken the first unread byte. -/
theorem controllerStep_takes {s t : State} (hw : FifoWf s) (hne : s.rd ≠ s.wr) (hrd : t.rd = nextCursor s s.rd)
    (h : controllerStep s = .next t) : fifoBytes t = (fifoBytes s).tail := by
  obtain ⟨hcfg, hring, hwr⟩ := controllerStep_keepsWriterSide h
  rw [← fifoBytes_advance hw hne]
  exact fifoBytes_congr hcfg hring hwr hrd

/-- Every step of a running command leaves it less work. -/
theorem controllerStep_workLeft {s t : State} (hw : FifoWf s) (hbusy : s.phase ≠ .idle ∧ s.phase ≠ .qWaitNv)
    (h : controllerStep s = .next t) : workLeft t < workLeft s := by
  unfold workLeft
  rw [← fifoBytes_length s, ← fifoBytes_length t]
  rcases controllerStep_advances hbusy h with hlt | ⟨hp, hne, hrd⟩
  · have hle : (fifoBytes t).length ≤ (fifoBytes s).length := by
      rcases controllerStep_fifoBytes hw h with hb | ⟨_, hb⟩ <;> rw [hb]
      rw [List.length_tail]
      exact Nat.sub_le _ _
    omega
  · have hpos := List.length_pos_iff.2 (mt (fifoBytes_eq_nil hw).1 hne)
    rw [controllerStep_takes hw hne hrd h, hp, List.length_tail]
    omega

/-! ### The turns used up -/

theorem evaluate_turns (s : State) : (evaluate s).turns = s.turns := by
  rw [evaluate_frame]

theorem afterFill_turns (s : State) : (afterFill s).turns = s.turns := by
  rcases afterFill_cases s with ⟨_, h⟩ | ⟨_, h⟩ <;> rw [h]
  exact evaluate_turns s

theorem fillFrame_turns (f : Frame) (s : State) : (fillFrame f s).turns = s.turns := by
  rcases fillFrame_cases f s with ⟨_, h⟩ | ⟨r, _, h⟩ <;> rw [h]
  exact afterFill_turns _

theorem recvFrame_turns (f : Frame) (s : State) : (recvFrame f s).turns = s.turns := by
  rcases recvFrame_cases f s with ⟨_, h⟩ | ⟨r, _, h⟩ <;> rw [h] <;> rfl

theorem huntStep_turns {e : State → State} {g : Frame → State → State} {s t : State}
    (he : ∀ s, (e s).turns = s.turns) (hg : ∀ f s, (g f s).turns = s.turns) (h : huntStep e g s = .next t) :
    t.turns = s.turns :=
  huntStep_ends (P := fun t => t.turns = s.turns) h (he s) (fun _ _ _ _ => rfl) fun _ _ _ _ => hg _ _

/-- The controller's code leaves the order of the turns. -/
theorem controllerStep_turns {s t : State} (h : controllerStep s = .next t) : t.turns = s.turns := by
  rcases controllerStep_cases h with ⟨_, rfl⟩ | ⟨_, _, h⟩ | ⟨_, _, h⟩ | ⟨_, h⟩ | ⟨_, h⟩ | ⟨_, h⟩
  · rfl
  · exact huntStep_turns (finish_turns .noFrame 0 noBytes) (fun f => finish_turns .ok f.len (payloadResult f.payload)) h
  · exact huntStep_turns (finish_turns .noFrame 0 noBytes) recvFrame_turns h
  · rcases sendStep_cases h with ⟨_, rfl⟩ | ⟨_, _, ⟨_, _, rfl⟩ | ⟨_, _, rfl⟩ | ⟨_, _, rfl⟩⟩ <;> rfl
  · exact huntStep_turns afterFill_turns fillFrame_turns h
  · exact huntStep_turns evaluate_turns (fun _ _ => rfl) h

/-- While a command runs, a step uses up its turn, and only a PUSH adds work: one byte. -/
theorem busy_step {s t : State} (hw : FifoWf s) (hbusy : s.phase ≠ .idle ∧ s.phase ≠ .qWaitNv) (h : step s = .next t) :
    t.turns = s.turns.rest ∧ workLeft t ≤ workLeft s + if nextTurn s = .rx then 1 else 0 := by
  have hw' : ∀ u r, FifoWf { s with turns := u, rxIn := r } := fun _ _ => hw.congr rfl rfl rfl rfl
  rcases step_cases h with rfl | ⟨_, _, _, hp, _⟩ | ⟨d, hu, _, _, h⟩ | ⟨_, _, _, hp, _⟩ | ⟨_, h⟩ | ⟨_, rfl⟩
  · exact ⟨rfl, Nat.le_add_right _ _⟩
  · exact absurd hp hbusy.1
  · have ht := pushByte_frame (execPush_next.1 h).2
    have hp : t.phase = s.phase := by rw [ht]
    have hlen : (fifoBytes t).length ≤ (fifoBytes s).length + 1 := by
      rcases exec_push_fifoBytes_cases (hw' _ _) h with hb | hb <;> rw [hb]
      · exact Nat.le_succ _
      · exact List.length_append.le
    refine ⟨by rw [ht], ?_⟩
    rw [if_pos hu, workLeft, workLeft, hp, ← fifoBytes_length s, ← fifoBytes_length t]
    omega
  · exact absurd hp hbusy.2
  · have hlt := controllerStep_workLeft (s := { s with turns := s.turns.rest }) (hw' _ _) hbusy h
    exact ⟨controllerStep_turns h, hlt.le.trans (Nat.le_add_right _ _)⟩
  · have hzero : workLeft (resetEvent { s with turns := s.turns.rest }) = 0 := by
      rw [workLeft, ← fifoBytes_length, fifoBytes_of_cleared rfl rfl]
      rfl
    exact ⟨rfl, hzero.trans_le (Nat.zero_le _)⟩

/-- The bound of R264 on the steps to the end of the running command, once the listed turns end. -/
def stepsLeft (s : State) : Nat := s.turns.once.length + s.turns.once.count .rx + workLeft s

/-- Each step of a running command lowers the bound, and leaves the turns ending. -/
theorem busy_step_stepsLeft {s t : State} (hw : FifoWf s) (hend : s.turns.cycle = [])
    (hbusy : s.phase ≠ .idle ∧ s.phase ≠ .qWaitNv) (h : step s = .next t) :
    t.turns.cycle = [] ∧ stepsLeft t < stepsLeft s := by
  obtain ⟨hturns, hwork⟩ := busy_step hw hbusy h
  obtain ⟨once, cycle, hq⟩ : ∃ once cycle, s.turns = ⟨once, cycle⟩ := ⟨_, _, rfl⟩
  rw [hq] at hend
  cases hend
  unfold stepsLeft
  rw [hturns, hq]
  cases once with
  | nil =>
    have hu : nextTurn s = .controller := by rw [nextTurn, hq]; rfl
    rw [step_eq, hu] at h
    have hlt := controllerStep_workLeft (s := { s with turns := s.turns.rest }) (hw.congr rfl rfl rfl rfl) hbusy h
    exact ⟨rfl, Nat.add_lt_add_left hlt _⟩
  | cons u l =>
    have hu : nextTurn s = u := by rw [nextTurn, hq]; rfl
    rw [hu] at hwork
    refine ⟨rfl, ?_⟩
    rw [Supply.rest_cons, List.length_cons, List.count_cons]
    simp only [beq_iff_eq]
    omega

/-- A command whose turns end ends within the bound (R264). -/
theorem ends_within {k : Nat} {s : State} (hinv : Inv s) (hend : s.turns.cycle = []) (hk : stepsLeft s ≤ k) :
    ∃ n t, n ≤ k ∧ runSteps n s = .next t ∧ (t.phase = .idle ∨ t.phase = .qWaitNv) := by
  induction k generalizing s with
  | zero =>
    have hzero : s.phase.loopsLeft = 0 := by unfold stepsLeft workLeft at hk; omega
    exact ⟨0, s, le_rfl, rfl, Phase.loopsLeft_eq_zero.1 hzero⟩
  | succ k ih =>
    by_cases hbusy : s.phase ≠ .idle ∧ s.phase ≠ .qWaitNv
    · obtain ⟨t, ht⟩ := step_answers hinv.fifo hinv.control
      obtain ⟨hend', hlt⟩ := busy_step_stepsLeft hinv.fifo hend hbusy ht
      obtain ⟨n, v, hn, hrun, hv⟩ := ih (stepsKeepInvariant s t hinv ht) hend' (by omega)
      exact ⟨n + 1, v, Nat.succ_le_succ hn, (runSteps_succ ht).trans hrun, hv⟩
    · exact ⟨0, s, Nat.zero_le _, rfl, by tauto⟩

/-! ### A loop that is fed for ever -/

/-- For a frame hunt a fruitless byte is no marker that the extractor waits for. -/
theorem Fruitless.no_marker {b : Byte} {s : State} (hf : Fruitless b s) (hp : s.phase = .xscan ∨ s.phase = .qFill) :
    (s.xs = .hunt → b ≠ byteB) ∧ (s.xs = .collect → b ≠ byteE) := by
  rcases hp with hp | hp <;> rw [Fruitless, hp] at hf <;>
    exact ⟨fun hx => by rw [hx] at hf; exact hf, fun hx => by rw [hx] at hf; exact hf⟩

/-- A byte that is no marker the extractor waits for ends no frame and leaves the extractor waiting for the same (R115). -/
theorem xfeed_fruitless {b : Byte} {s : State} (hhunt : s.xs = .hunt → b ≠ byteB) (hcollect : s.xs = .collect → b ≠ byteE) :
    (xfeed b s).1.xs = s.xs ∧ (xfeed b s).2 = none := by
  cases hx : s.xs with
  | hunt => simp only [xfeed, hx, if_neg (hhunt hx), and_self]
  | collect => simp only [xfeed, hx, if_neg (hcollect hx), and_self]

/-- The loop goes on: the byte at `rd` is taken, and the phase, the supplies and what the loop waits for stay. -/
structure LoopGoesOn (b : Byte) (s t : State) : Prop where
  rd : t.rd = nextCursor s s.rd
  phase : t.phase = s.phase
  turns : t.turns = s.turns
  rxIn : t.rxIn = s.rxIn
  fruitless : Fruitless b t

/-- A frame hunt on a byte that is no marker it waits for. -/
theorem huntStep_goesOn {b : Byte} {l : List Byte} {e : State → State} {g : Frame → State → State} {s t : State}
    (hw : FifoWf s) (hb : fifoBytes s = b :: l) (hp : s.phase = .xscan ∨ s.phase = .qFill) (hf : Fruitless b s)
    (h : huntStep e g s = .next t) : LoopGoesOn b s t := by
  obtain ⟨hhunt, hcollect⟩ := hf.no_marker hp
  obtain ⟨hxs, hnone⟩ := xfeed_fruitless (s := { s with rd := nextCursor s s.rd }) hhunt hcollect
  rw [huntStep_feeds hw hb hnone] at h
  cases h
  refine ⟨xfeed_rd _ _, xfeed_phase _ _, xfeed_turns _ _, xfeed_rxIn _ _, ?_⟩
  unfold Fruitless at hf ⊢
  rw [xfeed_phase, hxs, xfeed_hs]
  exact hf

/-- Each of the five loops goes on over a byte that completes nothing it looks for (R264). -/
theorem controllerStep_goesOn {b : Byte} {l : List Byte} {s t : State} (hw : FifoWf s) (hb : fifoBytes s = b :: l)
    (hf : Fruitless b s) (h : controllerStep s = .next t) : LoopGoesOn b s t := by
  obtain ⟨hne, hfront, _⟩ := front_of_fifoBytes hw hb
  rcases controllerStep_cases h with ⟨hp, _⟩ | ⟨hp, _, h⟩ | ⟨hp, _, h⟩ | ⟨hp, h⟩ | ⟨hp, h⟩ | ⟨hp, h⟩
  · rcases hp with hp | hp <;> exact absurd hf (by simp [Fruitless, hp])
  · exact huntStep_goesOn hw hb (.inl hp) hf h
  · exact huntStep_goesOn hw hb (.inl hp) hf h
  · have hsend : b ≠ if s.hs then 0x4F else 0x52 := by simpa only [Fruitless, hp] using hf
    rcases sendStep_cases h with ⟨hempty, _⟩ | ⟨_, _, ⟨hs, hR, _⟩ | ⟨hs, hO, _⟩ | ⟨_, _, rfl⟩⟩
    · exact absurd hempty hne
    · rw [hs] at hsend
      exact absurd (hfront.symm.trans hR) hsend
    · rw [hs] at hsend
      exact absurd (hfront.symm.trans hO) hsend
    · exact ⟨rfl, rfl, rfl, rfl, hf⟩
  · exact huntStep_goesOn hw hb (.inr hp) hf h
  · rcases huntStep_cases h with ⟨hempty, _⟩ | ⟨_, _, ⟨_, rfl⟩ | ⟨_, _, rfl⟩⟩
    · exact absurd hempty hne
    all_goals exact ⟨xfeed_rd _ _, xfeed_phase _ _, xfeed_turns _ _, xfeed_rxIn _ _, by simp [Fruitless, hp]⟩

/-- Between two rounds of a loop that is fed for ever: the FIFO is empty, and the RX producer's turn, with its byte, comes before
every `Pop`. -/
structure FedForever (b : Byte) (s : State) : Prop where
  inv : Inv s
  empty : fifoBytes s = []
  fruitless : Fruitless b s
  turns : s.turns = ⟨[], [.rx, .controller]⟩
  rxIn : s.rxIn = ⟨[], [b]⟩

/-- A running loop is not the wait for the store, so nothing holds the RX producer (R41). -/
theorem FedForever.not_held {b : Byte} {s : State} (h : FedForever b s) : s.nvBusy = false := by
  by_contra hheld
  have hp : s.phase = .qWaitNv := h.inv.control.hold.1 (by simpa using hheld)
  have hf := h.fruitless
  rw [Fruitless, hp] at hf
  exact hf

/-- The RX producer's step of a round: its byte is the one unread byte, and the `Pop` comes next. -/
theorem FedForever.push {b : Byte} {s : State} (h : FedForever b s) : ∃ t : State,
    step s = .next t ∧ fifoBytes t = [b] ∧
    t = { s with ring := t.ring, wr := t.wr, turns := ⟨[.controller], [.rx, .controller]⟩ } := by
  have hu : nextTurn s = .rx := by rw [nextTurn, h.turns]; rfl
  have hd : s.rxIn.head? = some b := by rw [h.rxIn]; rfl
  obtain ⟨t, ht, hb⟩ := exec_push_fifoBytes b (s := { s with turns := s.turns.rest, rxIn := s.rxIn.rest })
    (h.inv.fifo.congr rfl rfl rfl rfl) h.not_held
  obtain ⟨-, hruns, -⟩ := stepRunsDecodedInput s
  refine ⟨t, (hruns b hu hd h.not_held).trans ht, ?_, ?_⟩
  · have hsize := h.inv.fifo.sizeLow
    have hroom : ¬0 = s.cfg.ringSize - 1 := by omega
    have hempty : fifoBytes { s with turns := s.turns.rest, rxIn := s.rxIn.rest } = [] := h.empty
    rw [hb, hempty]
    exact if_neg hroom
  · have hframe := pushByte_frame (execPush_next.1 ht).2
    rw [h.turns, h.rxIn] at hframe
    rw [hframe, h.rxIn]
    rfl

/-- A whole round: the byte is pushed and taken, and the phase stays. -/
theorem FedForever.round {b : Byte} {s : State} (h : FedForever b s) : ∃ u t : State,
    step s = .next u ∧ u.phase = s.phase ∧ step u = .next t ∧ t.phase = s.phase ∧ FedForever b t := by
  obtain ⟨u, hsu, hub, heq⟩ := h.push
  have hinv : Inv u := stepsKeepInvariant s u h.inv hsu
  obtain ⟨t, hut⟩ := step_answers hinv.fifo hinv.control
  have hturns : u.turns = ⟨[.controller], [.rx, .controller]⟩ := by rw [heq]
  have hctl : controllerStep { u with turns := u.turns.rest } = .next t := by
    have hu : nextTurn u = .controller := by rw [nextTurn, hturns]; rfl
    rw [step_eq, hu] at hut
    exact hut
  have hf : Fruitless b u := by rw [heq]; exact h.fruitless
  have hw : FifoWf { u with turns := u.turns.rest } := hinv.fifo.congr rfl rfl rfl rfl
  obtain ⟨hrd, hp, ht, hrx, hft⟩ := controllerStep_goesOn hw hub hf hctl
  obtain ⟨hne, _⟩ := front_of_fifoBytes hw hub
  have hup : u.phase = s.phase := by rw [heq]
  refine ⟨u, t, hsu, hup, hut, hp.trans hup, stepsKeepInvariant u t hinv hut, ?_, hft, ?_, ?_⟩
  · exact (controllerStep_takes hw hne hrd hctl).trans (congrArg List.tail hub)
  · rw [ht, hturns]
    rfl
  · have hux : u.rxIn = s.rxIn := by rw [heq]
    exact hrx.trans (hux.trans h.rxIn)

/-- A loop that is fed for ever never ends (R121, R264). -/
theorem FedForever.phase_stays {b : Byte} (n : Nat) {s : State} (h : FedForever b s) :
    ∃ t, runSteps n s = .next t ∧ t.phase = s.phase := by
  obtain ⟨u, v, hsu, hu, huv, hv, hfed⟩ := h.round
  match n with
  | 0 => exact ⟨s, rfl, rfl⟩
  | 1 => exact ⟨u, runSteps_succ hsu, hu⟩
  | n + 2 =>
    obtain ⟨t, hrun, ht⟩ := FedForever.phase_stays n hfed
    exact ⟨t, (runSteps_succ hsu).trans ((runSteps_succ huv).trans hrun), ht.trans hv⟩

/-- Settles O53: a running command's bound falls with every step; a loop that is fed for ever goes round and round. -/
theorem huntsEndUnlessFedForever : Obligations.HuntsEndUnlessFedForever := by
  refine ⟨fun s hinv hend => ends_within hinv hend ?_,
    fun s b n hinv hempty hf hturns hrx => FedForever.phase_stays n ⟨hinv, hempty, hf, hturns, hrx⟩⟩
  have hloops := s.phase.loopsLeft_le
  rw [stepsLeft, workLeft, fifoBytes_length]
  omega

end Sys2Proof.Machine
end

section
/-! PROOFS of family `41_codec.md`, the codec: which nibble of the record each byte of a frame carries, what decoding reads back from
the nibbles, and the commands that write the outgoing record or report its frame in their ISSUE step. -/

namespace Sys2Proof.Machine

/-! ### The nibbles of a record and of its frame -/

/-- Nibble `j` of a record, each byte's high nibble first (R62, R131). -/
def nibbleAt (r : RecordBytes) (j : Fin 16) : BitVec 4 :=
  if j.val % 2 = 0 then highNibble r[j.val / 2] else lowNibble r[j.val / 2]

/-- A byte with its two nibbles exchanged. -/
def nibbleSwap (x : Byte) : Byte := lowNibble x ++ highNibble x

theorem lowNibble_encodedNibble : ∀ n : BitVec 4, lowNibble (encodedNibble n) = n := by decide

theorem encodedNibble_range : ∀ n : BitVec 4, 0xD0 ≤ (encodedNibble n).toNat ∧ (encodedNibble n).toNat ≤ 0xDF := by decide

theorem encodedNibble_highNibble : ∀ x : Byte, encodedNibble (highNibble x) = 0xD0 ||| x >>> 4 := by decide

theorem encodedNibble_lowNibble (x : Byte) : encodedNibble (lowNibble x) = 0xD0 ||| (x &&& 0x0F) := by
  rw [encodedNibble, lowNibble_zeroExtend]

theorem highNibble_append_lowNibble (x : Byte) : highNibble x ++ lowNibble x = x := BitVec.extractLsb'_append_extractLsb'

theorem nibbleSwap_nibbleSwap : ∀ x : Byte, nibbleSwap (nibbleSwap x) = x := by decide

theorem lowNibble_and : ∀ x : Byte, lowNibble (x &&& 0x0F) = lowNibble x := by decide

/-- Byte `j` of an expanded record carries its nibble `j` (R131). -/
theorem nibbleExpand_getElem (r : RecordBytes) (j : Fin 16) : (nibbleExpand r)[j] = encodedNibble (nibbleAt r j) := by
  rw [Fin.getElem_fin, nibbleExpand, Vector.getElem_ofFn]
  rfl

/-- The nibbles of byte `i` are neighbours, the high one first (R62). -/
theorem nibbleExpand_even (r : RecordBytes) {i : Nat} (hi : i < 8) :
    (nibbleExpand r)[2 * i] = encodedNibble (highNibble r[i]) := by
  refine (nibbleExpand_getElem r ⟨2 * i, by omega⟩).trans ?_
  simp [nibbleAt]

theorem nibbleExpand_odd (r : RecordBytes) {i : Nat} (hi : i < 8) :
    (nibbleExpand r)[2 * i + 1] = encodedNibble (lowNibble r[i]) := by
  refine (nibbleExpand_getElem r ⟨2 * i + 1, by omega⟩).trans ?_
  simp [nibbleAt, Nat.add_mod, show (2 * i + 1) / 2 = i by omega]

theorem encodeFrame_first (c : Config) (r : RecordBytes) : (encodeFrame c r)[0] = byteB := by
  rw [encodeFrame, framed, Vector.getElem_ofFn]
  rfl

theorem encodeFrame_last (c : Config) (r : RecordBytes) : (encodeFrame c r)[17] = byteE := by
  rw [encodeFrame, framed, Vector.getElem_ofFn]
  rfl

/-- Wire byte `i` of a frame is byte `PERM[i]` of the expanded record (R132, R133). -/
theorem encodeFrame_body (c : Config) (r : RecordBytes) (i : Fin 16) :
    (encodeFrame c r)[i.val + 1] = (nibbleExpand r)[c.perm[i]] := by
  rw [encodeFrame, framed, Vector.getElem_ofFn]
  simp [permute]

/-- A frame's body byte carries nibble `PERM[i]` of the record. -/
theorem encodeFrame_nibble (c : Config) (r : RecordBytes) (i : Fin 16) :
    (encodeFrame c r)[i.val + 1] = encodedNibble (nibbleAt r c.perm[i]) := by
  rw [encodeFrame_body, nibbleExpand_getElem]

/-! ### Decoding -/

theorem packNibbles_getElem (p : PayloadBytes) {i : Nat} (hi : i < 8) :
    (packNibbles p)[i] = lowNibble p[2 * i] ++ lowNibble p[2 * i + 1] := by
  rw [packNibbles, Vector.getElem_ofFn]

/-- Packing reads the low nibbles alone (R139). -/
theorem packNibbles_congr {p q : PayloadBytes} (h : ∀ j : Fin 16, lowNibble p[j] = lowNibble q[j]) :
    packNibbles p = packNibbles q := by
  refine Vector.ext fun i hi => ?_
  have heven : lowNibble p[2 * i] = lowNibble q[2 * i] := h ⟨2 * i, by omega⟩
  have hodd : lowNibble p[2 * i + 1] = lowNibble q[2 * i + 1] := h ⟨2 * i + 1, by omega⟩
  rw [packNibbles_getElem p hi, packNibbles_getElem q hi, heven, hodd]

/-- Packing an expanded record gives the record back (R131, R136). -/
theorem packNibbles_nibbleExpand (r : RecordBytes) : packNibbles (nibbleExpand r) = r := by
  refine Vector.ext fun i hi => ?_
  rw [packNibbles_getElem _ hi, nibbleExpand_even r hi, nibbleExpand_odd r hi, lowNibble_encodedNibble,
    lowNibble_encodedNibble, highNibble_append_lowNibble]

theorem decodeRecord_sixteen (p : PayloadBytes) : decodeRecord { len := 16, payload := p } = some (packNibbles p) := if_pos rfl

/-- A legal `PERM` reaches every position (R6). -/
theorem perm_surjective {c : Config} (h : c.Legal) (j : Fin 16) : ∃ i : Fin 16, c.perm[i] = j := by
  obtain ⟨-, -, hnodup, -⟩ := h
  have hinj : Function.Injective fun i : Fin 16 => c.perm[i] := fun i j hij =>
    Fin.ext ((hnodup.getElem_inj_iff (hi := by simp) (hj := by simp)).1 (by simpa using hij))
  exact Finite.surjective_of_injective hinj j

/-- Settles O26: a legal `PERM` reaches every position, so undoing it leaves the expanded record. -/
theorem unpermutedFrameDecodes : Obligations.UnpermutedFrameDecodes := by
  intro c r e hc he
  have hbyte (j : Fin 16) : e[j] = (nibbleExpand r)[j] := by
    obtain ⟨i, rfl⟩ := perm_surjective hc j
    exact (he i).trans (encodeFrame_body c r i)
  have hexpand : e = nibbleExpand r := Vector.ext fun j hj => hbyte ⟨j, hj⟩
  rw [decodeRecord_sixteen, hexpand, packNibbles_nibbleExpand]

/-- Settles O27: either record is what undoing the permutation on the common frame decodes to. -/
theorem encodeIsInjective : Obligations.EncodeIsInjective := by
  intro c hc
  refine ⟨fun r r' hframe => ?_, fun r i => ?_⟩
  · have hr := unpermutedFrameDecodes c r (nibbleExpand r) hc fun i => (encodeFrame_body c r i).symm
    have hr' := unpermutedFrameDecodes c r' (nibbleExpand r) hc fun i => by rw [← hframe, encodeFrame_body]
    exact Option.some.inj (hr.symm.trans hr')
  · rw [encodeFrame_nibble]
    exact encodedNibble_range _

/-- The other byte of a pair of record bytes, an even one and the odd one after it. -/
def pairByte (i : Fin 8) : Fin 8 := i ^^^ 1

theorem pairByte_even : ∀ k : Fin 4, pairByte ⟨2 * k.val, by omega⟩ = ⟨2 * k.val + 1, by omega⟩ := by decide

theorem pairByte_odd : ∀ k : Fin 4, pairByte ⟨2 * k.val + 1, by omega⟩ = ⟨2 * k.val, by omega⟩ := by decide

/-- The default `PERM` sends the nibbles of a byte where those of the pair's other byte were, the low one first (R6). -/
theorem standard_perm : ∀ i : Fin 8, Config.standard.perm[2 * i.val].val = 2 * (pairByte i).val + 1 ∧
    Config.standard.perm[2 * i.val + 1].val = 2 * (pairByte i).val := by decide

/-- Under the default `PERM` decoding a frame as sent reads, in place of a byte, the swap of the pair's other byte (R138). -/
theorem packNibbles_standard {r : RecordBytes} {w : PayloadBytes}
    (hw : ∀ i : Fin 16, w[i] = (encodeFrame Config.standard r)[i.val + 1]) (i : Fin 8) :
    (packNibbles w)[i] = nibbleSwap r[pairByte i] := by
  obtain ⟨hperm, hperm'⟩ := standard_perm i
  have hwire (j : Fin 16) : w[j] = (nibbleExpand r)[Config.standard.perm[j]] := (hw j).trans (encodeFrame_body _ r j)
  have hlow : w[2 * i.val] = encodedNibble (lowNibble r[pairByte i]) := by
    refine ((hwire ⟨2 * i.val, by omega⟩).trans ?_).trans (nibbleExpand_odd r (pairByte i).isLt)
    simp only [Fin.getElem_fin, hperm]
  have hhigh : w[2 * i.val + 1] = encodedNibble (highNibble r[pairByte i]) := by
    refine ((hwire ⟨2 * i.val + 1, by omega⟩).trans ?_).trans (nibbleExpand_even r (pairByte i).isLt)
    simp only [Fin.getElem_fin, hperm']
  refine (packNibbles_getElem w i.isLt).trans ?_
  rw [hlow, hhigh, lowNibble_encodedNibble, lowNibble_encodedNibble, nibbleSwap]

/-- Settles O28: the two equations of a pair say the same, the swap being its own inverse. -/
theorem rawDecodeIsAsymmetric : Obligations.RawDecodeIsAsymmetric := by
  intro r w hw
  have heven (k : Fin 4) : (packNibbles w)[2 * k.val] = nibbleSwap r[2 * k.val + 1] := by
    simpa only [pairByte_even, Fin.getElem_fin] using packNibbles_standard hw ⟨2 * k.val, by omega⟩
  have hodd (k : Fin 4) : (packNibbles w)[2 * k.val + 1] = nibbleSwap r[2 * k.val] := by
    simpa only [pairByte_odd, Fin.getElem_fin] using packNibbles_standard hw ⟨2 * k.val + 1, by omega⟩
  rw [decodeRecord_sixteen, Option.some_inj]
  refine ⟨fun h k => ?_, fun h => Vector.ext fun i hi => ?_⟩
  · have hk := heven k
    rwa [h] at hk
  · obtain ⟨k, rfl | rfl⟩ : ∃ k : Fin 4, i = 2 * k.val ∨ i = 2 * k.val + 1 := ⟨⟨i / 2, by omega⟩, by dsimp only; omega⟩
    · exact (heven k).trans (h k).symm
    · rw [hodd k, h k]
      exact nibbleSwap_nibbleSwap _

/-- Settles O29: packing reads the low nibbles alone. -/
theorem decodeIgnoresHighNibbles : Obligations.DecodeIgnoresHighNibbles := by
  intro f g
  refine ⟨by simp [decodeRecord], fun hlen hlow => ?_⟩
  have hpack : packNibbles f.payload = packNibbles g.payload := packNibbles_congr fun j => by
    rw [← lowNibble_and f.payload[j], hlow j, lowNibble_and]
  rw [decodeRecord, decodeRecord, hlen, hpack]

/-! ### Commands that end in their ISSUE step -/

/-- The outgoing record, byte by byte: byte 7 is hardwired (R29). -/
theorem outBytes_eq (s : State) : outBytes s = #v[s.outRec[0], s.outRec[1], s.outRec[2], s.outRec[3], s.outRec[4],
    s.outRec[5], s.outRec[6], 0x00] := by
  refine Vector.ext fun i hi => ?_
  match i with
  | 0 | 1 | 2 | 3 | 4 | 5 | 6 | 7 => simp [outBytes]

/-- Settles O6: the four bytes of `u` are stored in bytes 0 to 3 of the record. -/
theorem setUidWritesUniqueId : Obligations.SetUidWritesUniqueId := by
  intro u s hp
  rw [exec, execSetUid, accept_idle hp]
  refine ⟨_, rfl, ?_, ?_⟩
  · rw [outBytes_eq, outBytes_eq]
    simp [byteOf]
  · rw [hp]
    rfl

/-- Settles O7: the type and the magic byte are stored in bytes 4 and 5 of the record. -/
theorem setTypeWritesTypeAndMagic : Obligations.SetTypeWritesTypeAndMagic := by
  intro ty m ign s hp
  rw [exec, execSetType, accept_idle hp]
  refine ⟨_, rfl, ?_, ?_⟩
  · rw [outBytes_eq, outBytes_eq]
    simp [magicByte]
  · rw [hp]
    rfl

/-- Settles O8: ENCODE's result buffer is the frame, whose body byte `i` carries nibble `PERM[i]`. -/
theorem encodeReturnsOutgoingFrame : Obligations.EncodeReturnsOutgoingFrame := by
  intro arg s hp
  rw [exec, execEncode, accept_idle hp]
  refine ⟨_, rfl, encodeFrame_first _ _, encodeFrame_last _ _, fun i => ?_, ?_⟩
  · refine (encodeFrame_nibble s.cfg (outBytes s) i).trans ?_
    unfold nibbleAt
    split_ifs
    · exact encodedNibble_highNibble _
    · exact encodedNibble_lowNibble _
  · rw [hp]
    rfl

/-- Settles O21: a full mailbox ends RECV before its hunt. -/
theorem recvKeepsFullMailbox : Obligations.RecvKeepsFullMailbox := by
  intro arg s hp hfull
  rw [exec, execRecv, accept_idle hp, if_pos hfull, hp]
  rfl

end Sys2Proof.Machine
end

section
/-! PROOFS of family `41_codec.md`, the transmit: SEND's handshake hunt over the unread bytes, up to each of its two bytes and to an
empty FIFO. -/

namespace Sys2Proof.Machine

/-! ### The first occurrence of a byte -/

/-- A list splits at the first occurrence of an entry in one way. -/
theorem first_split_unique {α : Type} [DecidableEq α] {a : α} {l l' m m' : List α} (hl : a ∉ l) (hl' : a ∉ l')
    (h : l ++ a :: m = l' ++ a :: m') : l = l' ∧ m = m' := by
  have hlen : l.length = l'.length := by
    have hidx := congrArg (List.idxOf a) h
    simpa [List.idxOf_append, hl, hl'] using hidx
  obtain ⟨hfront, hback⟩ := List.append_inj h hlen
  exact ⟨hfront, (List.cons.inj hback).2⟩

/-- Two entries are a subsequence exactly when the second is somewhere behind the first occurrence of the first. -/
theorem pair_sublist_iff {α : Type} {a b : α} {l m : List α} (h : a ∉ l) : [a, b].Sublist (l ++ a :: m) ↔ b ∈ m := by
  induction l with
  | nil => rw [List.nil_append, List.cons_sublist_cons, List.singleton_sublist]
  | cons x l ih =>
    obtain ⟨hx, hl⟩ := not_or.1 (mt List.mem_cons.2 h)
    rw [List.cons_append, ← ih hl]
    refine ⟨fun hsub => ?_, fun hsub => hsub.cons x⟩
    cases hsub with
    | cons _ hsub => exact hsub
    | cons_cons => exact absurd rfl hx

/-! ### The handshake hunt -/

/-- The handshake byte that SEND waits for (R146). -/
def awaited (hs : Bool) : Byte := if hs then byteO else byteR

/-- What SEND does once it has taken the byte it waits for (R146). -/
def shake (s : State) : State := if s.hs then sendFrame s else { s with hs := true }

theorem shake_of_waiting {s : State} (h : s.hs = false) : shake s = { s with hs := true } := if_neg (by simp [h])

theorem shake_of_half {s : State} (h : s.hs = true) : shake s = sendFrame s := if_pos h

/-- While SEND hunts and no turn is listed, a step is SEND's. -/
theorem step_send {s : State} (hp : s.phase = .hscan) (ht : s.turns = .nil) : step s = sendStep s := by
  rw [step_controller ht]
  simp only [controllerStep, hp]

/-- SEND's step on the first of the unread bytes: taken, and acted on if SEND waits for it. -/
theorem send_byte {s : State} {b : Byte} {l : List Byte} (hp : s.phase = .hscan) (hw : FifoWf s) (ht : s.turns = .nil)
    (hb : fifoBytes s = b :: l) : step s = .next (if b = awaited s.hs then shake { s with rd := nextCursor s s.rd }
      else { s with rd := nextCursor s s.rd }) := by
  obtain ⟨hne, rfl, _⟩ := front_of_fifoBytes hw hb
  obtain ⟨t, hstep⟩ := sendStep_answers hw.rdInside
  rw [step_send hp ht, hstep]
  rcases sendStep_cases hstep with ⟨hempty, _⟩ | ⟨_, _, ⟨hs, hR, rfl⟩ | ⟨hs, hO, rfl⟩ | ⟨hR, hO, rfl⟩⟩
  · exact absurd hempty hne
  · rw [hR, if_pos (by rw [hs]; rfl), shake_of_waiting (s := { s with rd := nextCursor s s.rd }) hs]
  · rw [hO, if_pos (by rw [hs]; rfl), shake_of_half (s := { s with rd := nextCursor s s.rd }) hs]
  · have hother : ringRead s.ring s.rd.toNat ≠ awaited s.hs := fun h => by
      cases hs : s.hs
      · exact hR ⟨hs, by rw [h, hs]; rfl⟩
      · exact hO ⟨hs, by rw [h, hs]; rfl⟩
    rw [if_neg hother]

/-- SEND's step on an empty FIFO (R148). -/
theorem send_end {s : State} (hp : s.phase = .hscan) (hw : FifoWf s) (ht : s.turns = .nil) (hb : fifoBytes s = []) :
    step s = .next (finish .noHandshake 0 noBytes { s with hs := false }) := by
  rw [step_send hp ht, sendStep, pop_empty ((fifoBytes_eq_nil hw).1 hb)]

/-- Bytes that SEND does not wait for are discarded, a step a byte, and the extractor is not fed (R146). -/
theorem send_skips (l rest : List Byte) {s : State} (hp : s.phase = .hscan) (hw : FifoWf s) (ht : s.turns = .nil)
    (hl : awaited s.hs ∉ l) (hb : fifoBytes s = l ++ rest) : ∃ t : State,
      runSteps l.length s = .next t ∧ FifoWf t ∧ fifoBytes t = rest ∧ t = { s with rd := t.rd } := by
  induction l generalizing s with
  | nil => exact ⟨s, rfl, hw, hb, rfl⟩
  | cons b l ih =>
    obtain ⟨hne, hl⟩ := not_or.1 (mt List.mem_cons.2 hl)
    obtain ⟨_, _, hrest⟩ := front_of_fifoBytes hw hb
    have hstep := send_byte hp hw ht hb
    rw [if_neg (Ne.symm hne)] at hstep
    obtain ⟨t, hrun, hwt, hbt, heq⟩ := ih (s := { s with rd := nextCursor s s.rd }) hp hw.advance ht hl hrest
    exact ⟨t, (runSteps_succ hstep).trans hrun, hwt, hbt, heq⟩

/-- The hunt up to the byte that SEND waits for. -/
theorem send_finds {l rest : List Byte} {s : State} (hp : s.phase = .hscan) (hw : FifoWf s) (ht : s.turns = .nil)
    (hl : awaited s.hs ∉ l) (hb : fifoBytes s = l ++ awaited s.hs :: rest) : ∃ t : State,
      runSteps (l.length + 1) s = .next (shake t) ∧ FifoWf t ∧ fifoBytes t = rest ∧ t = { s with rd := t.rd } := by
  obtain ⟨t, hrun, hwt, hbt, heq⟩ := send_skips l _ hp hw ht hl hb
  obtain ⟨_, _, hrest⟩ := front_of_fifoBytes hwt hbt
  have hhs : t.hs = s.hs := by rw [heq]
  have hstep := send_byte (by rw [heq]; exact hp) hwt (by rw [heq]; exact ht) hbt
  rw [if_pos (by rw [hhs])] at hstep
  refine ⟨{ t with rd := nextCursor t t.rd }, ?_, hwt.advance, hrest, ?_⟩
  · rw [runSteps_add hrun, runSteps_succ hstep, runSteps_zero]
  · rw [heq]

/-- The hunt to an empty FIFO, when the byte that SEND waits for does not come. -/
theorem send_misses {s : State} (hp : s.phase = .hscan) (hw : FifoWf s) (ht : s.turns = .nil)
    (hl : awaited s.hs ∉ fifoBytes s) : ∃ t : State,
      runSteps ((fifoBytes s).length + 1) s = .next (finish .noHandshake 0 noBytes { t with hs := false }) ∧
      fifoBytes t = [] ∧ t = { s with rd := t.rd } := by
  obtain ⟨t, hrun, hwt, hbt, heq⟩ := send_skips (fifoBytes s) [] hp hw ht hl (List.append_nil _).symm
  have hstep := send_end (by rw [heq]; exact hp) hwt (by rw [heq]; exact ht) hbt
  exact ⟨t, by rw [runSteps_add hrun, runSteps_succ hstep, runSteps_zero], hbt, heq⟩

/-- The hunt up to the first `'R'`: what follows waits for `'O'`. -/
theorem send_finds_R {pre l : List Byte} {s : State} (hp : s.phase = .hscan) (hw : FifoWf s) (ht : s.turns = .nil)
    (hs : s.hs = false) (hpre : byteR ∉ pre) (hb : fifoBytes s = pre ++ byteR :: l) : ∃ t : State,
      runSteps (pre.length + 1) s = .next t ∧ FifoWf t ∧ fifoBytes t = l ∧ t = { s with rd := t.rd, hs := true } := by
  have hR : awaited s.hs = byteR := by rw [hs]; rfl
  obtain ⟨t, hrun, hwt, hbt, heq⟩ := send_finds hp hw ht (hR ▸ hpre) (hR ▸ hb)
  have hshake : shake t = { t with hs := true } := shake_of_waiting (by rw [heq]; exact hs)
  refine ⟨{ t with hs := true }, hshake ▸ hrun, hwt.congr rfl rfl rfl rfl, hbt, ?_⟩
  rw [heq]

/-- A handshake among the unread bytes: the frame goes out in the step that takes the first `'O'` after the first `'R'`. -/
theorem send_completes {pre mid rest : List Byte} {s : State} (hp : s.phase = .hscan) (hw : FifoWf s) (ht : s.turns = .nil)
    (hs : s.hs = false) (hpre : byteR ∉ pre) (hmid : byteO ∉ mid)
    (hb : fifoBytes s = pre ++ byteR :: (mid ++ byteO :: rest)) : ∃ t : State,
      runSteps (pre.length + mid.length + 2) s = .next (sendFrame t) ∧ fifoBytes t = rest ∧
      t = { s with rd := t.rd, hs := true } := by
  obtain ⟨u, hrun, hwu, hbu, hequ⟩ := send_finds_R hp hw ht hs hpre hb
  have hsu : u.hs = true := by rw [hequ]
  have hO : awaited u.hs = byteO := by rw [hsu]; rfl
  obtain ⟨t, hrun', _, hbt, heq⟩ := send_finds (by rw [hequ]; exact hp) hwu (by rw [hequ]; exact ht) (hO ▸ hmid) (hO ▸ hbu)
  have hshake : shake t = sendFrame t := shake_of_half (by rw [heq]; exact hsu)
  refine ⟨t, ?_, hbt, ?_⟩
  · rw [show pre.length + mid.length + 2 = pre.length + 1 + (mid.length + 1) by omega, runSteps_add hrun, hrun', hshake]
  · rw [heq, hequ]

/-- No handshake among them: SEND takes every byte and finds the FIFO empty. -/
theorem send_fails {s : State} (hp : s.phase = .hscan) (hw : FifoWf s) (ht : s.turns = .nil) (hs : s.hs = false)
    (hno : ¬[byteR, byteO].Sublist (fifoBytes s)) : ∃ t : State,
      runSteps ((fifoBytes s).length + 1) s = .next (finish .noHandshake 0 noBytes { t with hs := false }) ∧
      fifoBytes t = [] ∧ t = { s with rd := t.rd, hs := t.hs } := by
  by_cases hR : byteR ∈ fifoBytes s
  · obtain ⟨pre, l, hb, hpre⟩ := List.eq_append_cons_of_mem hR
    rw [hb, pair_sublist_iff hpre] at hno
    obtain ⟨u, hrun, hwu, hbu, hequ⟩ := send_finds_R hp hw ht hs hpre hb
    have hsu : u.hs = true := by rw [hequ]
    have hO : awaited u.hs ∉ fifoBytes u := by rw [hsu, hbu]; exact hno
    obtain ⟨t, hrun', hbt, heq⟩ := send_misses (by rw [hequ]; exact hp) hwu (by rw [hequ]; exact ht) hO
    refine ⟨t, ?_, hbt, ?_⟩
    · rw [hb, show (pre ++ byteR :: l).length + 1 = pre.length + 1 + (l.length + 1) by simp; omega, runSteps_add hrun,
        ← hbu, hrun']
    · rw [heq, hequ]
  · have hR' : awaited s.hs ∉ fifoBytes s := by rw [hs]; exact hR
    obtain ⟨t, hrun, hbt, heq⟩ := send_misses hp hw ht hR'
    exact ⟨t, hrun, hbt, by rw [heq]⟩

/-- Settles O24: the handshake among the unread bytes is the first `'R'` and the first `'O'` after it, if they are there. -/
theorem sendNeedsHandshakeSubsequence : Obligations.SendNeedsHandshakeSubsequence := by
  intro arg s hw hp ht
  let u : State := { s with cmdOp := 0x07, cmdArg := arg, phase := .hscan, hs := false }
  have hu : exec (.send arg) s = .next u := by rw [exec, execSend, accept_idle hp]
  have hwu : FifoWf u := hw.congr rfl rfl rfl rfl
  by_cases hsub : [byteR, byteO].Sublist (fifoBytes s)
  · obtain ⟨pre, l, hb, hpre⟩ := List.eq_append_cons_of_mem (hsub.mem List.mem_cons_self)
    obtain ⟨mid, rest, rfl, hmid⟩ := List.eq_append_cons_of_mem ((pair_sublist_iff hpre).1 (hb ▸ hsub))
    obtain ⟨t, hrun, hbt, heq⟩ := send_completes (s := u) rfl hwu ht rfl hpre hmid hb
    refine ⟨u, _, _, hu, rfl, ?_, hrun, fun _ => ⟨fun pre' mid' rest' hpre' hmid' hb' => ?_, ?_⟩, absurd hsub⟩
    · rw [hb]
      simp only [List.length_append, List.length_cons]
      omega
    · obtain ⟨rfl, htail⟩ := first_split_unique hpre hpre' (hb.symm.trans hb')
      obtain ⟨rfl, rfl⟩ := first_split_unique hmid hmid' htail
      exact ⟨rfl, hbt⟩
    · rw [heq, hp]
      rfl
  · obtain ⟨t, hrun, hbt, heq⟩ := send_fails (s := u) rfl hwu ht rfl hsub
    refine ⟨u, _, _, hu, rfl, le_rfl, hrun, fun h => absurd h hsub, fun _ => ⟨hbt, ?_⟩⟩
    rw [heq, hp]
    rfl

end Sys2Proof.Machine
end

section
/-! PROOFS of family `41_codec.md`, end to end: a frame as it reaches the receiver is the first frame, EVAL's fill decodes it, and a
linear state accepts the record of the type it requires. -/

namespace Sys2Proof.Machine

/-! ### A received frame -/

theorem framed_getElem (w : PayloadBytes) {i : Nat} (hi : i < 18) :
    (framed w)[i] = (byteB :: (w.toList ++ [byteE]))[i]'(by simpa using hi) := by
  rw [framed, Vector.getElem_ofFn]
  cases i with
  | zero => rfl
  | succ i =>
    rw [List.getElem_cons_succ, List.getElem_append]
    simp

/-- A framed body on the wire (R93). -/
theorem framed_toList (w : PayloadBytes) : (framed w).toList = byteB :: (w.toList ++ [byteE]) :=
  List.ext_getElem (by simp) fun i hi _ => (Vector.getElem_toList hi).trans (framed_getElem w _)

/-- No byte of an expanded record is the end marker (R134). -/
theorem byteE_notMem_nibbleExpand (r : RecordBytes) : byteE ∉ (nibbleExpand r).toList := by
  intro hmem
  obtain ⟨j, hj, hbyte⟩ := List.getElem_of_mem hmem
  rw [Vector.getElem_toList] at hbyte
  have hnibble := nibbleExpand_getElem r ⟨j, by simpa using hj⟩
  have hlow := (encodedNibble_range (nibbleAt r ⟨j, by simpa using hj⟩)).1
  rw [← hnibble, Fin.getElem_fin, hbyte] at hlow
  exact absurd hlow (by decide)

/-- A framed body without end marker is the first frame, if frames of its length are wanted (R117, R118). -/
theorem nextFrame_framed {want : List Byte → Bool} {w : PayloadBytes} (q : List Byte) (hw : byteE ∉ w.toList)
    (hwant : want w.toList = true) : nextFrame want ⟨.hunt, q⟩ (framed w).toList = some (w.toList, []) := by
  rw [framed_toList, nextFrame, if_neg (by simp)]
  change nextFrame want ⟨.collect, []⟩ _ = _
  rw [nextFrame_payload _ _ hw, List.nil_append, nextFrame, if_pos ⟨rfl, rfl, hwant⟩]

/-- The accumulator that holds sixteen payload bytes is those bytes (R28). -/
theorem xbuf_of_holds {s : State} {x : XSync} {w : PayloadBytes} (h : Holds s ⟨x, w.toList⟩) : s.xbuf = w :=
  Vector.ext fun i hi => (h.bytes ⟨i, hi⟩).trans (by simp [hi])

/-! ### The cycle of a linear state -/

/-- EVAL with an empty mailbox starts the fill in every state but Complete (R166). -/
theorem exec_eval_fill (arg : Word32) {s : State} (hp : s.phase = .idle) (hboot : s.bootDone = true)
    (hq : s.qstate ≠ .complete) (hempty : s.inValid = false) :
    exec (.eval arg) s = .next { s with cmdOp := 0x08, cmdArg := arg, qS := s.qstate, phase := .qFill } := by
  rw [exec, execEval, accept_idle hp, evalStart, if_neg (by simp [hboot]), if_neg hq, if_neg (by simp [hempty])]

/-- The fill over one frame as the receiver gets it: the record is decoded into the mailbox, and the drain follows (R168). -/
theorem fill_framed {s : State} {r : RecordBytes} (hp : s.phase = .qFill) (hw : FifoWf s) (ht : s.turns = .nil)
    (hx : s.xs = .hunt) (hq : s.qS ≠ .attract) (hb : fifoBytes s = (framed (nibbleExpand r)).toList) : ∃ t : State,
      runSteps 18 s = .next t ∧ FifoWf t ∧ fifoBytes t = [] ∧
      t = { s with rd := t.rd, xlen := t.xlen, xbuf := t.xbuf, inRec := r, inValid := true, phase := .qDrain } := by
  have hframe : nextFrame decodable ⟨.hunt, []⟩ (fifoBytes s) = some ((nibbleExpand r).toList, []) := by
    rw [hb]
    exact nextFrame_framed [] (byteE_notMem_nibbleExpand r) (by simp [decodable])
  obtain ⟨v, hwv, hvb, hv, hheld, hrun⟩ := hunt_frame (huntsBy_fill hp) passes_fill hw ht ⟨hx, fun h => by cases h⟩ hframe
  have hqv : v.qS ≠ .attract := by rw [hv]; exact hq
  have hlen : (fifoBytes s).length - ([] : List Byte).length = 18 := by rw [hb]; simp
  have hpack : packNibbles v.xbuf = r := by rw [xbuf_of_holds hheld, packNibbles_nibbleExpand]
  rw [hlen, fillFrame_of_holds hheld (by simp), hpack, afterFill, if_neg hqv] at hrun
  refine ⟨{ v with inRec := r, inValid := true, phase := .qDrain }, hrun, hwv.congr rfl rfl rfl rfl, hvb, ?_⟩
  rw [hv, hx]

/-- A row of the category table gives its linear state's required type, category bit and successor (R99). -/
theorem categoryTable_row {c : Config} {q q' : QState} {ty : Byte} {bit : Nat} (h : (q, ty, bit, q') ∈ categoryTable c) :
    q ∈ linearStates ∧ reqType c q = some ty ∧ catBit q = bit ∧ q.succ = q' := by
  simp only [categoryTable, List.mem_cons, Prod.mk.injEq, List.not_mem_nil, or_false] at h
  rcases h with ⟨rfl, rfl, rfl, rfl⟩ | ⟨rfl, rfl, rfl, rfl⟩ | ⟨rfl, rfl, rfl, rfl⟩ | ⟨rfl, rfl, rfl, rfl⟩ |
    ⟨rfl, rfl, rfl, rfl⟩ <;> exact ⟨by decide, rfl, rfl, rfl⟩

/-- A magic packet of the required type whose category bit is clear is accepted (R172). -/
theorem evaluate_accepted {s : State} {ty : Byte} {bit : Nat} {q' : QState}
    (hrow : (s.qS, ty, bit, q') ∈ categoryTable s.cfg) (hv : s.inValid = true) (hmagic : recMagic s.inRec = true)
    (hty : recType s.inRec = ty) (hclear : s.qflags.getLsbD bit = false) :
    evaluate s = transition (setFlag s.qflags bit) q' .accept { s with inValid := false } := by
  obtain ⟨hlinear, hreq, rfl, rfl⟩ := categoryTable_row hrow
  have hacc : accepts s.cfg s.qflags s.qS s.inValid s.inRec = true := by
    simp [accepts, hv, hmagic, hreq, hty, hclear]
  rw [evaluate_linear hlinear, evalLinear, if_pos hacc]

/-- The effects of an acceptance after the store's answer: ERROR on a failure, DISPLAY, the tone (R177, R178). -/
theorem nvFinish_accept_fxOut (k : BitVec 1) {s : State} (h : s.qKind = .accept) : (nvFinish k s).fxOut =
    s.fxOut ++ (if k = 0 then [0x33] else []) ++ [0x10 + s.qNext.code.zeroExtend 8, 0x20] := by
  have hshown (u : State) (hu : u.qKind = .accept) :
      (transitionEffects u).fxOut = u.fxOut ++ [0x10 + u.qNext.code.zeroExtend 8, 0x20] := by
    rw [transitionEffects, hu]
    exact List.append_assoc ..
  rw [nvFinish]
  split_ifs
  · exact hshown (emit (.error true true) { s with nvBusy := false }) h
  · rw [List.append_nil]
    exact hshown { s with nvBusy := false } h

/-- Settles O37: the fill decodes the frame's record in 18 steps, the next finds the drain done and the record accepted, and
NV_DONE finishes the transition. -/
theorem requiredBadgeAdvancesState : Obligations.RequiredBadgeAdvancesState := by
  intro arg s q ty bit q' uid fl k hinv hp ht hboot hempty hx hq hrow hclear hb
  subst hq
  obtain ⟨hlinear, -⟩ := categoryTable_row hrow
  have hattract : s.qstate ≠ .attract := fun h => absurd (h ▸ hlinear) (by decide)
  have hcomplete : s.qstate ≠ .complete := fun h => absurd (h ▸ hlinear) (by decide)
  let u : State := { s with cmdOp := 0x08, cmdArg := arg, qS := s.qstate, phase := .qFill }
  obtain ⟨d, hfill, hwd, hbd, hd⟩ := fill_framed (s := u) (r := serialize uid ty 1 fl) rfl
    (hinv.fifo.congr rfl rfl rfl rfl) ht hx hattract hb
  have hrun := runSteps_hunt_end hfill (huntsBy_drain (by rw [hd])) hwd (by rw [hd]; exact ht) hbd
  have haccept : evaluate d = transition (setFlag s.qflags bit) q' .accept { d with inValid := false } := by
    rw [hd]
    exact evaluate_accepted (ty := ty) hrow rfl rfl rfl hclear
  rw [haccept] at hrun
  refine ⟨u, _, _, exec_eval_fill arg hp hboot hcomplete hempty, hrun, execNvDone_next.2 ⟨rfl, rfl⟩, rfl, ?_, ?_, rfl, ?_⟩
  · rw [hd]; rfl
  · rw [hd]; rfl
  · rw [nvFinish_accept_fxOut k rfl, nvFinish_frame]
    refine ⟨rfl, rfl, rfl, ?_, ?_, rfl, hbd⟩
    · simp [outBytes]
    · rw [hd]; rfl

end Sys2Proof.Machine
end

section
/-! PROOFS of family `42_quest.md`, the quest machine over a step: the state and the flags stay, or a transition starts, or the store's
answer ends one; from that, the invariants of the quest state. -/

namespace Sys2Proof.Machine

/-! ### What a step does to the quest machine -/

/-- From `s` to `t` a transition starts: the flag bit with the latched state's code is set, a linear state's own bit having been clear,
and the store is awaited, with no effect emitted (R171, R172, R175, R178). -/
structure StartsTransition (s t : State) : Prop where
  awaits : t.phase = .qWaitNv
  state : t.qstate = s.qstate
  notComplete : t.qS ≠ .complete
  clear : t.qS ∈ linearStates → s.qflags.getLsbD (catBit t.qS) = false
  flags : t.qflags = setFlag s.qflags (catBit t.qS)
  silent : t.fxOut = s.fxOut

/-- What an operation can do to the quest machine after BOOT: leave the state and the flags, and the store unasked; start a transition;
or finish the one that awaited the store. -/
inductive QuestMove (s t : State) : Prop where
  | stays (state : t.qstate = s.qstate) (flags : t.qflags = s.qflags)
      (waits : t.phase = .qWaitNv → s.phase = .qWaitNv ∧ t.fxOut = s.fxOut)
  | starts (unasked : s.phase ≠ .qWaitNv) (transition : StartsTransition s t)
  | answered (awaited : s.phase = .qWaitNv) (state : t.qstate = s.qNext) (flags : t.qflags = s.qflags)
      (ended : t.phase = .idle)

/-- An operation that leaves the state and the flags and does not end in the wait. -/
theorem QuestMove.outsideWait {s t : State} (hp : t.phase ≠ .qWaitNv) (hq : t.qstate = s.qstate := by rfl)
    (hf : t.qflags = s.qflags := by rfl) : QuestMove s t :=
  .stays hq hf fun h => absurd h hp

/-- An operation on other registers. -/
theorem QuestMove.elsewhere {s t : State} (hq : t.qstate = s.qstate := by rfl) (hf : t.qflags = s.qflags := by rfl)
    (hp : t.phase = s.phase := by rfl) (hfx : t.fxOut = s.fxOut := by rfl) : QuestMove s t :=
  .stays hq hf fun h => ⟨hp ▸ h, hfx⟩

theorem QuestMove.congr_left {s u t : State} (h : QuestMove u t)
    (hp : u.phase = .qWaitNv ↔ s.phase = .qWaitNv := by rfl) (hq : u.qstate = s.qstate := by rfl)
    (hf : u.qflags = s.qflags := by rfl) (hn : u.qNext = s.qNext := by rfl) (hfx : u.fxOut = s.fxOut := by rfl) :
    QuestMove s t := by
  cases h with
  | stays state flags waits => exact .stays (state.trans hq) (flags.trans hf) fun h => (waits h).imp hp.1 (·.trans hfx)
  | starts unasked transition =>
    obtain ⟨awaits, state, notComplete, clear, flags, silent⟩ := transition
    exact .starts (mt hp.2 unasked) ⟨awaits, state.trans hq, notComplete, hf ▸ clear, hf ▸ flags, silent.trans hfx⟩
  | answered awaited state flags ended => exact .answered (hp.1 awaited) (state.trans hn) (flags.trans hf) ended

theorem evaluate_questMove {s : State} (hp : s.phase ≠ .qWaitNv) : QuestMove s (evaluate s) := by
  rcases evaluate_cases s with ⟨ha, _, h⟩ | ⟨_, _, h⟩ | ⟨hl, hacc, h⟩ | ⟨_, _, h⟩ | ⟨hn, _, g, _, _, h⟩ |
    ⟨_, _, g, _, _, h⟩ | ⟨_, _, h⟩ | ⟨_, h⟩ <;> rw [h]
  · exact .starts hp ⟨rfl, rfl, by simp [ha], by simp [ha, linearStates], by simp [ha, catBit, QState.code], rfl⟩
  · exact .outsideWait nofun
  · exact .starts hp ⟨rfl, rfl, fun hc => absurd (hc ▸ hl) (by decide), fun _ => clear_of_accepts hacc, rfl, rfl⟩
  · exact .outsideWait nofun
  · exact .starts hp ⟨rfl, rfl, by simp [hn], by simp [hn, linearStates], by simp [hn, catBit, QState.code], rfl⟩
  · exact .outsideWait nofun
  · exact .outsideWait nofun
  · exact .outsideWait nofun

theorem afterFill_questMove {s : State} (hp : s.phase ≠ .qWaitNv) : QuestMove s (afterFill s) := by
  rcases afterFill_cases s with ⟨_, h⟩ | ⟨_, h⟩ <;> rw [h]
  · exact evaluate_questMove hp
  · exact .outsideWait nofun

theorem fillFrame_questMove (f : Frame) {s : State} (hp : s.phase ≠ .qWaitNv) : QuestMove s (fillFrame f s) := by
  rcases fillFrame_cases f s with ⟨_, h⟩ | ⟨r, _, h⟩ <;> rw [h]
  · exact .elsewhere
  · exact (afterFill_questMove (s := { s with inRec := r, inValid := true }) hp).congr_left

theorem recvFrame_questMove (f : Frame) (s : State) : QuestMove s (recvFrame f s) := by
  rcases recvFrame_cases f s with ⟨_, h⟩ | ⟨r, _, h⟩ <;> rw [h] <;> exact .outsideWait nofun

theorem evalStart_questMove {s : State} (hp : s.phase ≠ .qWaitNv) : QuestMove s (evalStart s) := by
  rcases evalStart_cases s with ⟨_, h⟩ | ⟨_, _, h⟩ | ⟨_, _, _, h⟩ | ⟨_, _, _, _, h⟩ | ⟨_, _, _, h⟩ <;> rw [h]
  · exact .outsideWait nofun
  · exact .outsideWait nofun
  · exact .outsideWait nofun
  · exact .outsideWait nofun
  · exact (evaluate_questMove (s := { s with qS := .attract, phase := .qFill }) nofun).congr_left (by simp [hp])

/-- A hunt's step outside the wait does what its continuations do, or moves the read cursor and the extractor alone. -/
theorem huntStep_questMove {e : State → State} {g : Frame → State → State} {s t : State} (h : huntStep e g s = .next t)
    (hp : s.phase ≠ .qWaitNv) (he : ∀ {s : State}, s.phase ≠ .qWaitNv → QuestMove s (e s))
    (hg : ∀ f {s : State}, s.phase ≠ .qWaitNv → QuestMove s (g f s)) : QuestMove s t :=
  huntStep_ends h (he hp) (fun _ _ _ _ => .elsewhere) fun d x l b =>
    (hg _ (s := { s with rd := d, xs := x, xlen := l, xbuf := b }) hp).congr_left

theorem controllerStep_questMove {s t : State} (h : controllerStep s = .next t) : QuestMove s t := by
  rcases controllerStep_cases h with ⟨_, rfl⟩ | ⟨hp, _, h⟩ | ⟨hp, _, h⟩ | ⟨hp, h⟩ | ⟨hp, h⟩ | ⟨hp, h⟩
  · exact .elsewhere
  · exact huntStep_questMove h (by simp [hp]) (fun _ => .outsideWait nofun) (fun _ _ _ => .outsideWait nofun)
  · exact huntStep_questMove h (by simp [hp]) (fun _ => .outsideWait nofun) (fun f s _ => recvFrame_questMove f s)
  · rcases sendStep_cases h with ⟨_, rfl⟩ | ⟨_, _, ⟨_, _, rfl⟩ | ⟨_, _, rfl⟩ | ⟨_, _, rfl⟩⟩
    · exact .outsideWait nofun
    · exact .elsewhere
    · exact .outsideWait nofun
    · exact .elsewhere
  · exact huntStep_questMove h (by simp [hp]) afterFill_questMove fillFrame_questMove
  · exact huntStep_questMove h (by simp [hp]) evaluate_questMove (fun _ _ _ => .elsewhere)

/-- The first BOOT alone does anything else to the quest machine (R163). -/
theorem exec_questMove {i : Instr} {s t : State} (h : exec i s = .next t) :
    QuestMove s t ∨ (s.bootDone = false ∧ t.phase = .idle) := by
  rcases exec_cases h with ⟨st, op, a, len, buf, _, rfl, _⟩ | ⟨u, _, _, hb, rfl⟩ | ⟨a, o, _, _, op, rfl⟩ | ⟨a, _, rfl⟩ |
    ⟨a, _, rfl⟩ | ⟨a, _, rfl⟩ | ⟨a, hp, rfl⟩ | ⟨d, _, _, h⟩ | ⟨k, _, hp, rfl⟩
  · exact .inl (.outsideWait nofun)
  · exact .inr ⟨hb, rfl⟩
  · exact .inl (.outsideWait nofun)
  · exact .inl (.outsideWait nofun)
  · exact .inl (.outsideWait nofun)
  · exact .inl (.outsideWait nofun)
  · exact .inl ((evalStart_questMove (s := { s with cmdOp := 8, cmdArg := a }) (by simp [hp])).congr_left)
  · rw [pushByte_frame h]
    exact .inl .elsewhere
  · rw [nvFinish_frame]
    exact .inl (.answered hp rfl rfl rfl)

/-- Every step but the reset makes a move of the quest machine, or is the first BOOT. -/
theorem step_questMove {s t : State} (hreset : nextTurn s ≠ .reset) (h : step s = .next t) :
    QuestMove s t ∨ (s.bootDone = false ∧ t.phase = .idle) := by
  rcases step_cases h with rfl | ⟨_, _, _, _, h⟩ | ⟨_, _, _, _, h⟩ | ⟨_, _, _, _, h⟩ | ⟨_, h⟩ | ⟨hu, _⟩
  · exact .inl .elsewhere
  · exact (exec_questMove h).imp_left fun hm => hm.congr_left
  · exact (exec_questMove h).imp_left fun hm => hm.congr_left
  · exact (exec_questMove h).imp_left fun hm => hm.congr_left
  · exact .inl (controllerStep_questMove h).congr_left
  · exact absurd hu hreset

/-- After BOOT. -/
theorem step_questMove_of_booted {s t : State} (hboot : s.bootDone = true) (hreset : nextTurn s ≠ .reset)
    (h : step s = .next t) : QuestMove s t :=
  (step_questMove hreset h).resolve_right fun ⟨hnot, _⟩ => by simp [hboot] at hnot

/-- A transition starts from the state that the EVAL latched (R39). -/
theorem StartsTransition.latched {s t : State} (h : StartsTransition s t) (ht : Inv t) : t.qS = s.qstate :=
  (ht.quest.latched (by rw [h.awaits]; rfl)).trans h.state

/-! ### The quest state over a step -/

/-- Settles O51. -/
theorem stepsKeepStateDerived : Obligations.StepsKeepStateDerived := by
  intro s t hcontrol hquest h
  obtain ⟨hcontrol', hquest'⟩ := step_keeps_commandWf ⟨hcontrol, hquest⟩ h
  exact ⟨hcontrol', hquest', hquest'.derived⟩

/-- Settles O50. -/
theorem stepsKeepFlagsMirrored : Obligations.StepsKeepFlagsMirrored := fun _ _ => step_keeps_mirrored

/-- Settles O41: of the ways to end in the wait, starting a transition and staying there, neither emits. -/
theorem noEffectBeforeStoreAnswers : Obligations.NoEffectBeforeStoreAnswers := by
  intro s t h hp
  by_cases hreset : nextTurn s = .reset
  · cases step_reset hreset h
    cases hp
  · rcases step_questMove hreset h with (⟨_, _, hwaits⟩ | ⟨_, hstarts⟩ | ⟨_, _, _, hended⟩) | ⟨_, hidle⟩
    · exact (hwaits hp).2
    · exact hstarts.silent
    · rw [hended] at hp
      cases hp
    · rw [hidle] at hp
      cases hp

/-- Before BOOT the state is Attract (R33, R34, R180). -/
theorem attract_of_not_booted {s : State} (h : QuestWf s) (hb : s.bootDone = false) : s.qstate = .attract := by
  obtain ⟨hflags, _, _, hidle⟩ := h.beforeBoot hb
  have hp : s.phase ≠ .qWaitNv := fun hp => by rw [hp] at hidle; cases hidle
  rw [h.derived hp, hflags]
  rfl

theorem not_forward_complete (q : QState) : ¬Forward .complete q := by
  simp [Forward]

/-- Settles O42: a transition starts from a state other than Complete, and a pending one leads from such a state. -/
theorem completeIsTerminal : Obligations.CompleteIsTerminal := by
  intro s t hinv hq h hreset
  have hboot : s.bootDone = true := by
    by_contra hnot
    have hattract := attract_of_not_booted hinv.quest (by simpa using hnot)
    rw [hq] at hattract
    cases hattract
  cases step_questMove_of_booted hboot hreset h with
  | stays hstate hflags => exact ⟨hstate.trans hq, hflags⟩
  | starts _ hstarts =>
    exact absurd ((hstarts.latched (stepsKeepInvariant s t hinv h)).trans hq) hstarts.notComplete
  | answered hp =>
    obtain ⟨_, hforward, _⟩ := hinv.quest.waiting hp
    exact absurd (hq ▸ hforward) (not_forward_complete _)

/-- Settles O43: the store's answer alone moves the state, to the pending one. -/
theorem stateOnlyMovesForward : Obligations.StateOnlyMovesForward := by
  intro s t hinv hboot h hreset
  cases step_questMove_of_booted hboot hreset h with
  | stays hstate => exact .inl hstate
  | starts _ hstarts => exact .inl hstarts.state
  | answered hp hstate =>
    obtain ⟨_, hforward, _⟩ := hinv.quest.waiting hp
    exact .inr (hstate ▸ hforward)

/-! ### Flags found in order -/

/-- The first `k` category bits are set and the others clear. -/
def FirstFound (f : Byte) (k : Nat) : Prop := ∀ i : Fin 5, f.getLsbD (i.val + 1) = decide (i.val < k)

theorem countP_range_lt : ∀ k ≤ 5, (List.range 5).countP (fun i => decide (i < k)) = k := by decide

theorem FirstFound.popcount {f : Byte} {k : Nat} (h : FirstFound f k) (hk : k ≤ 5) :
    popcount (f.extractLsb' 1 5) = k := by
  have hbits (i : Nat) (hi : i ∈ List.range 5) : (f.extractLsb' 1 5).getLsbD i = decide (i < k) := by
    have hi : i < 5 := List.mem_range.1 hi
    rw [BitVec.getLsbD_extractLsb', decide_eq_true hi, Bool.true_and, Nat.add_comm]
    exact h ⟨i, hi⟩
  exact (List.countP_congr fun i hi => by rw [hbits i hi]).trans (countP_range_lt k hk)

/-- In a linear state the categories found in order are those before its own (R160, R181). -/
theorem FirstFound.linear_code {f : Byte} {k : Nat} (h : FirstFound f k) (hk : k ≤ 5) (hl : derive f ∈ linearStates) :
    k < 5 ∧ catBit (derive f) = k + 1 := by
  obtain ⟨h6, h0⟩ := bits_of_derive_linear hl
  have hd : derive f = linear k := by rw [derive_counting h6 h0, h.popcount hk]
  rw [hd] at hl ⊢
  exact ⟨lt_five_of_linear_mem k (Nat.lt_succ_of_le hk) hl, catBit_linear k (Nat.lt_succ_of_le hk)⟩

/-- Flags found in order leave a linear state's own bit clear. -/
theorem catBit_clear_of_inOrder {f : Byte} (h : InOrder f) (hl : derive f ∈ linearStates) :
    f.getLsbD (catBit (derive f)) = false := by
  obtain ⟨k, hk, hf : FirstFound f k⟩ := h
  obtain ⟨hk5, hcat⟩ := hf.linear_code hk hl
  rw [hcat, hf ⟨k, hk5⟩]
  exact decide_eq_false (Nat.lt_irrefl k)

/-- The next category found, or a bit that is no category's, leaves the flags in order. -/
theorem inOrder_setFlag {f : Byte} (h : InOrder f) {q : QState} (hq : q ∈ linearStates → q = derive f) :
    InOrder (setFlag f (catBit q)) := by
  obtain ⟨k, hk, hf : FirstFound f k⟩ := h
  by_cases hl : q ∈ linearStates
  · obtain rfl := hq hl
    obtain ⟨hk5, hcat⟩ := hf.linear_code hk hl
    refine ⟨k + 1, hk5, fun i => ?_⟩
    rw [getLsbD_setFlag f (by omega), hf i, hcat, ← Bool.decide_or]
    exact decide_eq_decide.2 (by omega)
  · have hother : ∀ i : Fin 5, i.val + 1 ≠ catBit q := by
      revert hl
      cases q <;> decide
    refine ⟨k, hk, fun i => ?_⟩
    rw [getLsbD_setFlag f (by omega), hf i, decide_eq_false (hother i), Bool.or_false]

/-- Settles O45: a transition that starts in a linear state has found that state's own bit clear, and sets it. -/
theorem stuckOnlyFromUnorderedFlags : Obligations.StuckOnlyFromUnorderedFlags := by
  intro s t hinv hboot h hreset
  have hmove := step_questMove_of_booted hboot hreset h
  have hinv' : Inv t := stepsKeepInvariant s t hinv h
  refine ⟨fun hp hl hset => ?_, fun horder => ?_, fun horder hp hl => ?_⟩
  · cases hmove with
    | stays hstate hflags hwaits => exact ⟨fun hwait => hp (hwaits hwait).1, hstate, hflags⟩
    | starts _ hstarts =>
      have hclear := hstarts.clear
      rw [hstarts.latched hinv'] at hclear
      exact absurd hset (by simpa [catBit] using hclear hl)
    | answered hwait => exact absurd hwait hp
  · cases hmove with
    | stays _ hflags => rwa [hflags]
    | starts hp hstarts =>
      rw [hstarts.flags, hstarts.latched hinv']
      exact inOrder_setFlag horder fun _ => hinv.quest.derived hp
    | answered _ _ hflags => rwa [hflags]
  · rw [hinv.quest.derived hp] at hl ⊢
    exact catBit_clear_of_inOrder horder hl

end Sys2Proof.Machine
end

section
/-! PROOFS of family `42_quest.md`, the steps of BOOT and EVAL: the restore, the derived state, the ISSUE step of an EVAL, the decisions
that follow a drain, and the end of a transition. -/

namespace Sys2Proof.Machine

/-! ### The derived state and BOOT -/

/-- The category bits, counted one by one (R8). -/
theorem popcount_categoryBits (f : Byte) : popcount (f.extractLsb' 1 5) =
    (f.getLsbD 1).toNat + (f.getLsbD 2).toNat + (f.getLsbD 3).toNat + (f.getLsbD 4).toNat + (f.getLsbD 5).toNat := by
  have hone (b : Bool) : (if b = true then 1 else 0) = b.toNat := by cases b <;> rfl
  simp [popcount, List.range_succ, List.countP_cons, hone]
  omega

theorem code_linear : ∀ k < 6, (linear k).code.toNat = k + 1 := by decide

/-- Settles O10. -/
theorem deriveCountsCategories : Obligations.DeriveCountsCategories := by
  intro f
  refine ⟨derive_complete, fun h6 h0 => ?_, fun h6 h0 => ?_⟩
  · rw [derive, h6, h0]
    rfl
  · rw [derive_counting h6 h0, code_linear _ (Nat.lt_succ_of_le (popcount_le _)), popcount_categoryBits]
    omega

/-- BOOT shows the restored state unless it is Attract (R163). -/
theorem bootRestore_fxOut (u : Word32) (s : State) : (bootRestore u s).fxOut =
    s.fxOut ++ if derive (bootFlags u) = .attract then [] else [0x10 + (derive (bootFlags u)).code.zeroExtend 8] := by
  unfold bootRestore
  dsimp only
  split_ifs
  · exact (List.append_nil _).symm
  · rfl

/-- The first BOOT restores (R163). -/
theorem exec_boot_first (u : Word32) {s : State} (hp : s.phase = .idle) (hb : s.bootDone = false) :
    exec (.boot u) s = .next (bootRestore u { s with cmdOp := 0x01, cmdArg := u }) := by
  rw [exec, execBoot, accept_idle hp, if_neg (by simp [hb])]

/-- Settles O9, by `boot_done`. -/
theorem bootRestoresOnce : Obligations.BootRestoresOnce := by
  intro u s hp
  refine ⟨fun hb => ?_, fun hb => ?_⟩
  · rw [exec, execBoot, accept_idle hp, if_pos hb, hp]
    rfl
  · rw [exec_boot_first u hp hb, bootRestore_frame, bootRestore_fxOut, hp]
    rfl

/-! ### The ISSUE step of an EVAL -/

/-- Settles O30. -/
theorem evalBeforeBootRefuses : Obligations.EvalBeforeBootRefuses := by
  intro arg s hp hb
  rw [exec, execEval, accept_idle hp, evalStart, if_pos hb, hp]
  rfl

/-- EVAL with a full mailbox goes on to what follows the fill (R166). -/
theorem exec_eval_full (arg : Word32) {s : State} (hp : s.phase = .idle) (hboot : s.bootDone = true)
    (hq : s.qstate ≠ .complete) (hfull : s.inValid = true) : exec (.eval arg) s =
      .next (afterFill { s with cmdOp := 0x08, cmdArg := arg, qS := s.qstate, phase := .qFill }) := by
  rw [exec, execEval, accept_idle hp, evalStart, if_neg (by simp [hboot]), if_neg hq, if_pos hfull]

/-- Settles O31, by the state and the mailbox. -/
theorem evalStartsCycle : Obligations.EvalStartsCycle := by
  intro arg s hp hboot
  refine ⟨exec_eval_complete arg hp hboot, exec_eval_fill arg hp hboot, fun hq hattract hfull => ?_, fun hq hfull => ?_⟩
  · rw [exec_eval_full arg hp hboot hq hfull, afterFill, if_neg hattract]
  · rw [exec_eval_full arg hp hboot (by simp [hq]) hfull, hq]
    exact congrArg _ (afterFill_firstContact rfl hfull)

/-! ### The decisions after a drain -/

/-- The drain's step on an empty FIFO is the evaluation (R169, R170). -/
theorem controllerStep_drained {s : State} (hp : s.phase = .qDrain) (he : s.rd = s.wr) :
    controllerStep s = .next (evaluate s) :=
  (huntsBy_drain hp s rfl rfl).trans (huntStep_empty he)

/-- What a linear state asks of a packet (R172). -/
theorem accepts_iff {c : Config} {f : Byte} {q : QState} {v : Bool} {r : RecordBytes} : accepts c f q v r = true ↔
    v = true ∧ recMagic r = true ∧ reqType c q = some (recType r) ∧ f.getLsbD (catBit q) = false := by
  simp [accepts, and_assoc]

/-- Settles O34: the packet is the one that the state's row of the table accepts, or it is not. -/
theorem linearStateDecides : Obligations.LinearStateDecides := by
  rintro s q ty bit q' hp he rfl hrow
  rw [controllerStep_drained hp he]
  refine ⟨fun ⟨hv, hmagic, hty, hclear⟩ => ?_, fun hno => ?_⟩
  · rw [evaluate_accepted hrow hv (bne_iff_ne.2 hmagic) hty hclear]
    rfl
  · obtain ⟨hlinear, hreq, rfl, rfl⟩ := categoryTable_row hrow
    have hacc : ¬accepts s.cfg s.qflags s.qS s.inValid s.inRec = true := fun h => by
      obtain ⟨hv, hmagic, hty, hclear⟩ := accepts_iff.1 h
      exact hno ⟨hv, bne_iff_ne.1 hmagic, (Option.some.inj (hreq.symm.trans hty)).symm, hclear⟩
    rw [evaluate_linear hlinear, evalLinear, if_neg hacc]
    rfl

/-- In N a cycle without a packet, or with one whose type has no bucket, ends as it is (R174). -/
theorem evaluate_n_noBucket {s : State} (hq : s.qS = .n)
    (h : s.inValid = false ∨ groupOf s.cfg (recType s.inRec) = none) :
    evaluate s = finishState .n { s with inValid := false } := by
  rw [evaluate_n hq]
  unfold evalN
  rcases h with h | h <;> rw [h]
  cases s.inValid <;> rfl

/-- In N a packet's bucket is collected, and the sixth completes the quest (R174, R175). -/
theorem evaluate_n_bucket {s : State} {g : Fin 6} (hq : s.qS = .n) (hv : s.inValid = true)
    (hg : groupOf s.cfg (recType s.inRec) = some g) : evaluate s =
      if setGroup s.gflags g = 0b111111 then
        transition (setFlag s.qflags 6) .complete .complete { s with inValid := false, gflags := setGroup s.gflags g }
      else finishState .n { s with inValid := false, gflags := setGroup s.gflags g } := by
  rw [evaluate_n hq, hv]
  unfold evalN
  rw [hg]

/-- Settles O35, by the packet's bucket. -/
theorem groupQuestCollects : Obligations.GroupQuestCollects := by
  intro s hp he hq
  rw [controllerStep_drained hp he]
  refine ⟨fun hv => ?_, fun _ hg => ?_, fun g hv hg => ⟨fun hmore : setGroup s.gflags g ≠ 0b111111 => ?_,
    fun hall : setGroup s.gflags g = 0b111111 => ?_⟩⟩
  · rw [evaluate_n_noBucket hq (.inl hv)]
    rfl
  · rw [evaluate_n_noBucket hq (.inr hg)]
    rfl
  · rw [evaluate_n_bucket hq hv hg, if_neg hmore]
    rfl
  · rw [evaluate_n_bucket hq hv hg, if_pos hall]
    rfl

/-! ### The end of a transition -/

/-- The bytes of a transition's effects (R98, R177). -/
def shownBytes (q : QState) : QKind → List Byte
  | .none => []
  | .first => [0x10 + q.code.zeroExtend 8]
  | .accept => [0x10 + q.code.zeroExtend 8, 0x20]
  | .complete => [0x17, 0x21]

theorem transitionEffects_fxOut (s : State) :
    (transitionEffects s).fxOut = s.fxOut ++ shownBytes s.qNext s.qKind := by
  unfold transitionEffects
  cases s.qKind
  · exact (List.append_nil _).symm
  · rfl
  · exact List.append_assoc ..
  · exact List.append_assoc ..

/-- A failure is reported before the transition's effects (R177, R178). -/
theorem nvFinish_fxOut (k : BitVec 1) (s : State) : (nvFinish k s).fxOut =
    s.fxOut ++ (if k = 0 then [0x33] else []) ++ shownBytes s.qNext s.qKind := by
  rw [nvFinish]
  split_ifs
  · exact transitionEffects_fxOut (emit (.error true true) { s with nvBusy := false })
  · rw [List.append_nil]
    exact transitionEffects_fxOut { s with nvBusy := false }

/-- Settles O36. -/
theorem nvDoneFinishesTransition : Obligations.NvDoneFinishesTransition := by
  intro k s hp
  refine execNvDone_next.2 ⟨hp, ?_⟩
  rw [nvFinish_frame, nvFinish_fxOut]
  rfl

end Sys2Proof.Machine
end

section
/-! PROOFS of family `43_control.md`: an operation ends the running command or leaves the result registers; every step has a next
state; the commands that only report. -/

namespace Sys2Proof.Machine

/-! ### What an operation does to the results -/

/-- From `s` to `t` the command has ended, or the result registers stay: `finish` alone writes them (R203). -/
inductive EndsOrKeepsResults (s t : State) : Prop where
  | ends (idle : t.phase = .idle)
  | keeps (status : t.resStatus = s.resStatus := by rfl) (len : t.resLen = s.resLen := by rfl)
      (buf : t.resBuf = s.resBuf := by rfl)

theorem EndsOrKeepsResults.congr_left {s u t : State} (h : EndsOrKeepsResults u t)
    (hstatus : u.resStatus = s.resStatus := by rfl) (hlen : u.resLen = s.resLen := by rfl)
    (hbuf : u.resBuf = s.resBuf := by rfl) : EndsOrKeepsResults s t := by
  cases h with
  | ends idle => exact .ends idle
  | keeps status len buf => exact .keeps (status.trans hstatus) (len.trans hlen) (buf.trans hbuf)

/-- An evaluation that starts a transition leaves the results to NV_DONE; every other ends the EVAL (R170 to R177). -/
theorem evaluate_results (s : State) : EndsOrKeepsResults s (evaluate s) := by
  rcases evaluate_cases s with ⟨_, _, h⟩ | ⟨_, _, h⟩ | ⟨_, _, h⟩ | ⟨_, _, h⟩ | ⟨_, _, g, _, _, h⟩ | ⟨_, _, g, _, _, h⟩ |
    ⟨_, _, h⟩ | ⟨_, h⟩ <;> rw [h]
  · exact .keeps
  · exact .ends rfl
  · exact .keeps
  · exact .ends rfl
  · exact .keeps
  · exact .ends rfl
  · exact .ends rfl
  · exact .ends rfl

theorem afterFill_results (s : State) : EndsOrKeepsResults s (afterFill s) := by
  rcases afterFill_cases s with ⟨_, h⟩ | ⟨_, h⟩ <;> rw [h]
  · exact evaluate_results s
  · exact .keeps

theorem fillFrame_results (f : Frame) (s : State) : EndsOrKeepsResults s (fillFrame f s) := by
  rcases fillFrame_cases f s with ⟨_, h⟩ | ⟨r, _, h⟩ <;> rw [h]
  · exact .keeps
  · exact (afterFill_results _).congr_left

theorem recvFrame_results (f : Frame) (s : State) : EndsOrKeepsResults s (recvFrame f s) := by
  rcases recvFrame_cases f s with ⟨_, h⟩ | ⟨r, _, h⟩ <;> rw [h] <;> exact .ends rfl

theorem evalStart_results (s : State) : EndsOrKeepsResults s (evalStart s) := by
  rcases evalStart_cases s with ⟨_, h⟩ | ⟨_, _, h⟩ | ⟨_, _, _, h⟩ | ⟨_, _, _, _, h⟩ | ⟨_, _, _, h⟩ <;> rw [h]
  · exact .ends rfl
  · exact .keeps
  · exact .keeps
  · exact .keeps
  · exact (evaluate_results _).congr_left

/-- A hunt's step does to the results what its continuations do. -/
theorem huntStep_results {e : State → State} {g : Frame → State → State} {s t : State} (h : huntStep e g s = .next t)
    (he : ∀ s, EndsOrKeepsResults s (e s)) (hg : ∀ f s, EndsOrKeepsResults s (g f s)) : EndsOrKeepsResults s t :=
  huntStep_ends h (he s) (fun _ _ _ _ => .keeps) fun _ _ _ _ => (hg _ _).congr_left

theorem sendStep_results {s t : State} (h : sendStep s = .next t) : EndsOrKeepsResults s t := by
  rcases sendStep_cases h with ⟨_, rfl⟩ | ⟨_, _, ⟨_, _, rfl⟩ | ⟨_, _, rfl⟩ | ⟨_, _, rfl⟩⟩
  · exact .ends rfl
  · exact .keeps
  · exact .ends rfl
  · exact .keeps

theorem controllerStep_results {s t : State} (h : controllerStep s = .next t) : EndsOrKeepsResults s t := by
  rcases controllerStep_cases h with ⟨_, rfl⟩ | ⟨_, _, h⟩ | ⟨_, _, h⟩ | ⟨_, h⟩ | ⟨_, h⟩ | ⟨_, h⟩
  · exact .keeps
  · exact huntStep_results h (fun _ => .ends rfl) (fun _ _ => .ends rfl)
  · exact huntStep_results h (fun _ => .ends rfl) recvFrame_results
  · exact sendStep_results h
  · exact huntStep_results h afterFill_results fillFrame_results
  · exact huntStep_results h evaluate_results (fun _ _ => .keeps)

/-- An instruction that reports ends its command at once; the start of a hunt, the start of an EVAL's loops and PUSH leave the
results. -/
theorem exec_results {i : Instr} {s t : State} (h : exec i s = .next t) : EndsOrKeepsResults s t := by
  rcases exec_cases h with ⟨st, op, a, len, buf, _, rfl, _⟩ | ⟨u, _, _, _, rfl⟩ | ⟨a, o, _, _, op, rfl⟩ | ⟨a, _, rfl⟩ |
    ⟨a, _, rfl⟩ | ⟨a, _, rfl⟩ | ⟨a, _, rfl⟩ | ⟨d, _, _, h⟩ | ⟨k, _, _, rfl⟩
  · exact .ends rfl
  · exact .ends rfl
  · exact .ends rfl
  · exact .keeps
  · exact .keeps
  · exact .keeps
  · exact (evalStart_results _).congr_left
  · rw [pushByte_frame h]
    exact .keeps
  · exact .ends rfl

theorem step_results {s t : State} (h : step s = .next t) : EndsOrKeepsResults s t := by
  rcases step_cases h with rfl | ⟨_, _, _, _, h⟩ | ⟨_, _, _, _, h⟩ | ⟨_, _, _, _, h⟩ | ⟨_, h⟩ | ⟨_, rfl⟩
  · exact .keeps
  · exact (exec_results h).congr_left
  · exact (exec_results h).congr_left
  · exact (exec_results h).congr_left
  · exact (controllerStep_results h).congr_left
  · exact .ends rfl

/-- Settles O58: the step has not ended the command, so it leaves the results. -/
theorem resultsChangeOnlyAtFinish : Obligations.ResultsChangeOnlyAtFinish := by
  intro s t h hbusy
  cases step_results h with
  | ends idle => exact absurd idle hbusy
  | keeps status len buf => exact ⟨status, len, buf⟩

/-! ### A next state -/

/-- Settles O52: the invariant keeps the cursors inside the ring and the phase with its command, which is all that a step needs. -/
theorem nothingStopsTheMachine : Obligations.NothingStopsTheMachine := fun _ hinv => step_answers hinv.fifo hinv.control

/-! ### Commands that only report -/

/-- A command whose code is `finish` alone latches its word and writes the results, and nothing else (R201, R203). -/
theorem accept_finish (op : Byte) (arg : Word32) (st : Status) (len : BitVec 5) (buf : FrameBytes) {s : State}
    (hp : s.phase = .idle) : accept op arg (finish st len buf) s = .next { s with
      cmdOp := op, cmdArg := arg, resStatus := statusCode st, resLen := len, resBuf := buf } := by
  rw [accept_idle hp, hp]
  rfl

/-- Settles O4. -/
theorem nopReportsSuccess : Obligations.NopReportsSuccess := fun arg _ hp => accept_finish 0x00 arg .ok 0 noBytes hp

/-- Settles O5: the decoder leaves the op to `illegal`, which reports its status alone. -/
theorem illegalOpReportsIllegal : Obligations.IllegalOpReportsIllegal := by
  intro w s hop hp
  have hdecode : decode (.command w) = .illegal (opOf w) (argOf w) := decodeCommand_illegal hop (argOf w)
  refine ⟨hdecode, ?_⟩
  rw [hdecode]
  exact accept_finish (opOf w) (argOf w) .illegal 0 noBytes hp

end Sys2Proof.Machine
end

section
/-! PROOFS of family `70_reset_and_hazards.md`: the reset event's registers, and the wait for a store that stays silent. -/

namespace Sys2Proof.Machine

/-! ### The reset event -/

/-- A reset turn always has a next state, the reset event's (R250). -/
theorem step_of_reset {s : State} (hu : nextTurn s = .reset) :
    step s = .next (resetEvent { s with turns := s.turns.rest }) := by
  rw [step_eq, hu, takeTurn]

/-- Settles O59: the values are the reset event's own, field by field. -/
theorem resetClearsRegisters : Obligations.ResetClearsRegisters := fun _ hu => step_of_reset hu

/-! ### A supply that never lists an entry -/

/-- The entry is in neither part of the supply. -/
structure Supply.Omits {α : Type} (x : α) (q : Supply α) : Prop where
  once : x ∉ q.once
  cycle : x ∉ q.cycle

/-- Using up an entry lists no new one, also where `cycle` begins again. -/
theorem Supply.Omits.rest {α : Type} {x : α} {q : Supply α} (h : q.Omits x) : q.rest.Omits x := by
  obtain ⟨once, cycle⟩ := q
  cases once with
  | nil => exact ⟨fun hx => h.cycle (List.mem_of_mem_tail hx), h.cycle⟩
  | cons y l => exact ⟨fun hx => h.once (List.mem_cons_of_mem y hx), h.cycle⟩

theorem Supply.Omits.head?_ne {α : Type} {x : α} {q : Supply α} (h : q.Omits x) : q.head? ≠ some x := by
  obtain ⟨once, cycle⟩ := q
  cases once with
  | nil => exact fun hx => h.cycle (List.mem_of_head? hx)
  | cons y l => exact fun hx => h.once (List.mem_of_head? hx)

/-- With no reset listed the next turn is an agent's: the one listed, or the controller's. -/
theorem nextTurn_ne_reset {s : State} (h : s.turns.Omits .reset) : nextTurn s ≠ .reset := by
  unfold nextTurn
  cases hu : s.turns.head? with
  | none => decide
  | some u => exact fun hreset => h.head?_ne (hu.trans (congrArg some hreset))

/-! ### The wait for a silent store -/

/-- The controller waits for the store, which has no answer to give, and no reset is to come (R262). -/
structure AwaitsSilentStore (s : State) : Prop where
  phase : s.phase = .qWaitNv
  held : s.nvBusy = true
  silent : s.nvIn = .nil
  noReset : s.turns.Omits .reset

theorem AwaitsSilentStore.restTurns {s : State} (h : AwaitsSilentStore s) :
    AwaitsSilentStore { s with turns := s.turns.rest } := ⟨h.phase, h.held, h.silent, h.noReset.rest⟩

/-- The wait holds the host and the RX producer (R201, R112), the store gives no answer, and the controller has no step (R262). -/
theorem takeTurn_waits {u : Turn} {s : State} (h : AwaitsSilentStore s) (hu : u ≠ .reset) : takeTurn u s = .next s := by
  cases u with
  | host => exact hostTurn_waits (.inr (by simp [h.phase]))
  | rx => exact rxTurn_waits (.inr (by simp [h.held]))
  | nv => exact nvTurn_waits (.inl (by rw [h.silent, Supply.head?_nil]))
  | controller => rw [takeTurn, controllerStep, h.phase]
  | reset => exact absurd rfl hu

theorem step_waits {s : State} (h : AwaitsSilentStore s) : step s = .next { s with turns := s.turns.rest } := by
  rw [step_eq]
  exact takeTurn_waits h.restTurns (nextTurn_ne_reset h.noReset)

/-- Over any number of steps only turns are used up, by induction on that number. -/
theorem runSteps_waits (n : Nat) {s : State} (h : AwaitsSilentStore s) :
    runSteps n s = .next { s with turns := Supply.rest^[n] s.turns } := by
  induction n generalizing s with
  | zero => rfl
  | succ n ih => rw [runSteps_succ (step_waits h), ih h.restTurns, Function.iterate_succ_apply]

/-- Settles O57. -/
theorem silentStoreHoldsForever : Obligations.SilentStoreHoldsForever := fun _ n hphase hheld hsilent honce hcycle =>
  runSteps_waits n ⟨hphase, hheld, hsilent, honce, hcycle⟩

end Sys2Proof.Machine
end
